-- ==== Sys2Proof/Word.lean ====
section
/-! DEFINITION. The words of the block: bus bytes, host words, chip bases (00_scope.md R10). -/

namespace Sys2Proof

/-- A chip register or bus byte, 8 bits (00_scope.md R10). -/
abbrev Byte := BitVec 8

/-- A host register, 32 bits (00_scope.md R10). -/
abbrev Word := BitVec 32

/-- A chip base address or strobe code, 6 bits (00_scope.md R10). -/
abbrev Base := BitVec 6

/-- `zext_32` of a byte (00_scope.md R11). -/
abbrev Byte.toWord (b : Byte) : Word := b.setWidth 32

/-- `zext_8` of a base: the write header of that base (30_encoding.md R111). -/
abbrev Base.toByte (a : Base) : Byte := a.setWidth 8

end Sys2Proof
end

