-- ==== Sys2Proof/Config.lean ====
section
/-! DEFINITION. What an instance of the block fixes (00_scope.md R9), and the free values: what no rule
of the spec determines (00_scope.md R8, 93_implementation_defined.md I1, I2, I12). -/

namespace Sys2Proof

/-- The reference oscillator, FXOSC_HZ (00_scope.md R9, 42_numeric_conversion.md R210). -/
def Config.fxoscHz : Nat := 26000000

/-- BUF_SIZE: the bytes of BUF and of FRAME (00_scope.md R9, 10_state.md R38, R39). -/
def Config.bufSize : Nat := 64

/-- TX_LEN_LIMIT: a payload of this length or more is not sent (00_scope.md R9, 90_conflicts.md C6). -/
def Config.txLenLimit : Nat := 62

/-- Which of the two top bits of a header is the read bit and which the burst bit. A base fills the six bits below, so
no other place is left for them; which flag is in which bit is a parameter (00_scope.md R9, HDR_READ_BIT and
HDR_BURST_BIT; 30_encoding.md R110; 93_implementation_defined.md I21). -/
inductive HeaderBits where
  /-- The read bit is bit 7 and the burst bit bit 6: the default. -/
  | read7Burst6
  /-- The read bit is bit 6 and the burst bit bit 7. -/
  | read6Burst7
  deriving DecidableEq, Repr

/-- The bases of the configuration registers, by the name of the register (20_memory.md R76; 00_scope.md R9;
93_implementation_defined.md I27). -/
structure ConfigBases where
  (iocfg2 iocfg1 iocfg0 fifothr sync1 sync0 pktlen pktctrl1 : Base)
  (pktctrl0 addr channr fsctrl1 fsctrl0 freq2 freq1 freq0 : Base)
  (mdmcfg4 mdmcfg3 mdmcfg2 mdmcfg1 mdmcfg0 deviatn mcsm2 mcsm1 : Base)
  (mcsm0 foccfg bscfg agcctrl2 agcctrl1 agcctrl0 worevt1 worevt0 : Base)
  (worctrl frend1 frend0 fscal3 fscal2 fscal1 fscal0 rcctrl1 : Base)
  (rcctrl0 fstest ptest agctest test2 test1 test0 : Base)
  deriving DecidableEq, Repr

/-- The bases of the status registers, by the name of the register (20_memory.md R78; 00_scope.md R9;
93_implementation_defined.md I29). -/
structure StatusBases where
  (partnum version freqest lqi rssi marcstate wortime1 : Base)
  (wortime0 pktstatus vcoVcDac txbytes rxbytes rcctrl1Status rcctrl0Status : Base)
  deriving DecidableEq, Repr

/-- The strobe codes, by the name of the strobe (20_memory.md R77; 00_scope.md R9; 93_implementation_defined.md
I28). -/
structure StrobeCodes where
  (sres sfstxon sxoff scal srx stx sidle swor spwd sfrx sftx sworrst snop : Base)
  deriving DecidableEq, Repr

/-- How the chip is addressed: the header bits, the register bases and the strobe codes (00_scope.md R9), with the
bases of the PATABLE and of the FIFO (20_memory.md R75, R79; 93_implementation_defined.md I26). -/
structure ChipAddresses where
  /-- HDR_READ_BIT and HDR_BURST_BIT. -/
  bits : HeaderBits
  /-- The configuration registers. -/
  config : ConfigBases
  /-- The status registers. -/
  status : StatusBases
  /-- The strobes. -/
  strobes : StrobeCodes
  /-- PATABLE. -/
  patable : Base
  /-- The FIFO. -/
  fifo : Base
  deriving DecidableEq, Repr

/-- The parameters of 00_scope.md R9 that a model takes as configuration: the ones marked open, and
those whose default is general knowledge (93_implementation_defined.md, Part B). State carries one
value of this type and no step changes it. -/
structure Params where
  /-- HDR_READ_BIT, HDR_BURST_BIT, register addresses and strobe codes (30_encoding.md R110, 20_memory.md R75 to
  R79). -/
  chip : ChipAddresses
  /-- REPORT_LENGTH_ERROR: a rejected transmit length raises LengthOutOfRange (45_packet_protocol.md R299). -/
  reportLengthError : Bool
  /-- MARC_IDLE (44_radio_state_machine.md R270). -/
  marcIdle : BitVec 5
  /-- MARC_RX (44_radio_state_machine.md R270). -/
  marcRx : BitVec 5
  /-- MARC_TX (44_radio_state_machine.md R270). -/
  marcTx : BitVec 5
  /-- MARC_MASK (44_radio_state_machine.md R271). -/
  marcMask : Byte
  /-- DEF_DEVIATN (41_field_codecs.md R184). -/
  defDeviatn : Byte
  /-- DEF_MDMCFG3 (41_field_codecs.md R182). -/
  defMdmcfg3 : Byte
  /-- DEF_SYNC1 (41_field_codecs.md R176). -/
  defSync1 : Byte
  /-- DEF_SYNC0 (41_field_codecs.md R176). -/
  defSync0 : Byte
  /-- DEF_ADDR (41_field_codecs.md R180). -/
  defAddr : Byte
  /-- DEF_PKTLEN (41_field_codecs.md R177). -/
  defPktlen : Byte
  /-- GDO_IOCFG: the line-function register (41_field_codecs.md R175, R189). -/
  gdoIocfg : Base
  /-- GDO_CFG_SYNC (41_field_codecs.md R189): a byte below 0x40 (R175), its six low bits. -/
  gdoCfgSync : BitVec 6
  /-- GDO_CFG_EOP (41_field_codecs.md R189): a byte below 0x40 (R175), its six low bits. -/
  gdoCfgEop : BitVec 6
  /-- RSSI_OFFSET (46_readout.md R323). -/
  rssiOffset : Int
  /-- BASELINE: the pairs SETDEFAULTS writes, in order (43_configuration.md R248). -/
  baseline : List (Base × Byte)
  /-- CS_ACTIVE_LEVEL: the level that selects the chip, `false` for low (40_bus_transactions.md R140). -/
  csActiveLevel : Bool
  deriving DecidableEq, Repr

/-- FREE VALUE (log entry 4): whether bus primitive number `n` fails, and with what error payload
(00_scope.md R8; 93_implementation_defined.md I2, I12). -/
opaque Config.freeFailure : Nat → Option Nat

/-- FREE VALUE (log entry 4): the status-line level answered to bus primitive number `n`
(00_scope.md R8, 10_state.md R43). -/
opaque Config.freeLevel : Nat → Bool

/-- FREE VALUE (log entry 4): byte `j` clocked back by bus primitive number `n` (00_scope.md R8). -/
opaque Config.freeChipByte : Nat → Nat → Byte

/-- FREE VALUE (log entry 5): what byte `a` of BUF or FRAME reads as, when nothing has written it, at
memory read number `n` (10_state.md R38, R39; 93_implementation_defined.md I1). -/
opaque Config.freeMemByte : Nat → Nat → Byte

end Sys2Proof
end

