-- ==== Sys2Proof/Syntax.lean ====
section
/-! DEFINITION. The instructions: one constructor for each row of spec/opcode_table.json. The rows of kind
host_command are the commands of 30_encoding.md R102, whose operands stand in ARG0, ARG1 and BUF; the other
rows are the header bytes of 30_encoding.md R110 to R113, whose data bytes stand in the open transaction. -/

namespace Sys2Proof

inductive Instr where
  /-- RDREG, opcode 0x01 (R150). -/
  | rdreg
  /-- WRREG, opcode 0x02 (R151). -/
  | wrreg
  /-- STROBE, opcode 0x03 (R152). -/
  | strobe
  /-- RDFIFO, opcode 0x04 (R153). -/
  | rdfifo
  /-- WRBURST, opcode 0x05 (R154). -/
  | wrburst
  /-- MODREG, opcode 0x06 (R155). -/
  | modreg
  /-- SETFREQ, opcode 0x10 (R240). -/
  | setfreq
  /-- SETDEV, opcode 0x11 (R241). -/
  | setdev
  /-- SETDRATE, opcode 0x12 (R242). -/
  | setdrate
  /-- SETCHANBW, opcode 0x13 (R243). -/
  | setchanbw
  /-- SETSYNC, opcode 0x14 (R244). -/
  | setsync
  /-- SETMOD, opcode 0x15 (R245). -/
  | setmod
  /-- SETADDRFILT, opcode 0x16 (R246). -/
  | setaddrfilt
  /-- SETPKTLEN, opcode 0x17 (R247). -/
  | setpktlen
  /-- SETDEFAULTS, opcode 0x18 (R248). -/
  | setdefaults
  /-- GOIDLE, opcode 0x20 (R274). -/
  | goidle
  /-- GORX, opcode 0x21 (R275). -/
  | gorx
  /-- GOTX, opcode 0x22 (R276). -/
  | gotx
  /-- RECEIVE, opcode 0x30 (R290). -/
  | receive
  /-- TRANSMIT, opcode 0x31 (R298). -/
  | transmit
  /-- HWINFO, opcode 0x40 (R320). -/
  | hwinfo
  /-- RSSI, opcode 0x41 (R321). -/
  | rssi
  /-- LQI, opcode 0x42 (R322). -/
  | lqi
  /-- HDR_READ: header 10AAAAAA (30_encoding.md R111). -/
  | hdrRead (a : Base)
  /-- HDR_READ_BURST: header 11AAAAAA (30_encoding.md R111). -/
  | hdrReadBurst (a : Base)
  /-- HDR_WRITE: header 00AAAAAA (30_encoding.md R111). -/
  | hdrWrite (a : Base)
  /-- HDR_BURST_WRITE: header 01AAAAAA (30_encoding.md R111). -/
  | hdrBurstWrite (a : Base)
  /-- FIFO_SINGLE_READ: header 10111111 (30_encoding.md R112). -/
  | fifoSingleRead
  /-- FIFO_SINGLE_WRITE: header 00111111 (30_encoding.md R112). -/
  | fifoSingleWrite
  /-- FIFO_BURST_READ: header 11111111 (30_encoding.md R112). -/
  | fifoBurstRead
  /-- FIFO_BURST_WRITE: header 01111111 (30_encoding.md R112). -/
  | fifoBurstWrite
  /-- SRES: header 0x30, one byte sent alone (30_encoding.md R113, 20_memory.md R77). -/
  | sres
  /-- SFSTXON: header 0x31, one byte sent alone (30_encoding.md R113, 20_memory.md R77). -/
  | sfstxon
  /-- SXOFF: header 0x32, one byte sent alone (30_encoding.md R113, 20_memory.md R77). -/
  | sxoff
  /-- SCAL: header 0x33, one byte sent alone (30_encoding.md R113, 20_memory.md R77). -/
  | scal
  /-- SRX: header 0x34, one byte sent alone (30_encoding.md R113, 20_memory.md R77). -/
  | srx
  /-- STX: header 0x35, one byte sent alone (30_encoding.md R113, 20_memory.md R77). -/
  | stx
  /-- SIDLE: header 0x36, one byte sent alone (30_encoding.md R113, 20_memory.md R77). -/
  | sidle
  /-- SWOR: header 0x38, one byte sent alone (30_encoding.md R113, 20_memory.md R77). -/
  | swor
  /-- SPWD: header 0x39, one byte sent alone (30_encoding.md R113, 20_memory.md R77). -/
  | spwd
  /-- SFRX: header 0x3A, one byte sent alone (30_encoding.md R113, 20_memory.md R77). -/
  | sfrx
  /-- SFTX: header 0x3B, one byte sent alone (30_encoding.md R113, 20_memory.md R77). -/
  | sftx
  /-- SWORRST: header 0x3C, one byte sent alone (30_encoding.md R113, 20_memory.md R77). -/
  | sworrst
  /-- SNOP: header 0x3D, one byte sent alone (30_encoding.md R113, 20_memory.md R77). -/
  | snop
  /-- RD_PARTNUM: header 0xF0 and one dummy byte (20_memory.md R78). -/
  | rdPartnum
  /-- RD_VERSION: header 0xF1 and one dummy byte (20_memory.md R78). -/
  | rdVersion
  /-- RD_FREQEST: header 0xF2 and one dummy byte (20_memory.md R78). -/
  | rdFreqest
  /-- RD_LQI_REG: header 0xF3 and one dummy byte (20_memory.md R78). -/
  | rdLqiReg
  /-- RD_RSSI_REG: header 0xF4 and one dummy byte (20_memory.md R78). -/
  | rdRssiReg
  /-- RD_MARCSTATE: header 0xF5 and one dummy byte (20_memory.md R78). -/
  | rdMarcstate
  /-- RD_WORTIME1: header 0xF6 and one dummy byte (20_memory.md R78). -/
  | rdWortime1
  /-- RD_WORTIME0: header 0xF7 and one dummy byte (20_memory.md R78). -/
  | rdWortime0
  /-- RD_PKTSTATUS: header 0xF8 and one dummy byte (20_memory.md R78). -/
  | rdPktstatus
  /-- RD_VCO_VC_DAC: header 0xF9 and one dummy byte (20_memory.md R78). -/
  | rdVcoVcDac
  /-- RD_TXBYTES: header 0xFA and one dummy byte (20_memory.md R78). -/
  | rdTxbytes
  /-- RD_RXBYTES: header 0xFB and one dummy byte (20_memory.md R78). -/
  | rdRxbytes
  /-- RD_RCCTRL1_STATUS: header 0xFC and one dummy byte (20_memory.md R78). -/
  | rdRcctrl1Status
  /-- RD_RCCTRL0_STATUS: header 0xFD and one dummy byte (20_memory.md R78). -/
  | rdRcctrl0Status
  deriving DecidableEq, Repr

end Sys2Proof
end

