-- ==== Sys2Proof/WellFormed.lean ====
section
/-! DEFINITION. Which instruction terms stand for a row's own words. A header row with a free base gives
way to the row that fixes its whole byte: base 0x3F is the FIFO's (30_encoding.md R112) and bases 0x30 to
0x3D, read with the burst bit, are the status reads' (20_memory.md R78). -/

namespace Sys2Proof

/-- The base of the FIFO (20_memory.md R79). -/
def Base.isFifo (a : Base) : Bool := a == 0x3F#6

/-- A base that is a status register when read with the burst bit (20_memory.md R75, R78). -/
def Base.isStatus (a : Base) : Bool := 0x30#6 ≤ a && a ≤ 0x3D#6

/-- The instruction is the one its own header byte stands for. -/
def Instr.wf : Instr → Bool
  | .hdrRead a => !a.isFifo
  | .hdrReadBurst a => !a.isFifo && !a.isStatus
  | .hdrWrite a => !a.isFifo
  | .hdrBurstWrite a => !a.isFifo
  | _ => true

/-- The rows of kind host_command. -/
def Instr.isCommand : Instr → Bool
  | .rdreg | .wrreg | .strobe | .rdfifo | .wrburst | .modreg | .setfreq | .setdev | .setdrate
  | .setchanbw | .setsync | .setmod | .setaddrfilt | .setpktlen | .setdefaults | .goidle | .gorx
  | .gotx | .receive | .transmit | .hwinfo | .rssi | .lqi => true
  | _ => false

/-- The rows of kind strobe. -/
def Instr.isStrobe : Instr → Bool
  | .sres | .sfstxon | .sxoff | .scal | .srx | .stx | .sidle | .swor | .spwd | .sfrx | .sftx
  | .sworrst | .snop => true
  | _ => false

/-- The rows of kind status_read. -/
def Instr.isStatusRead : Instr → Bool
  | .rdPartnum | .rdVersion | .rdFreqest | .rdLqiReg | .rdRssiReg | .rdMarcstate | .rdWortime1
  | .rdWortime0 | .rdPktstatus | .rdVcoVcDac | .rdTxbytes | .rdRxbytes | .rdRcctrl1Status
  | .rdRcctrl0Status => true
  | _ => false

/-- The rows whose data bytes are written: a register, burst or FIFO write (30_encoding.md R111, R112). -/
def Instr.isWireWrite : Instr → Bool
  | .hdrWrite _ | .hdrBurstWrite _ | .fifoSingleWrite | .fifoBurstWrite => true
  | _ => false

end Sys2Proof
end

