-- ==== Sys2Proof/Decode.lean ====
section
/-! DEFINITION. The decoder of both encodings of 30_encoding.md: the opcode in CMD[7:0] (R100 to R104, R107)
and the header byte that opens a bus transaction (R110 to R116), for the chip's addresses as configured
(00_scope.md R9); then the encoder. -/

namespace Sys2Proof

/-- Why a decoder gives no instruction. -/
inductive DecodeError where
  /-- CMD holds an opcode that is not in the map (30_encoding.md R104). -/
  | illegalOpcode (w : Byte)
  /-- A frame with no byte has no header (no subroutine opens one: 30_encoding.md R115). -/
  | emptyFrame
  deriving DecidableEq, Repr

/-- Where an 8-bit word stands, which says how it is read (log entry 1): in CMD, as a header sent alone, or
as a header that more bytes follow. -/
inductive Port where
  /-- The OPCODE field of CMD (30_encoding.md R100). -/
  | command
  /-- A header byte that is the whole transfer: a strobe, where the code is one (30_encoding.md R113). -/
  | lone
  /-- A header byte followed by data or dummy bytes (30_encoding.md R115). -/
  | frame
  deriving DecidableEq, Repr

/-- The opcode map (30_encoding.md R102). -/
def commandTable : List (Byte × Instr) := [
   (0x01#8, .rdreg), (0x02#8, .wrreg), (0x03#8, .strobe), (0x04#8, .rdfifo),
   (0x05#8, .wrburst), (0x06#8, .modreg), (0x10#8, .setfreq), (0x11#8, .setdev),
   (0x12#8, .setdrate), (0x13#8, .setchanbw), (0x14#8, .setsync), (0x15#8, .setmod),
   (0x16#8, .setaddrfilt), (0x17#8, .setpktlen), (0x18#8, .setdefaults), (0x20#8, .goidle),
   (0x21#8, .gorx), (0x22#8, .gotx), (0x30#8, .receive), (0x31#8, .transmit),
   (0x40#8, .hwinfo), (0x41#8, .rssi), (0x42#8, .lqi)]

/-- The instruction that CMD[7:0] names (30_encoding.md R102, R104, R107). -/
def decodeCommand (w : Byte) : Except DecodeError Instr :=
  match commandTable.lookup w with
  | some i => .ok i
  | none => .error (.illegalOpcode w)

/-! Headers. -/

/-- HDR_READ_BIT (30_encoding.md R110). -/
def hdrReadBit : HeaderBits → Byte
  | .read7Burst6 => 0x80#8
  | .read6Burst7 => 0x40#8

/-- HDR_BURST_BIT (30_encoding.md R110). -/
def hdrBurstBit : HeaderBits → Byte
  | .read7Burst6 => 0x40#8
  | .read6Burst7 => 0x80#8

/-- The header of an access: read bit, burst bit, base (30_encoding.md R110). -/
def headerByte (l : HeaderBits) (read burst : Bool) (a : Base) : Byte :=
  (if read then hdrReadBit l else 0#8) ||| (if burst then hdrBurstBit l else 0#8) ||| a.setWidth 8

/-- The field R of a header (30_encoding.md R110). -/
def isRead (l : HeaderBits) (h : Byte) : Bool := h &&& hdrReadBit l != 0#8

/-- The field B of a header (30_encoding.md R110). -/
def isBurst (l : HeaderBits) (h : Byte) : Bool := h &&& hdrBurstBit l != 0#8

/-- `hdr_read(id)`, id = S and base (30_encoding.md R111). -/
def hdrReadOf (l : HeaderBits) (id : BitVec 7) : Byte := headerByte l true (id.getLsbD 6) (id.setWidth 6)

/-- `hdr_write(base)` (30_encoding.md R111). -/
def hdrWriteOf (l : HeaderBits) (a : Base) : Byte := headerByte l false false a

/-- `hdr_burst_write(base)` (30_encoding.md R111). -/
def hdrBurstWriteOf (l : HeaderBits) (a : Base) : Byte := headerByte l false true a

/-- The header of the block's own FIFO reads: burst read (30_encoding.md R112). -/
abbrev fifoReadHeader (m : ChipAddresses) : Byte := headerByte m.bits true true m.fifo

/-- The identifier of a configuration register, S = 0 (30_encoding.md R111). -/
def configId (a : Base) : BitVec 7 := a.setWidth 7

/-- The identifier of a status register, S = 1 (30_encoding.md R111). -/
def statusId (a : Base) : BitVec 7 := 0x40#7 ||| a.setWidth 7

/-- The strobe codes: each is the header of a single write (20_memory.md R77, 30_encoding.md R113). -/
def strobeTable (m : ChipAddresses) : List (Byte × Instr) := [
   (headerByte m.bits false false m.strobes.sres, .sres),
   (headerByte m.bits false false m.strobes.sfstxon, .sfstxon),
   (headerByte m.bits false false m.strobes.sxoff, .sxoff),
   (headerByte m.bits false false m.strobes.scal, .scal),
   (headerByte m.bits false false m.strobes.srx, .srx),
   (headerByte m.bits false false m.strobes.stx, .stx),
   (headerByte m.bits false false m.strobes.sidle, .sidle),
   (headerByte m.bits false false m.strobes.swor, .swor),
   (headerByte m.bits false false m.strobes.spwd, .spwd),
   (headerByte m.bits false false m.strobes.sfrx, .sfrx),
   (headerByte m.bits false false m.strobes.sftx, .sftx),
   (headerByte m.bits false false m.strobes.sworrst, .sworrst),
   (headerByte m.bits false false m.strobes.snop, .snop)]

/-- The four forms of the FIFO address (30_encoding.md R112). -/
def fifoTable (m : ChipAddresses) : List (Byte × Instr) := [
   (headerByte m.bits true false m.fifo, .fifoSingleRead), (headerByte m.bits false false m.fifo, .fifoSingleWrite),
   (fifoReadHeader m, .fifoBurstRead), (headerByte m.bits false true m.fifo, .fifoBurstWrite)]

/-- The status reads: the read bit and the burst bit both set (20_memory.md R78). -/
def statusTable (m : ChipAddresses) : List (Byte × Instr) := [
   (headerByte m.bits true true m.status.partnum, .rdPartnum),
   (headerByte m.bits true true m.status.version, .rdVersion),
   (headerByte m.bits true true m.status.freqest, .rdFreqest),
   (headerByte m.bits true true m.status.lqi, .rdLqiReg),
   (headerByte m.bits true true m.status.rssi, .rdRssiReg),
   (headerByte m.bits true true m.status.marcstate, .rdMarcstate),
   (headerByte m.bits true true m.status.wortime1, .rdWortime1),
   (headerByte m.bits true true m.status.wortime0, .rdWortime0),
   (headerByte m.bits true true m.status.pktstatus, .rdPktstatus),
   (headerByte m.bits true true m.status.vcoVcDac, .rdVcoVcDac),
   (headerByte m.bits true true m.status.txbytes, .rdTxbytes),
   (headerByte m.bits true true m.status.rxbytes, .rdRxbytes),
   (headerByte m.bits true true m.status.rcctrl1Status, .rdRcctrl1Status),
   (headerByte m.bits true true m.status.rcctrl0Status, .rdRcctrl0Status)]

/-- The row of a header by its read bit and burst bit alone (30_encoding.md R110). -/
def decodeForm (m : ChipAddresses) (h : Byte) : Instr :=
  let a := h.setWidth 6
  match isRead m.bits h, isBurst m.bits h with
  | true, false => .hdrRead a
  | true, true => .hdrReadBurst a
  | false, false => .hdrWrite a
  | false, true => .hdrBurstWrite a

/-- The row of a header: the rows that fix the whole byte first, a strobe only when it is sent alone
(30_encoding.md R113; log entry 19). DESIGN CHOICE (log entry 19): where configured addresses coincide (00_scope.md R9),
the first row wins in the order strobes, where the header is alone, FIFO, status registers; so a lone header whose
strobe code equals the FIFO base is the strobe. -/
def decodeHeader (m : ChipAddresses) (lone : Bool) (h : Byte) : Instr :=
  match (if lone then (strobeTable m).lookup h else none) with
  | some i => i
  | none =>
    match (fifoTable m ++ statusTable m).lookup h with
    | some i => i
    | none => decodeForm m h

/-- The instruction of a transfer's bytes, its header first (30_encoding.md R115). -/
def decodeFrame (m : ChipAddresses) : List Byte → Except DecodeError Instr
  | [] => .error .emptyFrame
  | [h] => .ok (decodeHeader m true h)
  | h :: _ :: _ => .ok (decodeHeader m false h)

/-- The instruction of one 8-bit word at its port. -/
def decodeIn (m : ChipAddresses) : Port → Byte → Except DecodeError Instr
  | .command, w => decodeCommand w
  | .lone, w => .ok (decodeHeader m true w)
  | .frame, w => .ok (decodeHeader m false w)

/-! The chip of the spec's tables. -/

/-- The configuration register addresses (20_memory.md R76). -/
def defaultConfigBases : ConfigBases where
  iocfg2 := 0x00#6
  iocfg1 := 0x01#6
  iocfg0 := 0x02#6
  fifothr := 0x03#6
  sync1 := 0x04#6
  sync0 := 0x05#6
  pktlen := 0x06#6
  pktctrl1 := 0x07#6
  pktctrl0 := 0x08#6
  addr := 0x09#6
  channr := 0x0A#6
  fsctrl1 := 0x0B#6
  fsctrl0 := 0x0C#6
  freq2 := 0x0D#6
  freq1 := 0x0E#6
  freq0 := 0x0F#6
  mdmcfg4 := 0x10#6
  mdmcfg3 := 0x11#6
  mdmcfg2 := 0x12#6
  mdmcfg1 := 0x13#6
  mdmcfg0 := 0x14#6
  deviatn := 0x15#6
  mcsm2 := 0x16#6
  mcsm1 := 0x17#6
  mcsm0 := 0x18#6
  foccfg := 0x19#6
  bscfg := 0x1A#6
  agcctrl2 := 0x1B#6
  agcctrl1 := 0x1C#6
  agcctrl0 := 0x1D#6
  worevt1 := 0x1E#6
  worevt0 := 0x1F#6
  worctrl := 0x20#6
  frend1 := 0x21#6
  frend0 := 0x22#6
  fscal3 := 0x23#6
  fscal2 := 0x24#6
  fscal1 := 0x25#6
  fscal0 := 0x26#6
  rcctrl1 := 0x27#6
  rcctrl0 := 0x28#6
  fstest := 0x29#6
  ptest := 0x2A#6
  agctest := 0x2B#6
  test2 := 0x2C#6
  test1 := 0x2D#6
  test0 := 0x2E#6

/-- The status register addresses (20_memory.md R78). -/
def defaultStatusBases : StatusBases where
  partnum := 0x30#6
  version := 0x31#6
  freqest := 0x32#6
  lqi := 0x33#6
  rssi := 0x34#6
  marcstate := 0x35#6
  wortime1 := 0x36#6
  wortime0 := 0x37#6
  pktstatus := 0x38#6
  vcoVcDac := 0x39#6
  txbytes := 0x3A#6
  rxbytes := 0x3B#6
  rcctrl1Status := 0x3C#6
  rcctrl0Status := 0x3D#6

/-- The strobe codes (20_memory.md R77). -/
def defaultStrobeCodes : StrobeCodes where
  sres := 0x30#6
  sfstxon := 0x31#6
  sxoff := 0x32#6
  scal := 0x33#6
  srx := 0x34#6
  stx := 0x35#6
  sidle := 0x36#6
  swor := 0x38#6
  spwd := 0x39#6
  sfrx := 0x3A#6
  sftx := 0x3B#6
  sworrst := 0x3C#6
  snop := 0x3D#6

/-- The addresses of the chip as the spec gives them: the read bit in bit 7, the burst bit in bit 6
(30_encoding.md R110), the tables of 20_memory.md R76 to R78, PATABLE at 0x3E (R75) and the FIFO at 0x3F (R79). The
rows of spec/opcode_table.json are the words for this chip. -/
def defaultChip : ChipAddresses where
  bits := .read7Burst6
  config := defaultConfigBases
  status := defaultStatusBases
  strobes := defaultStrobeCodes
  patable := 0x3E#6
  fifo := 0x3F#6

/-- The instruction of one 8-bit word of spec/opcode_table.json at its port. -/
def decode : Port → Byte → Except DecodeError Instr := decodeIn defaultChip

/-- The 8-bit word of an instruction, from the encoding column of spec/opcode_table.json: an opcode, or the header
byte for the chip of the spec's tables. -/
def encode : Instr → Byte
  | .rdreg => 0x01#8
  | .wrreg => 0x02#8
  | .strobe => 0x03#8
  | .rdfifo => 0x04#8
  | .wrburst => 0x05#8
  | .modreg => 0x06#8
  | .setfreq => 0x10#8
  | .setdev => 0x11#8
  | .setdrate => 0x12#8
  | .setchanbw => 0x13#8
  | .setsync => 0x14#8
  | .setmod => 0x15#8
  | .setaddrfilt => 0x16#8
  | .setpktlen => 0x17#8
  | .setdefaults => 0x18#8
  | .goidle => 0x20#8
  | .gorx => 0x21#8
  | .gotx => 0x22#8
  | .receive => 0x30#8
  | .transmit => 0x31#8
  | .hwinfo => 0x40#8
  | .rssi => 0x41#8
  | .lqi => 0x42#8
  | .hdrRead a => 0x80#8 ||| a.setWidth 8
  | .hdrReadBurst a => 0xC0#8 ||| a.setWidth 8
  | .hdrWrite a => 0x00#8 ||| a.setWidth 8
  | .hdrBurstWrite a => 0x40#8 ||| a.setWidth 8
  | .fifoSingleRead => 0xBF#8
  | .fifoSingleWrite => 0x3F#8
  | .fifoBurstRead => 0xFF#8
  | .fifoBurstWrite => 0x7F#8
  | .sres => 0x30#8
  | .sfstxon => 0x31#8
  | .sxoff => 0x32#8
  | .scal => 0x33#8
  | .srx => 0x34#8
  | .stx => 0x35#8
  | .sidle => 0x36#8
  | .swor => 0x38#8
  | .spwd => 0x39#8
  | .sfrx => 0x3A#8
  | .sftx => 0x3B#8
  | .sworrst => 0x3C#8
  | .snop => 0x3D#8
  | .rdPartnum => 0xF0#8
  | .rdVersion => 0xF1#8
  | .rdFreqest => 0xF2#8
  | .rdLqiReg => 0xF3#8
  | .rdRssiReg => 0xF4#8
  | .rdMarcstate => 0xF5#8
  | .rdWortime1 => 0xF6#8
  | .rdWortime0 => 0xF7#8
  | .rdPktstatus => 0xF8#8
  | .rdVcoVcDac => 0xF9#8
  | .rdTxbytes => 0xFA#8
  | .rdRxbytes => 0xFB#8
  | .rdRcctrl1Status => 0xFC#8
  | .rdRcctrl0Status => 0xFD#8

/-- The 8-bit word of an instruction for the chip's addresses as configured (00_scope.md R9): an opcode, which no
parameter touches, or a header (30_encoding.md R110 to R113). -/
def encodeIn (m : ChipAddresses) : Instr → Byte
  | .hdrRead a => headerByte m.bits true false a
  | .hdrReadBurst a => headerByte m.bits true true a
  | .hdrWrite a => headerByte m.bits false false a
  | .hdrBurstWrite a => headerByte m.bits false true a
  | .fifoSingleRead => headerByte m.bits true false m.fifo
  | .fifoSingleWrite => headerByte m.bits false false m.fifo
  | .fifoBurstRead => fifoReadHeader m
  | .fifoBurstWrite => headerByte m.bits false true m.fifo
  | .sres => headerByte m.bits false false m.strobes.sres
  | .sfstxon => headerByte m.bits false false m.strobes.sfstxon
  | .sxoff => headerByte m.bits false false m.strobes.sxoff
  | .scal => headerByte m.bits false false m.strobes.scal
  | .srx => headerByte m.bits false false m.strobes.srx
  | .stx => headerByte m.bits false false m.strobes.stx
  | .sidle => headerByte m.bits false false m.strobes.sidle
  | .swor => headerByte m.bits false false m.strobes.swor
  | .spwd => headerByte m.bits false false m.strobes.spwd
  | .sfrx => headerByte m.bits false false m.strobes.sfrx
  | .sftx => headerByte m.bits false false m.strobes.sftx
  | .sworrst => headerByte m.bits false false m.strobes.sworrst
  | .snop => headerByte m.bits false false m.strobes.snop
  | .rdPartnum => headerByte m.bits true true m.status.partnum
  | .rdVersion => headerByte m.bits true true m.status.version
  | .rdFreqest => headerByte m.bits true true m.status.freqest
  | .rdLqiReg => headerByte m.bits true true m.status.lqi
  | .rdRssiReg => headerByte m.bits true true m.status.rssi
  | .rdMarcstate => headerByte m.bits true true m.status.marcstate
  | .rdWortime1 => headerByte m.bits true true m.status.wortime1
  | .rdWortime0 => headerByte m.bits true true m.status.wortime0
  | .rdPktstatus => headerByte m.bits true true m.status.pktstatus
  | .rdVcoVcDac => headerByte m.bits true true m.status.vcoVcDac
  | .rdTxbytes => headerByte m.bits true true m.status.txbytes
  | .rdRxbytes => headerByte m.bits true true m.status.rxbytes
  | .rdRcctrl1Status => headerByte m.bits true true m.status.rcctrl1Status
  | .rdRcctrl0Status => headerByte m.bits true true m.status.rcctrl0Status
  | .rdreg => encode .rdreg
  | .wrreg => encode .wrreg
  | .strobe => encode .strobe
  | .rdfifo => encode .rdfifo
  | .wrburst => encode .wrburst
  | .modreg => encode .modreg
  | .setfreq => encode .setfreq
  | .setdev => encode .setdev
  | .setdrate => encode .setdrate
  | .setchanbw => encode .setchanbw
  | .setsync => encode .setsync
  | .setmod => encode .setmod
  | .setaddrfilt => encode .setaddrfilt
  | .setpktlen => encode .setpktlen
  | .setdefaults => encode .setdefaults
  | .goidle => encode .goidle
  | .gorx => encode .gorx
  | .gotx => encode .gotx
  | .receive => encode .receive
  | .transmit => encode .transmit
  | .hwinfo => encode .hwinfo
  | .rssi => encode .rssi
  | .lqi => encode .lqi

/-- The port at which an instruction's word stands. -/
def Instr.port (i : Instr) : Port :=
  if i.isCommand then .command else if i.isStrobe then .lone else .frame

/-- The instruction of a word of the opcode table. Commands and headers are two encoding spaces of the same
eight bits (log entry 1): a word of the opcode map is the command, any other word the header. -/
def decodeTableWord (nbits w : Nat) : Option Instr :=
  if nbits = 8 ∧ w < 256 then
    match decodeCommand (BitVec.ofNat 8 w) with
    | .ok i => some i
    | .error _ => some (decodeHeader defaultChip true (BitVec.ofNat 8 w))
  else none

end Sys2Proof
end

