-- ==== Sys2Proof/Machine/Codec.lean ====
section
/-! DEFINITION. The pure functions: field codecs (41_field_codecs.md R170 to R174), the fixed-point codec
(42_numeric_conversion.md R210 to R219) and the RSSI conversion (46_readout.md R323). Codec arithmetic is on
unbounded integers (00_scope.md R11). -/

namespace Sys2Proof.Machine

/-- A field (off, w) of an 8-bit register (41_field_codecs.md R170). -/
structure Field where
  off : Nat
  w : Nat
  deriving DecidableEq, Repr

/-- `1 <= w` and `off + w <= 8` (41_field_codecs.md R170). -/
abbrev fieldOk (f : Field) : Prop := 1 ≤ f.w ∧ f.off + f.w ≤ 8

/-- The two fields share no bit. -/
abbrev fieldsDisjoint (f g : Field) : Prop := f.off + f.w ≤ g.off ∨ g.off + g.w ≤ f.off

/-- `M(f)` (41_field_codecs.md R170). -/
def fieldMask (f : Field) : Byte := BitVec.ofNat 8 ((1 <<< f.w - 1) <<< f.off)

/-- `extract(raw, f)` (41_field_codecs.md R170). -/
def fieldExtract (raw : Byte) (f : Field) : Byte := (raw >>> f.off) &&& BitVec.ofNat 8 (1 <<< f.w - 1)

/-- `insert(raw, f, v)` (41_field_codecs.md R171). -/
def fieldInsert (raw : Byte) (f : Field) (v : Nat) : Byte :=
  (raw &&& ~~~fieldMask f) ||| (BitVec.ofNat 8 (v <<< f.off) &&& fieldMask f)

/-- `build(d, [(f1, v1), ...])` (41_field_codecs.md R172). -/
def fieldBuild (d : Byte) (fs : List (Field × Nat)) : Byte :=
  fs.foldl (fun raw fv => fieldInsert raw fv.1 fv.2) d

/-- The mask of a read-modify-write of several fields (41_field_codecs.md R174). -/
def rmwMask (fs : List (Field × Nat)) : Byte :=
  fs.foldl (fun m fv => m ||| fieldMask fv.1) 0#8

/-- The value of a read-modify-write of several fields, each cut to its width (41_field_codecs.md R174). -/
def rmwValue (fs : List (Field × Nat)) : Byte :=
  fs.foldl (fun x fv => x ||| (BitVec.ofNat 8 (fv.2 <<< fv.1.off) &&& fieldMask fv.1)) 0#8

/-- `new` of MODIFY_REG (40_bus_transactions.md R147). -/
def modifyByte (old mask value : Byte) : Byte := (old &&& ~~~mask) ||| (value &&& mask)

/-- `rnd(a, b)`: the integer nearest to a/b, an exact half going up (42_numeric_conversion.md R211). -/
def rnd (a b : Nat) : Nat := (2 * a + b) / (2 * b)

/-- `enc_freq` (42_numeric_conversion.md R212). -/
def encFreq (hz : Nat) : Nat := rnd (hz * 2 ^ 16) Config.fxoscHz

/-- `dec_freq` (42_numeric_conversion.md R213). -/
def decFreq (r : Nat) : Nat := r * Config.fxoscHz / 2 ^ 16

/-- The search of 42_numeric_conversion.md R214 and R216: the first of the exponents at which the nearest
encoded value `rnd (x, F * 2^e)` is at most `top`, with its mantissa above `base`. -/
def encSearch (x base top : Nat) : List Nat → Option (Nat × Nat)
  | [] => none
  | e :: es =>
    let t := rnd x (Config.fxoscHz * 2 ^ e)
    if t ≤ top then some (t - base, e) else encSearch x base top es

/-- `enc_drate`: (mantissa, exponent) (42_numeric_conversion.md R214). -/
def encDrate (baud : Nat) : Nat × Nat :=
  (encSearch (baud * 2 ^ 28) 256 511 (List.range 16)).getD (255, 15)

/-- `dec_drate` (42_numeric_conversion.md R215). -/
def decDrate (m e : Nat) : Nat := (256 + m) * 2 ^ e * Config.fxoscHz / 2 ^ 28

/-- `enc_dev`: (mantissa, exponent) (42_numeric_conversion.md R216). -/
def encDev (dev : Nat) : Nat × Nat :=
  (encSearch (dev * 2 ^ 17) 8 15 (List.range 8)).getD (7, 7)

/-- `dec_dev` (42_numeric_conversion.md R217). -/
def decDev (m e : Nat) : Nat := (8 + m) * 2 ^ e * Config.fxoscHz / 2 ^ 17

/-- The search of 42_numeric_conversion.md R218 over the settings k = 4e + m, narrowest first: `n` is the
number of settings still to try. -/
def chanbwSearch (bw : Nat) : Nat → Nat × Nat
  | 0 => (0, 0)
  | k + 1 =>
    if bw * 8 * (4 + k % 4) * 2 ^ (k / 4) ≤ Config.fxoscHz then (k % 4, k / 4) else chanbwSearch bw k

/-- `enc_chanbw`: (mantissa, exponent) (42_numeric_conversion.md R218). -/
def encChanbw (bw : Nat) : Nat × Nat := chanbwSearch bw 16

/-- `dec_chanbw` (42_numeric_conversion.md R219). -/
def decChanbw (m e : Nat) : Nat := Config.fxoscHz / (8 * (4 + m) * 2 ^ e)

/-- `rssi_to_dbm` (46_readout.md R323): truncation toward zero, then the offset. -/
def rssiToDbm (offset : Int) (r : Byte) : Int :=
  if 128 ≤ r.toNat then ((r.toNat : Int) - 256).tdiv 2 - offset else (r.toNat : Int).tdiv 2 - offset

end Sys2Proof.Machine
end

