-- ==== Sys2Proof/Machine/ChipMap.lean ====
section
/-! DEFINITION. What the spec supplies of the chip beyond its addresses: the tables of its locations by name
(20_memory.md R75 to R79), the field layouts and selector codes (41_field_codecs.md R175 to R190), which the model
takes as constants (log entry 7), and the default parameters of 00_scope.md R9. -/

namespace Sys2Proof.Machine

/-- DUMMY_BYTE (40_bus_transactions.md R142). -/
def dummyByte : Byte := 0x00#8

/-- The configuration registers by name (20_memory.md R76): the first sixteen. -/
def configRegisters0 (m : ChipAddresses) : List (String × Base) := [
   ("IOCFG2", m.config.iocfg2), ("IOCFG1", m.config.iocfg1), ("IOCFG0", m.config.iocfg0),
   ("FIFOTHR", m.config.fifothr), ("SYNC1", m.config.sync1), ("SYNC0", m.config.sync0),
   ("PKTLEN", m.config.pktlen), ("PKTCTRL1", m.config.pktctrl1), ("PKTCTRL0", m.config.pktctrl0),
   ("ADDR", m.config.addr), ("CHANNR", m.config.channr), ("FSCTRL1", m.config.fsctrl1),
   ("FSCTRL0", m.config.fsctrl0), ("FREQ2", m.config.freq2), ("FREQ1", m.config.freq1),
   ("FREQ0", m.config.freq0)]

/-- The configuration registers by name (20_memory.md R76): the second sixteen. -/
def configRegisters1 (m : ChipAddresses) : List (String × Base) := [
   ("MDMCFG4", m.config.mdmcfg4), ("MDMCFG3", m.config.mdmcfg3), ("MDMCFG2", m.config.mdmcfg2),
   ("MDMCFG1", m.config.mdmcfg1), ("MDMCFG0", m.config.mdmcfg0), ("DEVIATN", m.config.deviatn),
   ("MCSM2", m.config.mcsm2), ("MCSM1", m.config.mcsm1), ("MCSM0", m.config.mcsm0), ("FOCCFG", m.config.foccfg),
   ("BSCFG", m.config.bscfg), ("AGCCTRL2", m.config.agcctrl2), ("AGCCTRL1", m.config.agcctrl1),
   ("AGCCTRL0", m.config.agcctrl0), ("WOREVT1", m.config.worevt1), ("WOREVT0", m.config.worevt0)]

/-- The configuration registers by name (20_memory.md R76): the last fifteen. -/
def configRegisters2 (m : ChipAddresses) : List (String × Base) := [
   ("WORCTRL", m.config.worctrl), ("FREND1", m.config.frend1), ("FREND0", m.config.frend0),
   ("FSCAL3", m.config.fscal3), ("FSCAL2", m.config.fscal2), ("FSCAL1", m.config.fscal1),
   ("FSCAL0", m.config.fscal0), ("RCCTRL1", m.config.rcctrl1), ("RCCTRL0", m.config.rcctrl0),
   ("FSTEST", m.config.fstest), ("PTEST", m.config.ptest), ("AGCTEST", m.config.agctest),
   ("TEST2", m.config.test2), ("TEST1", m.config.test1), ("TEST0", m.config.test0)]

/-- The configuration registers by name (20_memory.md R76). -/
def configRegisters (m : ChipAddresses) : List (String × Base) :=
  configRegisters0 m ++ configRegisters1 m ++ configRegisters2 m

/-- The status registers by name (20_memory.md R78). -/
def statusRegisters (m : ChipAddresses) : List (String × Base) := [
   ("PARTNUM", m.status.partnum), ("VERSION", m.status.version), ("FREQEST", m.status.freqest),
   ("LQI", m.status.lqi), ("RSSI", m.status.rssi), ("MARCSTATE", m.status.marcstate),
   ("WORTIME1", m.status.wortime1), ("WORTIME0", m.status.wortime0), ("PKTSTATUS", m.status.pktstatus),
   ("VCO_VC_DAC", m.status.vcoVcDac), ("TXBYTES", m.status.txbytes), ("RXBYTES", m.status.rxbytes),
   ("RCCTRL1_STATUS", m.status.rcctrl1Status), ("RCCTRL0_STATUS", m.status.rcctrl0Status)]

/-- The strobes by name (20_memory.md R77). -/
def strobeCodes (m : ChipAddresses) : List (String × Base) := [
   ("SRES", m.strobes.sres), ("SFSTXON", m.strobes.sfstxon), ("SXOFF", m.strobes.sxoff),
   ("SCAL", m.strobes.scal), ("SRX", m.strobes.srx), ("STX", m.strobes.stx), ("SIDLE", m.strobes.sidle),
   ("SWOR", m.strobes.swor), ("SPWD", m.strobes.spwd), ("SFRX", m.strobes.sfrx), ("SFTX", m.strobes.sftx),
   ("SWORRST", m.strobes.sworrst), ("SNOP", m.strobes.snop)]

/-- The two FIFOs behind the FIFO base (20_memory.md R75). -/
inductive FifoSide where
  /-- The TX FIFO, which write forms reach. -/
  | tx
  /-- The RX FIFO, which read forms reach. -/
  | rx
  deriving DecidableEq, Repr

/-- The categories of chip locations (20_memory.md R75). -/
inductive ChipCategory where
  | configuration
  | unused
  | status
  | strobe
  | patable
  | fifo (side : FifoSide)
  deriving DecidableEq, Repr

/-- Write forms of the FIFO base reach the TX FIFO and read forms the RX FIFO, whatever the burst bit (20_memory.md
R75). -/
def fifoSide (m : ChipAddresses) (h : Byte) : FifoSide := if isRead m.bits h then .rx else .tx

/-- What a header reaches on the chip, by its base, read bit and burst bit (20_memory.md R75): on a base of a status
register or of a strobe, the status register where both bits are set and a strobe in any other form. Where configured
bases coincide, the order FIFO, PATABLE, configuration, status or strobe is the model's choice (log entry 19). -/
def chipCategory (m : ChipAddresses) (h : Byte) : ChipCategory :=
  let a : Base := h.setWidth 6
  if a = m.fifo then .fifo (fifoSide m h)
  else if a = m.patable then .patable
  else if ((configRegisters m).map Prod.snd).contains a then .configuration
  else if ((statusRegisters m ++ strobeCodes m).map Prod.snd).contains a then
    if isRead m.bits h && isBurst m.bits h then .status else .strobe
  else .unused

/-- PKTCTRL1.ADR_CHK (41_field_codecs.md R178). -/
def fieldAdrChk : Field := ⟨0, 2⟩
/-- PKTCTRL0.LENGTH_CONFIG (41_field_codecs.md R179). -/
def fieldLengthConfig : Field := ⟨0, 2⟩
/-- MDMCFG4.CHANBW_E (41_field_codecs.md R182). -/
def fieldChanbwE : Field := ⟨6, 2⟩
/-- MDMCFG4.CHANBW_M (41_field_codecs.md R182). -/
def fieldChanbwM : Field := ⟨4, 2⟩
/-- MDMCFG4.DRATE_E (41_field_codecs.md R182). -/
def fieldDrateE : Field := ⟨0, 4⟩
/-- MDMCFG3.DRATE_M (41_field_codecs.md R182). -/
def fieldDrateM : Field := ⟨0, 8⟩
/-- MDMCFG2.MOD_FORMAT (41_field_codecs.md R183). -/
def fieldModFormat : Field := ⟨4, 3⟩
/-- MDMCFG2.SYNC_MODE (41_field_codecs.md R183). -/
def fieldSyncMode : Field := ⟨0, 3⟩
/-- DEVIATN.DEVIATION_E (41_field_codecs.md R184). -/
def fieldDeviationE : Field := ⟨4, 3⟩
/-- DEVIATN.DEVIATION_M (41_field_codecs.md R184). -/
def fieldDeviationM : Field := ⟨0, 3⟩
/-- LQI.CRC_OK (41_field_codecs.md R190). -/
def fieldCrcOk : Field := ⟨7, 1⟩
/-- LQI.LQI_EST (41_field_codecs.md R190). -/
def fieldLqiEst : Field := ⟨0, 7⟩
/-- RXBYTES.RXFIFO_OVERFLOW (41_field_codecs.md R190). -/
def fieldRxOverflow : Field := ⟨7, 1⟩
/-- RXBYTES.NUM_RXBYTES (41_field_codecs.md R190). -/
def fieldNumRxbytes : Field := ⟨0, 7⟩

/-- The layouts of the configuration registers that the block writes (41_field_codecs.md R175, R178, R179,
R182 to R184), the reserved bits left out. IOCFG2 has the layout of IOCFG0 with bit 7 reserved, and IOCFG1 has GDO_DS
there (R175). -/
def chipLayouts (m : ChipAddresses) : List (Base × List (String × Field)) := [
   (m.config.iocfg2, [("GDO2_INV", ⟨6, 1⟩), ("GDO2_CFG", ⟨0, 6⟩)]),
   (m.config.iocfg1, [("GDO_DS", ⟨7, 1⟩), ("GDO1_INV", ⟨6, 1⟩), ("GDO1_CFG", ⟨0, 6⟩)]),
   (m.config.iocfg0, [("TEMP_SENSOR_ENABLE", ⟨7, 1⟩), ("GDO0_INV", ⟨6, 1⟩), ("GDO0_CFG", ⟨0, 6⟩)]),
   (m.config.pktctrl1, [("PQT", ⟨5, 3⟩), ("CRC_AUTOFLUSH", ⟨3, 1⟩), ("APPEND_STATUS", ⟨2, 1⟩),
     ("ADR_CHK", fieldAdrChk)]),
   (m.config.pktctrl0, [("WHITE_DATA", ⟨6, 1⟩), ("PKT_FORMAT", ⟨4, 2⟩), ("CRC_EN", ⟨2, 1⟩),
     ("LENGTH_CONFIG", fieldLengthConfig)]),
   (m.config.mdmcfg4, [("CHANBW_E", fieldChanbwE), ("CHANBW_M", fieldChanbwM), ("DRATE_E", fieldDrateE)]),
   (m.config.mdmcfg3, [("DRATE_M", fieldDrateM)]),
   (m.config.mdmcfg2, [("DEM_DCFILT_OFF", ⟨7, 1⟩), ("MOD_FORMAT", fieldModFormat), ("MANCHESTER_EN", ⟨3, 1⟩),
     ("SYNC_MODE", fieldSyncMode)]),
   (m.config.deviatn, [("DEVIATION_E", fieldDeviationE), ("DEVIATION_M", fieldDeviationM)])]

/-- SYNC_MODE by selector: disabled, 15/16, 30/32, 16/16 (41_field_codecs.md R185). -/
def syncModeCode (sel : BitVec 2) : Nat :=
  match sel.toNat with
  | 0 => 0
  | 1 => 1
  | 2 => 3
  | _ => 2

/-- MOD_FORMAT by selector: 2-FSK, GFSK, OOK, 4-FSK, MSK; none for 5 to 7 (41_field_codecs.md R186). -/
def modFormatCode (sel : BitVec 3) : Option Nat :=
  match sel.toNat with
  | 0 => some 0
  | 1 => some 1
  | 2 => some 3
  | 3 => some 4
  | 4 => some 7
  | _ => none

/-- ADR_CHK by selector (41_field_codecs.md R187). -/
def adrChkCode (sel : BitVec 2) : Nat :=
  match sel.toNat with
  | 0 => 0
  | 1 => 1
  | 2 => 2
  | _ => 3

/-- LENGTH_CONFIG by selector: fixed, variable, infinite; none for 3 (41_field_codecs.md R188). -/
def lengthConfigCode (sel : BitVec 2) : Option Nat :=
  match sel.toNat with
  | 0 => some 0
  | 1 => some 1
  | 2 => some 2
  | _ => none

/-- The default parameters (00_scope.md R9). BASELINE has no default in the spec (43_configuration.md R248):
the empty list is the model's choice (log entry 6). -/
def defaultParams : Params where
  chip := defaultChip
  reportLengthError := false
  marcIdle := 0x01#5
  marcRx := 0x0D#5
  marcTx := 0x13#5
  marcMask := 0x1F#8
  defDeviatn := 0x47#8
  defMdmcfg3 := 0x22#8
  defSync1 := 0xD3#8
  defSync0 := 0x91#8
  defAddr := 0x00#8
  defPktlen := 0xFF#8
  gdoIocfg := defaultChip.config.iocfg0
  gdoCfgSync := 0x06#6
  gdoCfgEop := 0x06#6
  rssiOffset := 74
  baseline := []
  csActiveLevel := false

end Sys2Proof.Machine
end

