-- ==== Sys2Proof/Machine/State.lean ====
section
/-! DEFINITION. The state of the block (10_state.md), as plain data, and the state after reset. -/

namespace Sys2Proof.Machine

/-- The result codes of STATUS.RESULT (60_exceptions.md R330); codes 8 to 15 are never raised. -/
inductive Result where
  | ok
  | rxOverflow
  | crcMismatch
  | transportFault
  | lineFault
  | illegalCommand
  | badOperand
  | lengthOutOfRange
  deriving DecidableEq, Repr

/-- The record of the chip-select line (10_state.md R40). -/
inductive Cs where
  | deselected
  | selected
  | unknown
  deriving DecidableEq, Repr

/-- The bus primitives (00_scope.md R13, 40_bus_transactions.md R140). -/
inductive Prim where
  | csSelect
  | csDeselect
  | xfer (tx : List Byte)
  | wr (tx : List Byte)
  | lineRead
  deriving DecidableEq, Repr

/-- How the environment answered a primitive: nothing, the bytes clocked back, the line's level, or a failure
with its error payload (00_scope.md R13). -/
inductive Reply where
  | done
  | bytes (rx : List Byte)
  | level (b : Bool)
  | fail (payload : Nat)
  deriving DecidableEq, Repr

/-- One answer of the environment still to come (00_scope.md R8; log entry 4). Only the part that the
primitive asks for is used. -/
structure Answer where
  /-- The error payload, if the primitive fails. -/
  failure : Option Nat
  /-- What an Xfer clocks back, position for position. -/
  bytes : List Byte
  /-- The level a LineRead returns. -/
  level : Bool
  deriving DecidableEq, Repr

/-- The logical radio states (44_radio_state_machine.md R270). -/
inductive Radio where
  | idle
  | rx
  | tx
  deriving DecidableEq, Repr

/-- The sequencer's subroutines (00_scope.md R14) and the tests between their transactions. -/
inductive Call where
  /-- READ_REG (40_bus_transactions.md R142). -/
  | readReg (id : BitVec 7)
  /-- WRITE_REG (R143). -/
  | writeReg (a : Base) (v : Byte)
  /-- STROBE (R144). -/
  | strobe (c : Base)
  /-- READ_FIFO (R145). -/
  | readFifo (n : Nat)
  /-- WRITE_BURST (R146). -/
  | writeBurst (a : Base) (bytes : List Byte)
  /-- MODIFY_REG (R147). -/
  | modifyReg (a : Base) (mask value : Byte)
  /-- The second half of MODIFY_REG: the insert into the byte just read, then WRITE_REG (R147). -/
  | modifyWrite (a : Base) (mask value : Byte)
  /-- AWAIT_STATE (44_radio_state_machine.md R271). -/
  | awaitState (code : BitVec 5)
  /-- The comparison of AWAIT_STATE, after its read (R271). -/
  | awaitTest (code : BitVec 5)
  /-- GOTO (44_radio_state_machine.md R272). -/
  | goTo (target : Radio)
  /-- WAIT_RX_BYTES (45_packet_protocol.md R292). -/
  | waitRxBytes
  /-- The tests of WAIT_RX_BYTES, after its read (R292). -/
  | rxTest
  /-- `raise RxOverflow()`, after the SFRX strobe (R292, R293). -/
  | rxOverflow
  /-- A line wait of TRANSMIT: until LineRead returns this level (45_packet_protocol.md R301). -/
  | lineWait (level : Bool)
  deriving DecidableEq, Repr

/-- Where a transaction's frame stands (30_encoding.md R115): the primitive it issues next. -/
inductive Stage where
  /-- CsSelect is next. -/
  | select
  /-- The transfer that begins with the header is next. -/
  | send
  /-- The second Xfer of READ_FIFO is next, in the same assertion (40_bus_transactions.md R145). -/
  | more
  /-- CsDeselect is next. -/
  | deselect
  deriving DecidableEq, Repr

/-- An open transaction (30_encoding.md R115). -/
structure Txn where
  /-- The header byte. -/
  hdr : Byte
  /-- The data or dummy bytes that follow the header in the same transfer. -/
  data : List Byte
  /-- The dummy bytes of the second Xfer of READ_FIFO; 0 where there is none. -/
  more : Nat
  /-- The primitive that comes next. -/
  stage : Stage
  deriving DecidableEq, Repr

/-- The position of a running command in its pseudocode (10_state.md R36), with the pseudocode's variables. -/
structure Position where
  /-- The place in the command's own pseudocode: how many of its blocks have run. -/
  k : Nat
  /-- The subroutine calls to make before the pseudocode goes on, next first. -/
  calls : List Call
  /-- The open transaction. -/
  txn : Option Txn
  /-- `rx`: what the last header transfer clocked back (40_bus_transactions.md R142, R145). -/
  rx : List Byte
  /-- `payload`: what the second Xfer of READ_FIFO clocked back (R145). -/
  payload : List Byte
  /-- `old` of MODIFY_REG (R147). -/
  old : Byte
  /-- `new` of MODIFY_REG (R147). -/
  new : Byte
  /-- `p` of HWINFO (46_readout.md R320). -/
  p : Byte
  /-- `q` of RECEIVE (45_packet_protocol.md R290). -/
  q : Byte
  deriving DecidableEq, Repr

/-- `start` of 30_encoding.md R101: no block of the pseudocode has run. -/
def Position.start : Position :=
  { k := 0, calls := [], txn := none, rx := [], payload := [], old := 0#8, new := 0#8, p := 0#8, q := 0#8 }

/-- The sequencer phase (10_state.md R36). The op of Running(op, k) is CMD[7:0], which cannot change while
BUSY = 1 (R37), and is not stored twice (log entry 21). -/
inductive Phase where
  | ready
  | running (pos : Position)
  deriving DecidableEq, Repr

/-- What the world outside the block does next (00_scope.md R6; log entry 3). -/
inductive Input where
  /-- The host leaves the sequencer one step. -/
  | turn
  /-- A host read: byte offset and width in bits (20_memory.md R71). -/
  | hostRead (offset width : Nat)
  /-- A host write: byte offset, width in bits, value (20_memory.md R71). -/
  | hostWrite (offset width : Nat) (value : Word)
  /-- Block reset (70_reset_and_hazards.md R360). -/
  | blockReset
  deriving DecidableEq, Repr

/-- BUF and FRAME: (index, byte) pairs with indexes rising; an index not listed has not been written since
reset and has no value of its own (log entry 5). -/
abbrev Memory := List Host.Cell

/-- The state. -/
structure State where
  /-- CMD.OPCODE (10_state.md R31). -/
  cmd : Byte
  /-- ARG0 (R32). -/
  arg0 : Word
  /-- ARG1 (R32). -/
  arg1 : Word
  /-- RES0 (R33). -/
  res0 : Word
  /-- RES1 (R33). -/
  res1 : Word
  /-- RES2 (R33). -/
  res2 : Word
  /-- STATUS.DONE (R34). -/
  done : Bool
  /-- STATUS.RESULT (R34). -/
  result : Result
  /-- STATUS.FAULT_SEEN (R34). -/
  faultSeen : Bool
  /-- STATUS.DROP (R34). -/
  drop : Bool
  /-- ERRINFO (R35). -/
  errinfo : Word
  /-- BUF (R38). -/
  buf : Memory
  /-- FRAME (R39). -/
  frame : Memory
  /-- cs (R40). -/
  cs : Cs
  /-- phase (R36). -/
  phase : Phase
  /-- last_count (R41). -/
  lastCount : BitVec 7
  /-- The parameters (00_scope.md R9; log entry 6). -/
  par : Params
  /-- MODEL'S OWN: what the outside does next, oldest first (log entry 3). -/
  inputs : List Input
  /-- MODEL'S OWN: the environment's answers to come, oldest first (log entry 4). -/
  answers : List Answer
  /-- MODEL'S OWN: how many primitives have been issued, the argument of the free answers (log entry 4). -/
  draws : Nat
  /-- MODEL'S OWN: how many reads of BUF or FRAME there were, the argument of the free bytes (log entry 5). -/
  memDraws : Nat
  /-- MODEL'S OWN: the primitives issued and their answers, oldest first (60_exceptions.md R351). -/
  trace : List (Prim × Reply)
  /-- MODEL'S OWN: the words host reads returned, oldest first (log entry 15). -/
  hostReads : List Word
  deriving DecidableEq, Repr

/-- The state right after block reset (70_reset_and_hazards.md R360, R361), with the default parameters and
nothing in the lists of the model's own. -/
def State.reset : State where
  cmd := 0#8
  arg0 := 0#32
  arg1 := 0#32
  res0 := 0#32
  res1 := 0#32
  res2 := 0#32
  done := false
  result := .ok
  faultSeen := false
  drop := false
  errinfo := 0#32
  buf := []
  frame := []
  cs := .deselected
  phase := .ready
  lastCount := 0#7
  par := defaultParams
  inputs := []
  answers := []
  draws := 0
  memDraws := 0
  trace := []
  hostReads := []

/-- Why the machine stops with a fault. No result code of the block is one of these (60_exceptions.md R353).
Each is raised by a meaning that is asked for at a position that is not its own, which no step does
(log entry 12); all are safe. -/
inductive Fault where
  /-- Raised by every meaning while the phase is Ready: there is no command to go on with. Safe. -/
  | notRunning
  /-- Raised by a command's meaning while a transaction is open: the frame's row runs then. Safe. -/
  | transactionOpen
  /-- Raised by a wire row's meaning while no transaction is open: there is no frame to go on with. Safe. -/
  | noTransaction
  deriving DecidableEq, Repr

/-- Why there is no step. -/
inductive Refusal where
  /-- Raised by an arm of exec that has no meaning yet. Safe. -/
  | notModelled (mnemonic : String)
  /-- Raised by a host access outside the host map, misaligned, or not 32 bits wide (20_memory.md R71,
  60_exceptions.md R353, 93_implementation_defined.md I6). Safe. -/
  | undefinedHostAccess (offset width : Nat)
  deriving DecidableEq, Repr

/-- The outcome of a step of the block. -/
abbrev Out := Host.Outcome State Fault Refusal

end Sys2Proof.Machine
end

