-- ==== Sys2Proof/Machine/Flags.lean ====
section
/-! DEFINITION. The flags and codes: STATUS (10_state.md R34, R44), the result codes (60_exceptions.md R330),
the chip flags a command tests (41_field_codecs.md R190), and the chip-select line (10_state.md R40). -/

namespace Sys2Proof.Machine

/-- The numeric value of a result code (60_exceptions.md R330). -/
def resultCode : Result → BitVec 4
  | .ok => 0#4
  | .rxOverflow => 1#4
  | .crcMismatch => 2#4
  | .transportFault => 3#4
  | .lineFault => 4#4
  | .illegalCommand => 5#4
  | .badOperand => 6#4
  | .lengthOutOfRange => 7#4

/-- The two results that write ERRINFO and set FAULT_SEEN (60_exceptions.md R330, R335). -/
def resultIsFault (r : Result) : Bool := r == .transportFault || r == .lineFault

/-- STATUS.BUSY: a command is running (10_state.md R34, R36). -/
def busy (s : State) : Bool := s.phase != .ready

/-- STATUS.CS_STATE (10_state.md R34). -/
def csCode : Cs → BitVec 2
  | .deselected => 0#2
  | .selected => 1#2
  | .unknown => 2#2

/-- STATUS as a host read returns it (10_state.md R34): {0 [31:12], CS_STATE, DROP, FAULT_SEEN, RESULT,
0 [3:2], DONE, BUSY}. -/
def statusWord (s : State) : Word :=
  0#20 ++ csCode s.cs ++ BitVec.ofBool s.drop ++ BitVec.ofBool s.faultSeen ++ resultCode s.result ++ 0#2 ++
    BitVec.ofBool s.done ++ BitVec.ofBool (busy s)

/-- A host write to STATUS while BUSY = 0: a 1 in bit 8 or 9 clears it, nothing else acts (10_state.md R34). -/
def statusWrite (v : Word) (s : State) : State :=
  { s with faultSeen := s.faultSeen && !v.getLsbD 8, drop := s.drop && !v.getLsbD 9 }

/-- The CRC-ok flag of an LQI byte (41_field_codecs.md R190, 45_packet_protocol.md R294). -/
def crcOk (q : Byte) : Bool := fieldExtract q fieldCrcOk == 1#8

/-- The overflow flag of an RXBYTES byte (41_field_codecs.md R190). -/
def rxOverflowFlag (v : Byte) : Bool := fieldExtract v fieldRxOverflow == 1#8

/-- The count of an RXBYTES byte (41_field_codecs.md R190). -/
def rxCount (v : Byte) : BitVec 7 := (fieldExtract v fieldNumRxbytes).setWidth 7

/-- The level of the chip-select output line that the record stands for: unknown after a failed CS primitive
(10_state.md R40; 00_scope.md R9, CS_ACTIVE_LEVEL). -/
def csLineLevel (s : State) : Option Bool :=
  match s.cs with
  | .deselected => some (!s.par.csActiveLevel)
  | .selected => some s.par.csActiveLevel
  | .unknown => none

end Sys2Proof.Machine
end

