-- ==== Sys2Proof/Machine/Ops.lean ====
section
/-! DEFINITION. The shared operations: BUF and FRAME (00_scope.md R12), completion (60_exceptions.md R335),
and the bus primitives with their failures (00_scope.md R13, 10_state.md R40). -/

namespace Sys2Proof.Machine

/-- The byte listed at an index, if any. -/
def memRead : Memory → Nat → Option Byte
  | [], _ => none
  | (c, d) :: m, a => if c = a then some d else memRead m a

/-- The list with the byte at an index put in its place in the order. -/
def memPut : Memory → Nat → Byte → Memory
  | [], a, b => [(a, b)]
  | (c, d) :: m, a, b =>
    if a < c then (a, b) :: (c, d) :: m
    else if a = c then (a, b) :: m
    else (c, d) :: memPut m a b

/-- `BUF[i] <- b`. There is no byte outside the 64 (10_state.md R38, R39). -/
def memWrite (m : Memory) (a : Nat) (b : Byte) : Memory :=
  if a < Config.bufSize then memPut m a b else m

/-- `MemWrite(i, n, v)`, n the length of the list (00_scope.md R12). -/
def memWriteList (m : Memory) (a : Nat) : List Byte → Memory
  | [] => m
  | b :: bs => memWriteList (memWrite m a b) (a + 1) bs

/-- What index `a` reads as at memory read number `draw`: the byte written there, or a free value
(10_state.md R38; log entry 5). -/
def memGet (m : Memory) (draw a : Nat) : Byte := (memRead m a).getD (Config.freeMemByte draw a)

/-- `MemRead(i, n)` at memory read number `draw` (00_scope.md R12). -/
def memBytes (m : Memory) (draw a n : Nat) : List Byte := (List.range n).map fun j => memGet m draw (a + j)

/-- The indexes rise from `lo`. -/
def memRising : Nat → Memory → Bool
  | _, [] => true
  | lo, (c, _) :: m => decide (lo ≤ c) && memRising (c + 1) m

/-- The canonical form: indexes strictly rising, all below 64. An index not listed has no value of its own,
so no entry can equal it (log entry 5). -/
def memWf (m : Memory) : Bool := memRising 0 m && m.all fun c => decide (c.1 < Config.bufSize)

/-- The state with the sequencer at a position of the running command. -/
def setPos (pos : Position) (s : State) : State := { s with phase := .running pos }

/-- `complete(r, info)`: the end of every command, in one step (60_exceptions.md R335). It is the block's
trap entry; nothing returns from it (R341). -/
def complete (r : Result) (info : Nat) (s : State) : State :=
  if resultIsFault r then
    { s with result := r, errinfo := BitVec.ofNat 32 info, faultSeen := true, done := true, phase := .ready }
  else
    { s with result := r, done := true, phase := .ready }

/-- `raise r()` without an error payload (00_scope.md R12). -/
def raise (r : Result) (s : State) : State := complete r 0 s

/-- The environment's answer to the primitive issued `j` primitives from now: the one of those to come, or
free values past their end (00_scope.md R8; log entry 4). -/
def answerAt (s : State) (j : Nat) : Answer :=
  s.answers.getD j
    { failure := Config.freeFailure (s.draws + j), bytes := [], level := Config.freeLevel (s.draws + j) }

/-- Byte `i` of what the Xfer issued `j` primitives from now clocks back (00_scope.md R13); a byte the answer
does not give is free (log entry 18). -/
def chipByte (s : State) (j i : Nat) : Byte :=
  (answerAt s j).bytes.getD i (Config.freeChipByte (s.draws + j) i)

/-- The `n` bytes that Xfer returns when it sends `n` bytes, position for position (00_scope.md R13). -/
def clockedBytes (s : State) (j n : Nat) : List Byte := (List.range n).map (chipByte s j)

/-- How the environment answers a primitive issued now (00_scope.md R13). -/
def replyTo (p : Prim) (s : State) : Reply :=
  match (answerAt s 0).failure with
  | some e => .fail e
  | none =>
    match p with
    | .xfer tx => .bytes (clockedBytes s 0 tx.length)
    | .lineRead => .level (answerAt s 0).level
    | .csSelect | .csDeselect | .wr _ => .done

/-- The state after a primitive was issued and answered: the answer is used up, the trace holds both
(60_exceptions.md R351). -/
def issued (p : Prim) (s : State) : State :=
  { s with answers := s.answers.tail, draws := s.draws + 1, trace := s.trace ++ [(p, replyTo p s)] }

/-- The result of a failed primitive: bus or line (40_bus_transactions.md R140). -/
def primFault : Prim → Result
  | .xfer _ | .wr _ => .transportFault
  | .csSelect | .csDeselect | .lineRead => .lineFault

/-- `cs` after a failed primitive (10_state.md R40, 60_exceptions.md R336). -/
def csAfterFailure (p : Prim) (cs : Cs) : Cs :=
  match p with
  | .csSelect | .csDeselect => .unknown
  | .xfer _ | .wr _ | .lineRead => cs

/-- A failed primitive ends the command at once with its error payload (60_exceptions.md R334, R336). -/
def failPrim (p : Prim) (e : Nat) (s : State) : State :=
  complete (primFault p) e { s with cs := csAfterFailure p s.cs }

/-- Issue a primitive: on failure the command ends, else `next` goes on with the reply (00_scope.md R13). -/
def primitive (p : Prim) (s : State) (next : Reply → State → State) : State :=
  match replyTo p s with
  | .fail e => failPrim p e (issued p s)
  | r => next r (issued p s)

/-- The bytes of a reply to an Xfer. -/
def replyBytes : Reply → List Byte
  | .bytes rx => rx
  | .done | .level _ | .fail _ => []

end Sys2Proof.Machine
end

