-- ==== Sys2Proof/Machine/Operands.lean ====
section
/-! DEFINITION. The operand fields of ARG0 and ARG1 (30_encoding.md R103, R106): each is the zero-extended
bit range the table names; no other bit is looked at. -/

namespace Sys2Proof.Machine

/-- ARG0[6:0]: id of RDREG. -/
def argId (s : State) : BitVec 7 := s.arg0.extractLsb' 0 7

/-- ARG0[5:0]: base of WRREG, WRBURST and MODREG, code of STROBE. -/
def argBase (s : State) : Base := s.arg0.extractLsb' 0 6

/-- ARG1[7:0]: value of WRREG, mask of MODREG, address of SETADDRFILT, N of SETPKTLEN. -/
def argLow (s : State) : Byte := s.arg1.extractLsb' 0 8

/-- ARG1[15:8]: value of MODREG, high byte of the sync word. -/
def argHigh (s : State) : Byte := s.arg1.extractLsb' 8 8

/-- ARG0[6:0]: n of RDFIFO and RECEIVE. -/
def argReadLen (s : State) : Nat := (s.arg0.extractLsb' 0 7).toNat

/-- ARG1[6:0]: n of WRBURST. -/
def argBurstLen (s : State) : Nat := (s.arg1.extractLsb' 0 7).toNat

/-- ARG0[31:0]: hz of SETFREQ, SETDEV and SETCHANBW, baud of SETDRATE. -/
def argQuantity (s : State) : Nat := s.arg0.toNat

/-- ARG0[1:0]: selector of SETSYNC, SETADDRFILT and SETPKTLEN. -/
def argSel2 (s : State) : BitVec 2 := s.arg0.extractLsb' 0 2

/-- ARG0[2:0]: selector of SETMOD. -/
def argSel3 (s : State) : BitVec 3 := s.arg0.extractLsb' 0 3

/-- ARG0[7:0]: L of TRANSMIT. -/
def argTxLen (s : State) : Nat := (s.arg0.extractLsb' 0 8).toNat

/-- The sync word's bytes, high then low: ARG1[15:0], or the default word for the selector 0
(41_field_codecs.md R185). -/
def argSyncWord (s : State) : Byte × Byte :=
  if argSel2 s = 0#2 then (s.par.defSync1, s.par.defSync0) else (argHigh s, argLow s)

/-- The address SETADDRFILT writes: ARG1[7:0], or the default for the selector 0 (41_field_codecs.md R187). -/
def argFiltAddr (s : State) : Byte := if argSel2 s = 0#2 then s.par.defAddr else argLow s

/-- The length SETPKTLEN writes: ARG1[7:0], or the default for the selector 2 (41_field_codecs.md R188). -/
def argPktLen (s : State) : Byte := if argSel2 s = 2#2 then s.par.defPktlen else argLow s

end Sys2Proof.Machine
end

