-- ==== Sys2Proof/Machine/Bus.lean ====
section
/-! DEFINITION. Transactions and subroutines: the frames of 30_encoding.md R115, one primitive a step, and
the subroutines of 00_scope.md R14 (40_bus_transactions.md R142 to R147, 44_radio_state_machine.md R271, R272,
45_packet_protocol.md R292, R293, R301). -/

namespace Sys2Proof.Machine

/-- The next primitive of an open transaction (30_encoding.md R115): CsSelect; one transfer of `tx`, by Xfer
or Wr (40_bus_transactions.md R142 to R146); a second Xfer of `more` dummy bytes where `more` is not 0 (R145);
CsDeselect. -/
def framePrimitive (duplex : Bool) (tx : List Byte) (more : Nat) (pos : Position) (t : Txn) (s : State) : State :=
  match t.stage with
  | .select =>
    primitive .csSelect s fun _ s =>
      setPos { pos with txn := some { t with stage := .send } } { s with cs := .selected }
  | .send =>
    if duplex then
      primitive (.xfer tx) s fun r s =>
        setPos { pos with rx := replyBytes r,
                          txn := some { t with stage := if more = 0 then .deselect else .more } } s
    else
      primitive (.wr tx) s fun _ s => setPos { pos with txn := some { t with stage := .deselect } } s
  | .more =>
    primitive (.xfer (List.replicate more dummyByte)) s fun r s =>
      setPos { pos with payload := replyBytes r, txn := some { t with stage := .deselect } } s
  | .deselect =>
    primitive .csDeselect s fun _ s => setPos { pos with txn := none } { s with cs := .deselected }

/-- The meaning of a wire row: the next primitive of the open transaction, its bytes and its second transfer
as the row gives them. -/
def wireStep (duplex : Bool) (tx : Txn → List Byte) (more : Txn → Nat) (s : State) : Out :=
  match s.phase with
  | .ready => .fault .notRunning
  | .running pos =>
    match pos.txn with
    | none => .fault .noTransaction
    | some t => .next (framePrimitive duplex (tx t) (more t) pos t s)

/-- A read of one byte: `X([hdr, D])` (40_bus_transactions.md R142). -/
def readRow (hdr : Byte) (s : State) : Out := wireStep true (fun _ => [hdr, dummyByte]) (fun _ => 0) s

/-- A burst read of the FIFO: the header and the open transaction's dummy bytes, then its second transfer
(40_bus_transactions.md R145). -/
def burstReadRow (hdr : Byte) (s : State) : Out := wireStep true (fun t => hdr :: t.data) (fun t => t.more) s

/-- A write: `W([hdr] ++ data)`, data from the open transaction (40_bus_transactions.md R143, R146). -/
def writeRow (hdr : Byte) (s : State) : Out := wireStep false (fun t => hdr :: t.data) (fun _ => 0) s

/-- A strobe: `W([c])`, one byte sent alone (40_bus_transactions.md R144, 30_encoding.md R113). -/
def strobeRow (hdr : Byte) (s : State) : Out := wireStep false (fun _ => [hdr]) (fun _ => 0) s

/-- Open a transaction; its CsSelect is the next primitive. -/
def openTxn (hdr : Byte) (data : List Byte) (more : Nat) (pos : Position) (s : State) : State :=
  setPos { pos with txn := some { hdr := hdr, data := data, more := more, stage := .select } } s

/-- The position with more calls before those it has. -/
def pushCalls (cs : List Call) (pos : Position) : Position := { pos with calls := cs ++ pos.calls }

/-- What READ_REG returns: `rx[1]` (40_bus_transactions.md R142). -/
def readValue (pos : Position) : Byte := pos.rx.getD 1 0#8

/-- `len` of READ_FIFO: `rx[1]` (40_bus_transactions.md R145, 90_conflicts.md C4). -/
def fifoLen (pos : Position) : Byte := pos.rx.getD 1 0#8

/-- `addr` of READ_FIFO: `rx[2]` (40_bus_transactions.md R145, 90_conflicts.md C4). -/
def fifoAddr (pos : Position) : Byte := pos.rx.getD 2 0#8

/-- The calls GOTO stands for (44_radio_state_machine.md R272). -/
def goToCalls (par : Params) : Radio → List Call
  | .idle => [.strobe par.chip.strobes.sidle, .awaitState par.marcIdle]
  | .rx => [.goTo .idle, .strobe par.chip.strobes.srx, .awaitState par.marcRx]
  | .tx => [.goTo .idle, .strobe par.chip.strobes.stx, .awaitState par.marcTx]

/-- One step of a subroutine call, taken off the position's calls: open its transaction, make the calls its
rule names, or test what was read. -/
def callStep (c : Call) (pos : Position) (s : State) : State :=
  match c with
  | .readReg id => openTxn (hdrReadOf s.par.chip.bits id) [dummyByte] 0 pos s
  | .writeReg a v => openTxn (hdrWriteOf s.par.chip.bits a) [v] 0 pos s
  | .strobe code => openTxn (hdrWriteOf s.par.chip.bits code) [] 0 pos s
  | .readFifo n => openTxn (fifoReadHeader s.par.chip) [dummyByte, dummyByte] n { pos with payload := [] } s
  | .writeBurst a bytes => openTxn (hdrBurstWriteOf s.par.chip.bits a) bytes 0 pos s
  | .modifyReg a mask value => setPos (pushCalls [.readReg (configId a), .modifyWrite a mask value] pos) s
  | .modifyWrite a mask value =>
    setPos (pushCalls [.writeReg a (modifyByte (readValue pos) mask value)]
      { pos with old := readValue pos, new := modifyByte (readValue pos) mask value }) s
  | .awaitState code => setPos (pushCalls [.readReg (statusId s.par.chip.status.marcstate), .awaitTest code] pos) s
  | .awaitTest code =>
    if readValue pos &&& s.par.marcMask = code.setWidth 8 then setPos pos s
    else setPos (pushCalls [.awaitState code] pos) s
  | .goTo target => setPos (pushCalls (goToCalls s.par target) pos) s
  | .waitRxBytes =>
    setPos (pushCalls [.readReg (statusId s.par.chip.status.rxbytes), .rxTest] pos) { s with lastCount := 0#7 }
  | .rxTest =>
    if rxOverflowFlag (readValue pos) then setPos (pushCalls [.strobe s.par.chip.strobes.sfrx, .rxOverflow] pos) s
    else if rxCount (readValue pos) ≠ 0#7 ∧ rxCount (readValue pos) = s.lastCount then setPos pos s
    else
      setPos (pushCalls [.readReg (statusId s.par.chip.status.rxbytes), .rxTest] pos)
        { s with lastCount := rxCount (readValue pos) }
  | .rxOverflow => raise .rxOverflow s
  | .lineWait level =>
    primitive .lineRead s fun r s =>
      if r = .level level then setPos pos s else setPos (pushCalls [.lineWait level] pos) s

/-- One step of a running command between its transactions: the next call, or the next block of its own
pseudocode (00_scope.md R7, 10_state.md R36). -/
def sequencer (body : Position → State → State) (s : State) : Out :=
  match s.phase with
  | .ready => .fault .notRunning
  | .running pos =>
    match pos.txn with
    | some _ => .fault .transactionOpen
    | none =>
      match pos.calls with
      | c :: rest => .next (callStep c { pos with calls := rest } s)
      | [] => .next (body pos s)

/-- Go on at block `k` of the pseudocode once the calls have returned. -/
def callThen (k : Nat) (cs : List Call) (pos : Position) (s : State) : State :=
  setPos { pos with k := k, calls := cs } s

/-- A read-modify-write of fields of a register (41_field_codecs.md R174). -/
def rmwCall (a : Base) (fs : List (Field × Nat)) : Call := .modifyReg a (rmwMask fs) (rmwValue fs)

end Sys2Proof.Machine
end

