-- ==== Sys2Proof/Machine/Configuration.lean ====
section
/-! DEFINITION. The configuration commands (43_configuration.md R240 to R248). -/

namespace Sys2Proof.Machine

/-- R240: FREQ0, FREQ1, FREQ2 from `enc_freq(ARG0)`, which goes to RES0. -/
def bodySetfreq (pos : Position) (s : State) : State :=
  let r : BitVec 24 := BitVec.ofNat 24 (encFreq (argQuantity s))
  match pos.k with
  | 0 =>
    callThen 1
      [.writeReg s.par.chip.config.freq0 (r.extractLsb' 0 8), .writeReg s.par.chip.config.freq1 (r.extractLsb' 8 8),
       .writeReg s.par.chip.config.freq2 (r.extractLsb' 16 8)] pos s
  | _ => raise .ok { s with res0 := r.setWidth 32 }

/-- SETFREQ (43_configuration.md R240). -/
def execSetfreq (s : State) : Out := sequencer bodySetfreq s

/-- R241: DEVIATN built from its default with `enc_dev(ARG0)`; RES0 mantissa, RES1 exponent. -/
def bodySetdev (pos : Position) (s : State) : State :=
  let me := encDev (argQuantity s)
  match pos.k with
  | 0 =>
    callThen 1
      [.writeReg s.par.chip.config.deviatn
        (fieldBuild s.par.defDeviatn [(fieldDeviationM, me.1), (fieldDeviationE, me.2)])] pos s
  | _ => raise .ok { s with res0 := BitVec.ofNat 32 me.1, res1 := BitVec.ofNat 32 me.2 }

/-- SETDEV (43_configuration.md R241). -/
def execSetdev (s : State) : Out := sequencer bodySetdev s

/-- R242: MDMCFG4.DRATE_E by read-modify-write, then MDMCFG3; RES0 mantissa, RES1 exponent. -/
def bodySetdrate (pos : Position) (s : State) : State :=
  let me := encDrate (argQuantity s)
  match pos.k with
  | 0 =>
    callThen 1
      [rmwCall s.par.chip.config.mdmcfg4 [(fieldDrateE, me.2)],
       .writeReg s.par.chip.config.mdmcfg3 (fieldBuild s.par.defMdmcfg3 [(fieldDrateM, me.1)])] pos s
  | _ => raise .ok { s with res0 := BitVec.ofNat 32 me.1, res1 := BitVec.ofNat 32 me.2 }

/-- SETDRATE (43_configuration.md R242). -/
def execSetdrate (s : State) : Out := sequencer bodySetdrate s

/-- R243: MDMCFG4.CHANBW_E and CHANBW_M by read-modify-write; RES0 mantissa, RES1 exponent. -/
def bodySetchanbw (pos : Position) (s : State) : State :=
  let me := encChanbw (argQuantity s)
  match pos.k with
  | 0 => callThen 1 [rmwCall s.par.chip.config.mdmcfg4 [(fieldChanbwE, me.2), (fieldChanbwM, me.1)]] pos s
  | _ => raise .ok { s with res0 := BitVec.ofNat 32 me.1, res1 := BitVec.ofNat 32 me.2 }

/-- SETCHANBW (43_configuration.md R243). -/
def execSetchanbw (s : State) : Out := sequencer bodySetchanbw s

/-- R244: MDMCFG2.SYNC_MODE by read-modify-write, then SYNC1 and SYNC0. -/
def bodySetsync (pos : Position) (s : State) : State :=
  match pos.k with
  | 0 =>
    callThen 1
      [rmwCall s.par.chip.config.mdmcfg2 [(fieldSyncMode, syncModeCode (argSel2 s))],
       .writeReg s.par.chip.config.sync1 (argSyncWord s).1,
       .writeReg s.par.chip.config.sync0 (argSyncWord s).2] pos s
  | _ => raise .ok s

/-- SETSYNC (43_configuration.md R244). -/
def execSetsync (s : State) : Out := sequencer bodySetsync s

/-- R245: BadOperand for the selectors 5 to 7; MDMCFG2.MOD_FORMAT by read-modify-write. -/
def bodySetmod (pos : Position) (s : State) : State :=
  match pos.k with
  | 0 =>
    match modFormatCode (argSel3 s) with
    | none => raise .badOperand s
    | some code => callThen 1 [rmwCall s.par.chip.config.mdmcfg2 [(fieldModFormat, code)]] pos s
  | _ => raise .ok s

/-- SETMOD (43_configuration.md R245). -/
def execSetmod (s : State) : Out := sequencer bodySetmod s

/-- R246: PKTCTRL1.ADR_CHK by read-modify-write, then ADDR. -/
def bodySetaddrfilt (pos : Position) (s : State) : State :=
  match pos.k with
  | 0 =>
    callThen 1
      [rmwCall s.par.chip.config.pktctrl1 [(fieldAdrChk, adrChkCode (argSel2 s))],
       .writeReg s.par.chip.config.addr (argFiltAddr s)] pos s
  | _ => raise .ok s

/-- SETADDRFILT (43_configuration.md R246). -/
def execSetaddrfilt (s : State) : Out := sequencer bodySetaddrfilt s

/-- R247: BadOperand for the selector 3; PKTCTRL0.LENGTH_CONFIG by read-modify-write, then PKTLEN. -/
def bodySetpktlen (pos : Position) (s : State) : State :=
  match pos.k with
  | 0 =>
    match lengthConfigCode (argSel2 s) with
    | none => raise .badOperand s
    | some lc =>
      callThen 1
        [rmwCall s.par.chip.config.pktctrl0 [(fieldLengthConfig, lc)],
         .writeReg s.par.chip.config.pktlen (argPktLen s)] pos s
  | _ => raise .ok s

/-- SETPKTLEN (43_configuration.md R247). -/
def execSetpktlen (s : State) : Out := sequencer bodySetpktlen s

/-- R248: `WRITE_REG(b, v)` for each pair of BASELINE, in order. -/
def bodySetdefaults (pos : Position) (s : State) : State :=
  match pos.k with
  | 0 => callThen 1 (s.par.baseline.map fun bv => .writeReg bv.1 bv.2) pos s
  | _ => raise .ok s

/-- SETDEFAULTS (43_configuration.md R248). -/
def execSetdefaults (s : State) : Out := sequencer bodySetdefaults s

end Sys2Proof.Machine
end

