-- ==== Sys2Proof/Machine/Packet.lean ====
section
/-! DEFINITION. Packet receive and transmit (45_packet_protocol.md R290, R298). -/

namespace Sys2Proof.Machine

/-- R290: BadOperand if n > 64; WAIT_RX_BYTES, READ_FIFO(n); BUF, RES0, RES1; the LQI read; RES2; GOTO(IDLE),
SFRX; CrcMismatch or Ok (R294). -/
def bodyReceive (pos : Position) (s : State) : State :=
  match pos.k with
  | 0 =>
    if Config.bufSize < argReadLen s then raise .badOperand s
    else callThen 1 [.waitRxBytes, .readFifo (argReadLen s)] pos s
  | 1 =>
    callThen 2 [.readReg (statusId s.par.chip.status.lqi)] pos
      { s with buf := memWriteList s.buf 0 (pos.payload.take (argReadLen s)),
               res0 := (fifoLen pos).setWidth 32, res1 := (fifoAddr pos).setWidth 32 }
  | 2 =>
    callThen 3 [.goTo .idle, .strobe s.par.chip.strobes.sfrx] { pos with q := readValue pos }
      { s with res2 := (readValue pos).setWidth 32 }
  | _ => if crcOk pos.q then raise .ok s else raise .crcMismatch s

/-- RECEIVE (45_packet_protocol.md R290). -/
def execReceive (s : State) : Out := sequencer bodyReceive s

/-- The length gate of TRANSMIT: a payload that is not sent (45_packet_protocol.md R299). -/
def txLenRejected (n : Nat) : Bool := n == 0 || decide (Config.txLenLimit ≤ n)

/-- FRAME with the length-prefixed payload in it (45_packet_protocol.md R300). -/
def frameWith (s : State) : Memory :=
  memWriteList (memWrite s.frame 0 (BitVec.ofNat 8 (argTxLen s))) 1 (memBytes s.buf s.memDraws 0 (argTxLen s))

/-- R298: the length gate; FRAME; GDO_CFG_SYNC, IDLE, SFTX, RX; the burst write; GDO_CFG_EOP, TX, the two line
waits, IDLE; Ok. The line-function byte is below 0x40: its bits 7 and 6 are 0 (41_field_codecs.md R175). -/
def bodyTransmit (pos : Position) (s : State) : State :=
  match pos.k with
  | 0 =>
    if txLenRejected (argTxLen s) then
      if s.par.reportLengthError then raise .lengthOutOfRange s else raise .ok s
    else
      callThen 1
        [.writeReg s.par.gdoIocfg (s.par.gdoCfgSync.setWidth 8), .goTo .idle, .strobe s.par.chip.strobes.sftx,
         .goTo .rx] pos
        { s with frame := frameWith s, memDraws := s.memDraws + 1 }
  | 1 =>
    callThen 2
      [.writeBurst s.par.chip.fifo (memBytes s.frame s.memDraws 0 (argTxLen s + 1)),
       .writeReg s.par.gdoIocfg (s.par.gdoCfgEop.setWidth 8), .goTo .tx, .lineWait true, .lineWait false,
       .goTo .idle] pos
      { s with memDraws := s.memDraws + 1 }
  | _ => raise .ok s

/-- TRANSMIT (45_packet_protocol.md R298). -/
def execTransmit (s : State) : Out := sequencer bodyTransmit s

end Sys2Proof.Machine
end

