-- ==== Sys2Proof/Machine/Radio.lean ====
section
/-! DEFINITION. The radio state commands (44_radio_state_machine.md R274 to R276). -/

namespace Sys2Proof.Machine

/-- R274: `GOTO(IDLE)`; Ok. -/
def bodyGoidle (pos : Position) (s : State) : State :=
  match pos.k with
  | 0 => callThen 1 [.goTo .idle] pos s
  | _ => raise .ok s

/-- GOIDLE (44_radio_state_machine.md R274). -/
def execGoidle (s : State) : Out := sequencer bodyGoidle s

/-- R275: `GOTO(RX)`; Ok. -/
def bodyGorx (pos : Position) (s : State) : State :=
  match pos.k with
  | 0 => callThen 1 [.goTo .rx] pos s
  | _ => raise .ok s

/-- GORX (44_radio_state_machine.md R275). -/
def execGorx (s : State) : Out := sequencer bodyGorx s

/-- R276: `GOTO(TX)`; Ok. -/
def bodyGotx (pos : Position) (s : State) : State :=
  match pos.k with
  | 0 => callThen 1 [.goTo .tx] pos s
  | _ => raise .ok s

/-- GOTX (44_radio_state_machine.md R276). -/
def execGotx (s : State) : Out := sequencer bodyGotx s

end Sys2Proof.Machine
end

