-- ==== Sys2Proof/Machine/Raw.lean ====
section
/-! DEFINITION. The raw access commands (40_bus_transactions.md R150 to R155). A body gives the blocks of a
command's pseudocode, numbered by the position's `k`; between two blocks the calls of the first one run. -/

namespace Sys2Proof.Machine

/-- R150: `v <- READ_REG(ARG0[6:0])`; `REG[RES0] <- zext_32(v)`; Ok. -/
def bodyRdreg (pos : Position) (s : State) : State :=
  match pos.k with
  | 0 => callThen 1 [.readReg (argId s)] pos s
  | _ => raise .ok { s with res0 := (readValue pos).setWidth 32 }

/-- RDREG (40_bus_transactions.md R150). -/
def execRdreg (s : State) : Out := sequencer bodyRdreg s

/-- R151: `WRITE_REG(ARG0[5:0], ARG1[7:0])`; Ok. -/
def bodyWrreg (pos : Position) (s : State) : State :=
  match pos.k with
  | 0 => callThen 1 [.writeReg (argBase s) (argLow s)] pos s
  | _ => raise .ok s

/-- WRREG (40_bus_transactions.md R151). -/
def execWrreg (s : State) : Out := sequencer bodyWrreg s

/-- R152: `STROBE(ARG0[5:0])`; Ok. -/
def bodyStrobe (pos : Position) (s : State) : State :=
  match pos.k with
  | 0 => callThen 1 [.strobe (argBase s)] pos s
  | _ => raise .ok s

/-- STROBE (40_bus_transactions.md R152). -/
def execStrobe (s : State) : Out := sequencer bodyStrobe s

/-- R153: BadOperand if n > 64; READ_FIFO(n); BUF, RES0 and RES1; Ok. -/
def bodyRdfifo (pos : Position) (s : State) : State :=
  match pos.k with
  | 0 =>
    if Config.bufSize < argReadLen s then raise .badOperand s
    else callThen 1 [.readFifo (argReadLen s)] pos s
  | _ =>
    raise .ok
      { s with buf := memWriteList s.buf 0 (pos.payload.take (argReadLen s)),
               res0 := (fifoLen pos).setWidth 32, res1 := (fifoAddr pos).setWidth 32 }

/-- RDFIFO (40_bus_transactions.md R153). -/
def execRdfifo (s : State) : Out := sequencer bodyRdfifo s

/-- R154: BadOperand if n > 64; `WRITE_BURST(ARG0[5:0], MemRead(0, n))`; Ok. -/
def bodyWrburst (pos : Position) (s : State) : State :=
  match pos.k with
  | 0 =>
    if Config.bufSize < argBurstLen s then raise .badOperand s
    else
      callThen 1 [.writeBurst (argBase s) (memBytes s.buf s.memDraws 0 (argBurstLen s))] pos
        { s with memDraws := s.memDraws + 1 }
  | _ => raise .ok s

/-- WRBURST (40_bus_transactions.md R154). -/
def execWrburst (s : State) : Out := sequencer bodyWrburst s

/-- R155: `(old, new) <- MODIFY_REG(ARG0[5:0], ARG1[7:0], ARG1[15:8])`; RES0 old, RES1 new; Ok. -/
def bodyModreg (pos : Position) (s : State) : State :=
  match pos.k with
  | 0 => callThen 1 [.modifyReg (argBase s) (argLow s) (argHigh s)] pos s
  | _ => raise .ok { s with res0 := pos.old.setWidth 32, res1 := pos.new.setWidth 32 }

/-- MODREG (40_bus_transactions.md R155). -/
def execModreg (s : State) : Out := sequencer bodyModreg s

end Sys2Proof.Machine
end

