-- ==== Sys2Proof/Machine/Readout.lean ====
section
/-! DEFINITION. Hardware identity, RSSI and LQI readout (46_readout.md R320 to R322). -/

namespace Sys2Proof.Machine

/-- R320: `p <- PARTNUM`, then `v <- VERSION`; RES0 p, RES1 v; Ok. -/
def bodyHwinfo (pos : Position) (s : State) : State :=
  match pos.k with
  | 0 => callThen 1 [.readReg (statusId s.par.chip.status.partnum)] pos s
  | 1 => callThen 2 [.readReg (statusId s.par.chip.status.version)] { pos with p := readValue pos } s
  | _ => raise .ok { s with res0 := pos.p.setWidth 32, res1 := (readValue pos).setWidth 32 }

/-- HWINFO (46_readout.md R320). -/
def execHwinfo (s : State) : Out := sequencer bodyHwinfo s

/-- R321: RES0 the dBm value in two's complement, RES1 the raw byte; Ok. -/
def bodyRssi (pos : Position) (s : State) : State :=
  match pos.k with
  | 0 => callThen 1 [.readReg (statusId s.par.chip.status.rssi)] pos s
  | _ =>
    raise .ok
      { s with res0 := BitVec.ofInt 32 (rssiToDbm s.par.rssiOffset (readValue pos)),
               res1 := (readValue pos).setWidth 32 }

/-- RSSI (46_readout.md R321). -/
def execRssi (s : State) : Out := sequencer bodyRssi s

/-- R322: RES0 the 7-bit quality score, RES1 the raw byte; Ok. -/
def bodyLqi (pos : Position) (s : State) : State :=
  match pos.k with
  | 0 => callThen 1 [.readReg (statusId s.par.chip.status.lqi)] pos s
  | _ =>
    raise .ok
      { s with res0 := (fieldExtract (readValue pos) fieldLqiEst).setWidth 32,
               res1 := (readValue pos).setWidth 32 }

/-- LQI (46_readout.md R322). -/
def execLqi (s : State) : Out := sequencer bodyLqi s

end Sys2Proof.Machine
end

