-- ==== Sys2Proof/Machine/Wire.lean ====
section
/-! DEFINITION. The wire rows: the next primitive of the open transaction whose header is the row's
(30_encoding.md R110 to R116, 20_memory.md R77, R78; log entry 1), for the chip's addresses as configured. The bytes
the comments name are those of the spec's tables. -/

namespace Sys2Proof.Machine

/-- HDR_READ: `X([0x80 | a, D])` (30_encoding.md R111, 40_bus_transactions.md R142). -/
def execHdrRead (a : Base) (s : State) : Out := readRow (headerByte s.par.chip.bits true false a) s

/-- HDR_READ_BURST: `X([0xC0 | a, D])`, a status read or a one-byte burst read (30_encoding.md R111,
40_bus_transactions.md R150). -/
def execHdrReadBurst (a : Base) (s : State) : Out := readRow (headerByte s.par.chip.bits true true a) s

/-- HDR_WRITE: `W([a] ++ data)`: a register write, or a lone header (30_encoding.md R111,
40_bus_transactions.md R143, R152). -/
def execHdrWrite (a : Base) (s : State) : Out := writeRow (headerByte s.par.chip.bits false false a) s

/-- HDR_BURST_WRITE: `W([0x40 | a] ++ data)` (30_encoding.md R111, 40_bus_transactions.md R146). -/
def execHdrBurstWrite (a : Base) (s : State) : Out := writeRow (headerByte s.par.chip.bits false true a) s

/-- FIFO_SINGLE_READ: `X([0xBF, D])` (30_encoding.md R112). -/
def execFifoSingleRead (s : State) : Out := readRow (headerByte s.par.chip.bits true false s.par.chip.fifo) s

/-- FIFO_SINGLE_WRITE: `W([0x3F] ++ data)` (30_encoding.md R112). -/
def execFifoSingleWrite (s : State) : Out := writeRow (headerByte s.par.chip.bits false false s.par.chip.fifo) s

/-- FIFO_BURST_READ: `X([0xFF] ++ dummies)`, then the second Xfer of READ_FIFO (30_encoding.md R112,
40_bus_transactions.md R145). -/
def execFifoBurstRead (s : State) : Out := burstReadRow (fifoReadHeader s.par.chip) s

/-- FIFO_BURST_WRITE: `W([0x7F] ++ data)` (30_encoding.md R112, 45_packet_protocol.md R300). -/
def execFifoBurstWrite (s : State) : Out := writeRow (headerByte s.par.chip.bits false true s.par.chip.fifo) s

/-- SRES: `W([0x30])`, sent alone (20_memory.md R77, 30_encoding.md R113). -/
def execSres (s : State) : Out := strobeRow (headerByte s.par.chip.bits false false s.par.chip.strobes.sres) s

/-- SFSTXON: `W([0x31])`, sent alone (20_memory.md R77, 30_encoding.md R113). -/
def execSfstxon (s : State) : Out := strobeRow (headerByte s.par.chip.bits false false s.par.chip.strobes.sfstxon) s

/-- SXOFF: `W([0x32])`, sent alone (20_memory.md R77, 30_encoding.md R113). -/
def execSxoff (s : State) : Out := strobeRow (headerByte s.par.chip.bits false false s.par.chip.strobes.sxoff) s

/-- SCAL: `W([0x33])`, sent alone (20_memory.md R77, 30_encoding.md R113). -/
def execScal (s : State) : Out := strobeRow (headerByte s.par.chip.bits false false s.par.chip.strobes.scal) s

/-- SRX: `W([0x34])`, sent alone (20_memory.md R77, 30_encoding.md R113). -/
def execSrx (s : State) : Out := strobeRow (headerByte s.par.chip.bits false false s.par.chip.strobes.srx) s

/-- STX: `W([0x35])`, sent alone (20_memory.md R77, 30_encoding.md R113). -/
def execStx (s : State) : Out := strobeRow (headerByte s.par.chip.bits false false s.par.chip.strobes.stx) s

/-- SIDLE: `W([0x36])`, sent alone (20_memory.md R77, 30_encoding.md R113). -/
def execSidle (s : State) : Out := strobeRow (headerByte s.par.chip.bits false false s.par.chip.strobes.sidle) s

/-- SWOR: `W([0x38])`, sent alone (20_memory.md R77, 30_encoding.md R113). -/
def execSwor (s : State) : Out := strobeRow (headerByte s.par.chip.bits false false s.par.chip.strobes.swor) s

/-- SPWD: `W([0x39])`, sent alone (20_memory.md R77, 30_encoding.md R113). -/
def execSpwd (s : State) : Out := strobeRow (headerByte s.par.chip.bits false false s.par.chip.strobes.spwd) s

/-- SFRX: `W([0x3A])`, sent alone (20_memory.md R77, 30_encoding.md R113). -/
def execSfrx (s : State) : Out := strobeRow (headerByte s.par.chip.bits false false s.par.chip.strobes.sfrx) s

/-- SFTX: `W([0x3B])`, sent alone (20_memory.md R77, 30_encoding.md R113). -/
def execSftx (s : State) : Out := strobeRow (headerByte s.par.chip.bits false false s.par.chip.strobes.sftx) s

/-- SWORRST: `W([0x3C])`, sent alone (20_memory.md R77, 30_encoding.md R113). -/
def execSworrst (s : State) : Out := strobeRow (headerByte s.par.chip.bits false false s.par.chip.strobes.sworrst) s

/-- SNOP: `W([0x3D])`, sent alone (20_memory.md R77, 30_encoding.md R113). -/
def execSnop (s : State) : Out := strobeRow (headerByte s.par.chip.bits false false s.par.chip.strobes.snop) s

/-- RD_PARTNUM: `X([0xF0, D])`, the value in the second answer byte (20_memory.md R78). -/
def execRdPartnum (s : State) : Out := readRow (headerByte s.par.chip.bits true true s.par.chip.status.partnum) s

/-- RD_VERSION: `X([0xF1, D])`, the value in the second answer byte (20_memory.md R78). -/
def execRdVersion (s : State) : Out := readRow (headerByte s.par.chip.bits true true s.par.chip.status.version) s

/-- RD_FREQEST: `X([0xF2, D])`, the value in the second answer byte (20_memory.md R78). -/
def execRdFreqest (s : State) : Out := readRow (headerByte s.par.chip.bits true true s.par.chip.status.freqest) s

/-- RD_LQI_REG: `X([0xF3, D])`, the value in the second answer byte (20_memory.md R78). -/
def execRdLqiReg (s : State) : Out := readRow (headerByte s.par.chip.bits true true s.par.chip.status.lqi) s

/-- RD_RSSI_REG: `X([0xF4, D])`, the value in the second answer byte (20_memory.md R78). -/
def execRdRssiReg (s : State) : Out := readRow (headerByte s.par.chip.bits true true s.par.chip.status.rssi) s

/-- RD_MARCSTATE: `X([0xF5, D])`, the value in the second answer byte (20_memory.md R78). -/
def execRdMarcstate (s : State) : Out :=
  readRow (headerByte s.par.chip.bits true true s.par.chip.status.marcstate) s

/-- RD_WORTIME1: `X([0xF6, D])`, the value in the second answer byte (20_memory.md R78). -/
def execRdWortime1 (s : State) : Out := readRow (headerByte s.par.chip.bits true true s.par.chip.status.wortime1) s

/-- RD_WORTIME0: `X([0xF7, D])`, the value in the second answer byte (20_memory.md R78). -/
def execRdWortime0 (s : State) : Out := readRow (headerByte s.par.chip.bits true true s.par.chip.status.wortime0) s

/-- RD_PKTSTATUS: `X([0xF8, D])`, the value in the second answer byte (20_memory.md R78). -/
def execRdPktstatus (s : State) : Out :=
  readRow (headerByte s.par.chip.bits true true s.par.chip.status.pktstatus) s

/-- RD_VCO_VC_DAC: `X([0xF9, D])`, the value in the second answer byte (20_memory.md R78). -/
def execRdVcoVcDac (s : State) : Out := readRow (headerByte s.par.chip.bits true true s.par.chip.status.vcoVcDac) s

/-- RD_TXBYTES: `X([0xFA, D])`, the value in the second answer byte (20_memory.md R78). -/
def execRdTxbytes (s : State) : Out := readRow (headerByte s.par.chip.bits true true s.par.chip.status.txbytes) s

/-- RD_RXBYTES: `X([0xFB, D])`, the value in the second answer byte (20_memory.md R78). -/
def execRdRxbytes (s : State) : Out := readRow (headerByte s.par.chip.bits true true s.par.chip.status.rxbytes) s

/-- RD_RCCTRL1_STATUS: `X([0xFC, D])`, the value in the second answer byte (20_memory.md R78). -/
def execRdRcctrl1Status (s : State) : Out :=
  readRow (headerByte s.par.chip.bits true true s.par.chip.status.rcctrl1Status) s

/-- RD_RCCTRL0_STATUS: `X([0xFD, D])`, the value in the second answer byte (20_memory.md R78). -/
def execRdRcctrl0Status (s : State) : Out :=
  readRow (headerByte s.par.chip.bits true true s.par.chip.status.rcctrl0Status) s

end Sys2Proof.Machine
end

