-- ==== Sys2Proof/Machine/Dispatch.lean ====
section
/-! DEFINITION. One arm per instruction, each one call of its meaning. -/

namespace Sys2Proof.Machine

def exec (i : Instr) (s : State) : Host.Outcome State Fault Refusal :=
  match i with
  | .rdreg => Sys2Proof.Machine.execRdreg s
  | .wrreg => Sys2Proof.Machine.execWrreg s
  | .strobe => Sys2Proof.Machine.execStrobe s
  | .rdfifo => Sys2Proof.Machine.execRdfifo s
  | .wrburst => Sys2Proof.Machine.execWrburst s
  | .modreg => Sys2Proof.Machine.execModreg s
  | .setfreq => Sys2Proof.Machine.execSetfreq s
  | .setdev => Sys2Proof.Machine.execSetdev s
  | .setdrate => Sys2Proof.Machine.execSetdrate s
  | .setchanbw => Sys2Proof.Machine.execSetchanbw s
  | .setsync => Sys2Proof.Machine.execSetsync s
  | .setmod => Sys2Proof.Machine.execSetmod s
  | .setaddrfilt => Sys2Proof.Machine.execSetaddrfilt s
  | .setpktlen => Sys2Proof.Machine.execSetpktlen s
  | .setdefaults => Sys2Proof.Machine.execSetdefaults s
  | .goidle => Sys2Proof.Machine.execGoidle s
  | .gorx => Sys2Proof.Machine.execGorx s
  | .gotx => Sys2Proof.Machine.execGotx s
  | .receive => Sys2Proof.Machine.execReceive s
  | .transmit => Sys2Proof.Machine.execTransmit s
  | .hwinfo => Sys2Proof.Machine.execHwinfo s
  | .rssi => Sys2Proof.Machine.execRssi s
  | .lqi => Sys2Proof.Machine.execLqi s
  | .hdrRead a => Sys2Proof.Machine.execHdrRead a s
  | .hdrReadBurst a => Sys2Proof.Machine.execHdrReadBurst a s
  | .hdrWrite a => Sys2Proof.Machine.execHdrWrite a s
  | .hdrBurstWrite a => Sys2Proof.Machine.execHdrBurstWrite a s
  | .fifoSingleRead => Sys2Proof.Machine.execFifoSingleRead s
  | .fifoSingleWrite => Sys2Proof.Machine.execFifoSingleWrite s
  | .fifoBurstRead => Sys2Proof.Machine.execFifoBurstRead s
  | .fifoBurstWrite => Sys2Proof.Machine.execFifoBurstWrite s
  | .sres => Sys2Proof.Machine.execSres s
  | .sfstxon => Sys2Proof.Machine.execSfstxon s
  | .sxoff => Sys2Proof.Machine.execSxoff s
  | .scal => Sys2Proof.Machine.execScal s
  | .srx => Sys2Proof.Machine.execSrx s
  | .stx => Sys2Proof.Machine.execStx s
  | .sidle => Sys2Proof.Machine.execSidle s
  | .swor => Sys2Proof.Machine.execSwor s
  | .spwd => Sys2Proof.Machine.execSpwd s
  | .sfrx => Sys2Proof.Machine.execSfrx s
  | .sftx => Sys2Proof.Machine.execSftx s
  | .sworrst => Sys2Proof.Machine.execSworrst s
  | .snop => Sys2Proof.Machine.execSnop s
  | .rdPartnum => Sys2Proof.Machine.execRdPartnum s
  | .rdVersion => Sys2Proof.Machine.execRdVersion s
  | .rdFreqest => Sys2Proof.Machine.execRdFreqest s
  | .rdLqiReg => Sys2Proof.Machine.execRdLqiReg s
  | .rdRssiReg => Sys2Proof.Machine.execRdRssiReg s
  | .rdMarcstate => Sys2Proof.Machine.execRdMarcstate s
  | .rdWortime1 => Sys2Proof.Machine.execRdWortime1 s
  | .rdWortime0 => Sys2Proof.Machine.execRdWortime0 s
  | .rdPktstatus => Sys2Proof.Machine.execRdPktstatus s
  | .rdVcoVcDac => Sys2Proof.Machine.execRdVcoVcDac s
  | .rdTxbytes => Sys2Proof.Machine.execRdTxbytes s
  | .rdRxbytes => Sys2Proof.Machine.execRdRxbytes s
  | .rdRcctrl1Status => Sys2Proof.Machine.execRdRcctrl1Status s
  | .rdRcctrl0Status => Sys2Proof.Machine.execRdRcctrl0Status s

end Sys2Proof.Machine
end

