-- ==== Sys2Proof/Machine/HostPort.lean ====
section
/-! DEFINITION. The host port (20_memory.md R70 to R72, 10_state.md R31 to R38), acceptance of a command
(30_encoding.md R101) and block reset (70_reset_and_hazards.md R360). -/

namespace Sys2Proof.Machine

/-- The host accesses the block defines: 32 bits, aligned, at offsets 0x00 to 0x7C (20_memory.md R71). -/
def hostAccessOk (offset width : Nat) : Bool := width == 32 && offset % 4 == 0 && decide (offset < 0x80)

/-- Host word `k` of BUF: little-endian (10_state.md R38, 20_memory.md R72). -/
def bufWord (s : State) (k : Nat) : Word :=
  memGet s.buf s.memDraws (4 * k + 3) ++ memGet s.buf s.memDraws (4 * k + 2) ++
    memGet s.buf s.memDraws (4 * k + 1) ++ memGet s.buf s.memDraws (4 * k)

/-- What a host read at a defined offset returns (20_memory.md R71). -/
def hostWord (s : State) (offset : Nat) : Word :=
  match offset / 4 with
  | 0 => s.cmd.setWidth 32
  | 1 => s.arg0
  | 2 => s.arg1
  | 3 => s.res0
  | 4 => s.res1
  | 5 => s.res2
  | 6 => statusWord s
  | 7 => s.errinfo
  | k => if 16 ≤ k then bufWord s (k - 16) else 0#32

/-- BUF with host word `k` written (20_memory.md R72). -/
def bufWithWord (m : Memory) (k : Nat) (v : Word) : Memory :=
  memWriteList m (4 * k) [v.extractLsb' 0 8, v.extractLsb' 8 8, v.extractLsb' 16 8, v.extractLsb' 24 8]

/-- Acceptance of the command `w[7:0]` (30_encoding.md R101). BUSY is the phase. -/
def accept (w : Byte) (s : State) : State :=
  { s with cmd := w, done := false, phase := .running Position.start }

/-- A host write at a defined offset while BUSY = 0 (20_memory.md R71; 10_state.md R31 to R35, R38). -/
def hostWriteReady (offset : Nat) (v : Word) (s : State) : State :=
  match offset / 4 with
  | 0 => accept (v.extractLsb' 0 8) s
  | 1 => { s with arg0 := v }
  | 2 => { s with arg1 := v }
  | 3 | 4 | 5 => s
  | 6 => statusWrite v s
  | 7 => s
  | k => if 16 ≤ k then { s with buf := bufWithWord s.buf (k - 16) v } else s

/-- A host write at a defined offset: dropped while BUSY = 1, which sets DROP (10_state.md R37). -/
def hostWriteDefined (offset : Nat) (v : Word) (s : State) : State :=
  if busy s then { s with drop := true } else hostWriteReady offset v s

/-- A host read: the word goes to the host; a read of BUF may draw free bytes (log entries 5, 15). -/
def hostRead (offset width : Nat) (s : State) : Out :=
  if hostAccessOk offset width then
    .next { s with hostReads := s.hostReads ++ [hostWord s offset], memDraws := s.memDraws + 1 }
  else .refused (.undefinedHostAccess offset width)

/-- A host write. -/
def hostWrite (offset width : Nat) (v : Word) (s : State) : Out :=
  if hostAccessOk offset width then .next (hostWriteDefined offset v s)
  else .refused (.undefinedHostAccess offset width)

/-- Block reset (70_reset_and_hazards.md R360): the running command is abandoned, every host register is 0,
the line is inactive, BUF and FRAME are unspecified. The chip, the parameters and the outside are not the
block's and stay. -/
def blockReset (s : State) : State :=
  { s with
    phase := .ready
    cmd := 0#8
    arg0 := 0#32
    arg1 := 0#32
    res0 := 0#32
    res1 := 0#32
    res2 := 0#32
    done := false
    result := .ok
    faultSeen := false
    drop := false
    errinfo := 0#32
    lastCount := 0#7
    cs := .deselected
    buf := []
    frame := [] }

/-- The words of BUF that hold the listed bytes, from host word `k` on; bytes past the list are written 0
(30_encoding.md R108; log entry 22). -/
def bufWrites : Nat → List Byte → List Input
  | k, a :: b :: c :: d :: rest => .hostWrite (0x40 + 4 * k) 32 (d ++ c ++ b ++ a) :: bufWrites (k + 1) rest
  | k, [a, b, c] => [.hostWrite (0x40 + 4 * k) 32 (0#8 ++ c ++ b ++ a)]
  | k, [a, b] => [.hostWrite (0x40 + 4 * k) 32 (0#16 ++ b ++ a)]
  | k, [a] => [.hostWrite (0x40 + 4 * k) 32 (0#24 ++ a)]
  | _, [] => []

/-- The host writes that `MNEMONIC arg0, arg1 ; BUF = bytes` stands for, steps 1 to 4 of 30_encoding.md R108. -/
def hostSequence (opcode : Byte) (arg0 arg1 : Option Word) (bytes : List Byte) : List Input :=
  bufWrites 0 bytes ++ (arg0.toList.map fun v => .hostWrite 0x04 32 v) ++
    (arg1.toList.map fun v => .hostWrite 0x08 32 v) ++ [.hostWrite 0x00 32 (opcode.setWidth 32)]

end Sys2Proof.Machine
end

