-- ==== Sys2Proof/Machine/Sequence.lean ====
section
/-! DEFINITION. What one step does: the next input, or the sequencer's turn, which decodes what it stands at
(CMD, or the header of the open transaction) and runs that instruction (00_scope.md R6, R7). -/

namespace Sys2Proof.Machine

/-- The instruction a running sequencer stands at: the open transaction's frame, else CMD[7:0] (10_state.md
R36, 30_encoding.md R107, R115). -/
def fetch (pos : Position) (s : State) : Except DecodeError Instr :=
  match pos.txn with
  | some t => decodeFrame s.par.chip (t.hdr :: t.data)
  | none => decodeCommand s.cmd

/-- The sequencer's turn. Ready: nothing happens until a host write to CMD (70_reset_and_hazards.md R361). An
opcode outside the map raises IllegalCommand (30_encoding.md R104). -/
def sequencerTurn (s : State) : Out :=
  match s.phase with
  | .ready => .next s
  | .running pos =>
    match fetch pos s with
    | .error _ => .next (raise .illegalCommand s)
    | .ok i => exec i s

/-- The next input of the outside, or the sequencer's turn where there is none (log entry 3). -/
def advance (s : State) : Out :=
  match s.inputs with
  | [] => sequencerTurn s
  | .turn :: rest => sequencerTurn { s with inputs := rest }
  | .hostRead offset width :: rest => hostRead offset width { s with inputs := rest }
  | .hostWrite offset width v :: rest => hostWrite offset width v { s with inputs := rest }
  | .blockReset :: rest => .next (blockReset { s with inputs := rest })

/-- The state in which the next step runs the instruction of a table word (log entry 14): for a word of the
opcode map, the state just after its acceptance (30_encoding.md R101); for any other word, a transaction open
with the header of the word's row for the chip as configured, a strobe alone and any other header with one zero byte
after it. -/
def placeWord (w : Byte) (s : State) : State :=
  match decodeCommand w with
  | .ok _ => accept w { s with inputs := [] }
  | .error _ =>
    let row := decodeHeader defaultChip true w
    let data : List Byte := if row.isStrobe then [] else [0#8]
    setPos
      { Position.start with
        txn := some { hdr := encodeIn s.par.chip row, data := data, more := 0, stage := .select } }
      { s with inputs := [] }

end Sys2Proof.Machine
end

