-- ==== Sys2Proof/Machine/Step.lean ====
section
/-! DEFINITION. The step, and the placing of a table word where the next step runs it. -/

namespace Sys2Proof.Machine

/-- One step of the block and its surroundings (00_scope.md R7). -/
def step : State → Host.Outcome State Fault Refusal := advance

/-- The state in which the next step runs the instruction of the word `w` (log entry 14). -/
def State.withFetchWord (s : State) (_nbits w : Nat) : State := placeWord (BitVec.ofNat 8 w) s

end Sys2Proof.Machine
end

