-- ==== Sys2Proof/Safety.lean ====
section
/-! DEFINITION. The terms claims are stated in: runs, a command just accepted, what the environment answers,
the bus events of a frame, and the invariant. -/

namespace Sys2Proof.Machine

/-- The state after `n` steps, none where a step stops. -/
def runSteps : Nat → State → Option State
  | 0, s => some s
  | n + 1, s =>
    match step s with
    | .next t => runSteps n t
    | .fault _ => none
    | .refused _ => none

/-- Some number of steps leads from `s` to `t`. -/
def Reaches (s t : State) : Prop := ∃ n, runSteps n s = some t

/-- No step of a run of any length stops with a fault (60_exceptions.md R353). -/
def Safe (s : State) : Prop := ∀ n t f, runSteps n s = some t → step t ≠ .fault f

/-- The command with this opcode was accepted and none of its steps has run; the outside does nothing further
(30_encoding.md R101). -/
abbrev Started (w : Byte) (s : State) : Prop :=
  s.inputs = [] ∧ s.cmd = w ∧ s.phase = .running Position.start

/-- The input is a host write to CMD (10_state.md R31). -/
abbrev CmdWrite (i : Input) : Prop := ∃ v, i = .hostWrite 0x00 32 v

/-- The running command stands between transactions, with no call to make, before block `k` of its
pseudocode. -/
abbrev AtBlock (k : Nat) (pos : Position) (s : State) : Prop :=
  s.phase = .running pos ∧ pos.txn = none ∧ pos.calls = [] ∧ pos.k = k

/-- The running command stands between transactions, with the call `c` to make next and `rest` after it. -/
abbrev AtCall (c : Call) (rest : List Call) (pos : Position) (s : State) : Prop :=
  s.phase = .running pos ∧ pos.txn = none ∧ pos.calls = c :: rest

/-- The running command stands in the transaction `t`. -/
abbrev InTxn (t : Txn) (pos : Position) (s : State) : Prop := s.phase = .running pos ∧ pos.txn = some t

/-- For the first `n` steps the block goes on and stays BUSY. -/
abbrev BusyFor (n : Nat) (s : State) : Prop := ∀ k ≤ n, ∃ t, runSteps k s = some t ∧ busy t = true

/-- The state after a primitive was issued and answered with `r`. -/
def answered (p : Prim) (r : Reply) (s : State) : State :=
  { s with answers := s.answers.tail, draws := s.draws + 1, trace := s.trace ++ [(p, r)] }

/-- The primitive a wire row issues at a stage of its transaction, for the chip's addresses (30_encoding.md R115). -/
def wirePrim (m : ChipAddresses) (i : Instr) (t : Txn) : Prim :=
  match t.stage with
  | .select => .csSelect
  | .deselect => .csDeselect
  | .more => .xfer (List.replicate (if i = .fifoBurstRead then t.more else 0) 0x00#8)
  | .send =>
    if i.isStrobe then .wr [encodeIn m i]
    else if i.isWireWrite then .wr (encodeIn m i :: t.data)
    else if i = .fifoBurstRead then .xfer (encodeIn m i :: t.data)
    else .xfer [encodeIn m i, 0x00#8]

/-- The next `n` primitives succeed (00_scope.md R8: a premise on the answers). -/
abbrev BusOk (n : Nat) (s : State) : Prop := ∀ i < n, (answerAt s i).failure = none

/-- A primitive and its answer, as the trace records them. -/
abbrev BusEvent := Prim × Reply

/-- The state after these primitives were issued and answered without a failure, the line inactive at their
end: nothing else of the block has changed. -/
def afterBus (evs : List BusEvent) (s : State) : State :=
  { s with cs := .deselected, answers := s.answers.drop evs.length, draws := s.draws + evs.length,
           trace := s.trace ++ evs }

/-- The header of a single read: the read bit and the base (30_encoding.md R110, R111). -/
abbrev singleReadHeader (a : Base) (s : State) : Byte := hdrReadBit s.par.chip.bits ||| a.setWidth 8

/-- The header of a burst read, and of a status read: both bits and the base (30_encoding.md R110 to R112). -/
abbrev burstReadHeader (a : Base) (s : State) : Byte :=
  hdrReadBit s.par.chip.bits ||| hdrBurstBit s.par.chip.bits ||| a.setWidth 8

/-- The header of a burst write: the burst bit and the base (30_encoding.md R110, R111). -/
abbrev burstWriteHeader (a : Base) (s : State) : Byte := hdrBurstBit s.par.chip.bits ||| a.setWidth 8

/-- The frame of a write: CS; W(bytes); /CS (30_encoding.md R115). -/
def writeEvents (bytes : List Byte) : List BusEvent :=
  [(.csSelect, .done), (.wr bytes, .done), (.csDeselect, .done)]

/-- The frame of READ_REG: CS; X([hdr, D]); /CS (30_encoding.md R115), with what the chip clocks back. -/
def readEvents (hdr : Byte) (s : State) : List BusEvent :=
  [(.csSelect, .done), (.xfer [hdr, 0x00#8], .bytes [chipByte s 1 0, chipByte s 1 1]), (.csDeselect, .done)]

/-- The frame of READ_FIFO: CS; X([burst-read header, D, D]); X([D] x n) unless n = 0; /CS (30_encoding.md R112,
R115). -/
def fifoReadEvents (n : Nat) (s : State) : List BusEvent :=
  [(.csSelect, .done),
   (.xfer [burstReadHeader s.par.chip.fifo s, 0x00#8, 0x00#8],
    .bytes [chipByte s 1 0, chipByte s 1 1, chipByte s 1 2])] ++
  (if n = 0 then [] else [(.xfer (List.replicate n 0x00#8), .bytes (clockedBytes s 2 n))]) ++
  [(.csDeselect, .done)]

/-- The byte READ_REG returns if it runs now: the second one clocked back (40_bus_transactions.md R142). -/
def readByte (s : State) : Byte := chipByte s 1 1

/-- After a whole write frame. -/
def sentWrite (bytes : List Byte) (s : State) : State := afterBus (writeEvents bytes) s

/-- After WRITE_REG of a byte to a configuration register (40_bus_transactions.md R143). -/
def sentWriteReg (a : Base) (v : Byte) (s : State) : State := sentWrite [a.setWidth 8, v] s

/-- After STROBE of a code (40_bus_transactions.md R144). -/
def sentStrobe (c : Base) (s : State) : State := sentWrite [c.setWidth 8] s

/-- After a whole READ_REG frame. -/
def sentRead (hdr : Byte) (s : State) : State := afterBus (readEvents hdr s) s

/-- After READ_REG of a status register, S = 1 (30_encoding.md R111, 40_bus_transactions.md R142). -/
def sentStatusRead (a : Base) (s : State) : State := sentRead (burstReadHeader a s) s

/-- After a whole READ_FIFO frame. -/
def sentFifoRead (n : Nat) (s : State) : State := afterBus (fifoReadEvents n s) s

/-- After both transactions of MODIFY_REG, the byte written being `(old & ~mask) | (value & mask)`
(40_bus_transactions.md R147). -/
def sentModify (a : Base) (mask value : Byte) (s : State) : State :=
  sentWriteReg a ((readByte s &&& ~~~mask) ||| (value &&& mask)) (sentRead (singleReadHeader a s) s)

/-- After the register writes of a list, in its order. -/
def sentWrites (pairs : List (Base × Byte)) (s : State) : State :=
  pairs.foldl (fun x bv => sentWriteReg bv.1 bv.2 x) s

/-- After `n` reads of one status register. -/
def sentPolls (a : Base) : Nat → State → State
  | 0, s => s
  | n + 1, s => sentPolls a n (sentStatusRead a s)

/-- After one read of MARCSTATE (44_radio_state_machine.md R271). -/
abbrev polledMarc (s : State) : State := sentStatusRead s.par.chip.status.marcstate s

/-- After one read of RXBYTES (45_packet_protocol.md R292). -/
abbrev polledRx (s : State) : State := sentStatusRead s.par.chip.status.rxbytes s

/-- The MARCSTATE byte read now confirms the code (44_radio_state_machine.md R271). -/
abbrev Confirms (code : BitVec 5) (s : State) : Prop := readByte s &&& s.par.marcMask = code.setWidth 8

/-- The answers make AWAIT_STATE end at its read number `n`, counted from 0, and not before
(44_radio_state_machine.md R271). -/
def AwaitEnds (code : BitVec 5) : Nat → State → Prop
  | 0, s => BusOk 3 s ∧ Confirms code s
  | n + 1, s => BusOk 3 s ∧ ¬Confirms code s ∧ AwaitEnds code n (polledMarc s)

/-- The answers make `n` reads of AWAIT_STATE succeed and none of them confirm (44_radio_state_machine.md
R273). -/
def AwaitFails (code : BitVec 5) : Nat → State → Prop
  | 0, _ => True
  | n + 1, s => BusOk 3 s ∧ ¬Confirms code s ∧ AwaitFails code n (polledMarc s)

/-- After AWAIT_STATE that ended at its read number `n`. -/
def awaited (n : Nat) (s : State) : State := sentPolls s.par.chip.status.marcstate (n + 1) s

/-- The answers make GOTO(IDLE) end, after `n` polls that did not confirm (44_radio_state_machine.md R272). -/
def IdleEnds (n : Nat) (s : State) : Prop :=
  BusOk 3 s ∧ AwaitEnds s.par.marcIdle n (sentStrobe s.par.chip.strobes.sidle s)

/-- After GOTO(IDLE): SIDLE, then the polls. -/
def wentIdle (n : Nat) (s : State) : State := awaited n (sentStrobe s.par.chip.strobes.sidle s)

/-- The answers make GOTO(RX) or GOTO(TX), by its strobe and code, end after `n` and `m` polls that did not
confirm (44_radio_state_machine.md R272). -/
def GotoEnds (strobe : Base) (code : BitVec 5) (n m : Nat) (s : State) : Prop :=
  IdleEnds n s ∧ BusOk 3 (wentIdle n s) ∧ AwaitEnds code m (sentStrobe strobe (wentIdle n s))

/-- After GOTO(RX) or GOTO(TX): GOTO(IDLE), the strobe, the polls. -/
def wentTo (strobe : Base) (n m : Nat) (s : State) : State :=
  awaited m (sentStrobe strobe (wentIdle n s))

/-- The RXBYTES byte read now ends WAIT_RX_BYTES, the last count being `last` (45_packet_protocol.md R292). -/
abbrev StableCount (last : BitVec 7) (s : State) : Prop :=
  (readByte s).extractLsb' 0 7 ≠ 0#7 ∧ (readByte s).extractLsb' 0 7 = last

/-- The answers make WAIT_RX_BYTES return at its read number `n`, counted from 0, with no overflow flag before
(45_packet_protocol.md R292). -/
def RxWaitEnds : Nat → BitVec 7 → State → Prop
  | 0, last, s => BusOk 3 s ∧ (readByte s).getLsbD 7 = false ∧ StableCount last s
  | n + 1, last, s =>
    BusOk 3 s ∧ (readByte s).getLsbD 7 = false ∧ ¬StableCount last s ∧
      RxWaitEnds n ((readByte s).extractLsb' 0 7) (polledRx s)

/-- The answers make WAIT_RX_BYTES see the overflow flag at its read number `n`, counted from 0, with no stable
count before (45_packet_protocol.md R292). -/
def RxWaitOverflows : Nat → BitVec 7 → State → Prop
  | 0, _, s => BusOk 3 s ∧ (readByte s).getLsbD 7 = true
  | n + 1, last, s =>
    BusOk 3 s ∧ (readByte s).getLsbD 7 = false ∧ ¬StableCount last s ∧
      RxWaitOverflows n ((readByte s).extractLsb' 0 7) (polledRx s)

/-- The answers make `n` reads of WAIT_RX_BYTES succeed, and none of them shows the overflow flag or ends it
(45_packet_protocol.md R292, 70_reset_and_hazards.md R365). -/
def RxWaitFails : Nat → BitVec 7 → State → Prop
  | 0, _, _ => True
  | n + 1, last, s =>
    BusOk 3 s ∧ (readByte s).getLsbD 7 = false ∧ ¬StableCount last s ∧
      RxWaitFails n ((readByte s).extractLsb' 0 7) (polledRx s)

/-- The last count WAIT_RX_BYTES keeps after `n` reads that did not end it (45_packet_protocol.md R292). -/
def countAfter : Nat → BitVec 7 → State → BitVec 7
  | 0, last, _ => last
  | n + 1, _, s => countAfter n ((readByte s).extractLsb' 0 7) (polledRx s)

/-- The answers make a line wait end at its read number `n`, counted from 0, and not before
(45_packet_protocol.md R301). -/
def LineEnds (level : Bool) : Nat → State → Prop
  | 0, s => (answerAt s 0).failure = none ∧ (answerAt s 0).level = level
  | n + 1, s =>
    (answerAt s 0).failure = none ∧ (answerAt s 0).level = !level ∧ LineEnds level n (issued .lineRead s)

/-- The answers make `n` reads of a line wait succeed and none of them show the level (45_packet_protocol.md R301,
70_reset_and_hazards.md R365). -/
def LineFails (level : Bool) : Nat → State → Prop
  | 0, _ => True
  | n + 1, s =>
    (answerAt s 0).failure = none ∧ (answerAt s 0).level = !level ∧ LineFails level n (issued .lineRead s)

/-- After `n` line reads. -/
def lineReads : Nat → State → State
  | 0, s => s
  | n + 1, s => lineReads n (issued .lineRead s)

/-- The state of a command that has ended with a result that is not a fault, on what `s` was
(60_exceptions.md R335). -/
def ended (r : Result) (s : State) : State := { s with result := r, done := true, phase := .ready }

/-! The laws of 42_numeric_conversion.md R221, as properties of one input or one setting. -/

/-- R221, item 1: the decoded frequency is within one step F / 2^16 of the input. -/
abbrev freqWithinStep (hz : Nat) : Prop :=
  decFreq (encFreq hz) * 2 ^ 16 < hz * 2 ^ 16 + Config.fxoscHz ∧
  hz * 2 ^ 16 < decFreq (encFreq hz) * 2 ^ 16 + Config.fxoscHz

/-- R221, item 1: the frequency word of an input survives decoding and encoding. -/
abbrev freqStable (hz : Nat) : Prop := encFreq (decFreq (encFreq hz)) = encFreq hz

/-- R221, item 2: a deviation setting survives decoding and encoding. -/
abbrev devStable (m e : Nat) : Prop := encDev (decDev m e) = (m, e)

/-- R221, item 2: the decoded deviation is within one step F * 2^e / 2^17 of the input. -/
abbrev devWithinStep (dev : Nat) : Prop :=
  decDev (encDev dev).1 (encDev dev).2 * 2 ^ 17 ≤ dev * 2 ^ 17 + Config.fxoscHz * 2 ^ (encDev dev).2 ∧
  dev * 2 ^ 17 ≤ decDev (encDev dev).1 (encDev dev).2 * 2 ^ 17 + Config.fxoscHz * 2 ^ (encDev dev).2

/-- R221, item 3: a channel setting survives decoding and encoding. -/
abbrev chanbwStable (m e : Nat) : Prop := encChanbw (decChanbw m e) = (m, e)

/-- R221, item 4: the decoded data rate is within the larger of 1 baud and one step F * 2^e / 2^28 of the input. -/
abbrev drateWithinStep (baud : Nat) : Prop :=
  decDrate (encDrate baud).1 (encDrate baud).2 * 2 ^ 28 ≤
    baud * 2 ^ 28 + max (2 ^ 28) (Config.fxoscHz * 2 ^ (encDrate baud).2) ∧
  baud * 2 ^ 28 ≤
    decDrate (encDrate baud).1 (encDrate baud).2 * 2 ^ 28 + max (2 ^ 28) (Config.fxoscHz * 2 ^ (encDrate baud).2)

/-- R221, item 4: the data-rate setting of an input survives decoding and encoding. -/
abbrev drateStable (x : Nat) : Prop := encDrate (decDrate (encDrate x).1 (encDrate x).2) = encDrate x

/-! The rounding of 42_numeric_conversion.md R211, with an exact half going down: what R220 says makes no
difference. -/

/-- The integer nearest to a/b, an exact half going down. -/
def rndHalfDown (a b : Nat) : Nat := (2 * a + b - 1) / (2 * b)

/-- The search of R214 and R216 with this rounding. -/
def encSearchHalfDown (x base top : Nat) : List Nat → Option (Nat × Nat)
  | [] => none
  | e :: es =>
    let t := rndHalfDown x (Config.fxoscHz * 2 ^ e)
    if t ≤ top then some (t - base, e) else encSearchHalfDown x base top es

/-! The invariant. -/

/-- What holds of a running command's position in every state a step leads to from one where it holds: while
a transaction is past its CsSelect the line is selected, and between transactions, once one has read, it is
deselected (10_state.md R40); a read frame has a dummy byte after its header, and a read has clocked back a byte
in the second place (40_bus_transactions.md R142); only READ_FIFO has a second transfer (R145). -/
def positionInv (pos : Position) (s : State) : Bool :=
  (pos.rx.isEmpty || decide (2 ≤ pos.rx.length)) &&
  match pos.txn with
  | none => pos.rx.isEmpty || s.cs == .deselected
  | some t =>
    (t.stage == .select || s.cs == .selected) && (!isRead s.par.chip.bits t.hdr || !t.data.isEmpty) &&
      (t.more == 0 || t.hdr == fifoReadHeader s.par.chip) && (t.stage != .more || t.more != 0)

/-- The invariant: BUF and FRAME in canonical form, and a running command's position as above. -/
def Invariant (s : State) : Bool :=
  memWf s.buf && memWf s.frame &&
  match s.phase with
  | .ready => true
  | .running pos => positionInv pos s

end Sys2Proof.Machine
end

