-- ==== Sys2Proof/Certificates/Slice0/Obligations.lean ====
section
/-! DEFINITION. The statements for the provers. Each formalises rules of spec/ about the host port, the machine as
a whole, the encodings, the codecs, the wire rows, one step of a command, or the whole run of a command.
A statement about a run takes the environment's answers as premises (00_scope.md R8). -/

open Sys2Proof Sys2Proof.Machine

/-! The host port. -/

/-- R360: block reset, from any state, in one step. The bytes of BUF and FRAME are unspecified: no index is listed
(log entry 5). The chip, the parameters and the outside are not the block's and stay, and so do the observer's lists
trace and hostReads, by the model's choice (log entry 15). -/
def Obligations.BlockResetClearsTheBlock : Prop :=
  (∀ (s : State) (rest : List Input), s.inputs = .blockReset :: rest →
    step s = .next
      { cmd := 0#8, arg0 := 0#32, arg1 := 0#32, res0 := 0#32, res1 := 0#32, res2 := 0#32, done := false,
        result := .ok, faultSeen := false, drop := false, errinfo := 0#32, buf := [], frame := [],
        cs := .deselected, phase := .ready, lastCount := 0#7, par := s.par, inputs := rest,
        answers := s.answers, draws := s.draws, memDraws := s.memDraws, trace := s.trace,
        hostReads := s.hostReads } ∧
    csLineLevel (blockReset s) = some (!s.par.csActiveLevel)) ∧
  blockReset State.reset = State.reset

/-- R361: after block reset every host register reads 0, the line is deselected, no byte of BUF has a value, and
until a host write to CMD nothing is sent and no command runs, whatever else the host does. -/
def Obligations.NothingHappensAfterReset : Prop :=
  (∀ (s : State) (offset : Nat), hostAccessOk offset 32 = true → offset < 0x40 →
    hostWord (blockReset s) offset = 0#32) ∧
  (∀ (s : State) (a : Nat), memRead (blockReset s).buf a = none ∧ memRead (blockReset s).frame a = none) ∧
  (∀ s : State, (blockReset s).phase = .ready ∧ (blockReset s).cs = .deselected) ∧
  ∀ (n : Nat) (s t : State), s.phase = .ready → s.cs = .deselected → (∀ i ∈ s.inputs, ¬CmdWrite i) →
    runSteps n s = some t →
    t.phase = .ready ∧ t.cs = .deselected ∧ t.trace = s.trace ∧ t.answers = s.answers ∧ t.draws = s.draws

/-- R101: a host write to CMD while BUSY = 0 stores OPCODE, clears DONE, sets BUSY and starts the command; every
other part of the state is as it was. While BUSY = 1 it is dropped. -/
def Obligations.CmdWriteIsAccepted : Prop :=
  ∀ (s : State) (v : Word) (rest : List Input), s.inputs = .hostWrite 0x00 32 v :: rest →
    (busy s = false →
      step s = .next { s with inputs := rest, cmd := v.extractLsb' 0 8, done := false,
                              phase := .running Position.start }) ∧
    (busy s = true → step s = .next { s with inputs := rest, drop := true })

/-- R37: while BUSY = 1 a host write to any host offset changes nothing but DROP, and a host read returns the
current contents. -/
def Obligations.BusyBlockDropsHostWrites : Prop :=
  ∀ (s : State) (offset : Nat) (v : Word) (rest : List Input), busy s = true → hostAccessOk offset 32 = true →
    (s.inputs = .hostWrite offset 32 v :: rest → step s = .next { s with inputs := rest, drop := true }) ∧
    (s.inputs = .hostRead offset 32 :: rest →
      step s = .next { s with inputs := rest, hostReads := s.hostReads ++ [hostWord s offset],
                              memDraws := s.memDraws + 1 })

/-- R71: a host read at a defined offset returns the register at that offset, 0 at a reserved one, and the four
bytes of a BUF word; a byte nothing has written is free (log entry 5). The read changes nothing else. -/
def Obligations.HostReadsReturnRegisters : Prop :=
  ∀ (s : State) (offset : Nat) (rest : List Input), hostAccessOk offset 32 = true →
    s.inputs = .hostRead offset 32 :: rest →
    ∃ w : Word,
      step s = .next { s with inputs := rest, hostReads := s.hostReads ++ [w], memDraws := s.memDraws + 1 } ∧
      (offset = 0x00 → w = 0#24 ++ s.cmd) ∧
      (offset = 0x04 → w = s.arg0) ∧
      (offset = 0x08 → w = s.arg1) ∧
      (offset = 0x0C → w = s.res0) ∧
      (offset = 0x10 → w = s.res1) ∧
      (offset = 0x14 → w = s.res2) ∧
      (offset = 0x18 → w = statusWord s) ∧
      (offset = 0x1C → w = s.errinfo) ∧
      (0x20 ≤ offset ∧ offset ≤ 0x3C → w = 0#32) ∧
      (∀ j b, 0x40 ≤ offset → j < 4 → memRead s.buf (offset - 0x40 + j) = some b → w.extractLsb' (8 * j) 8 = b)

/-- R71: a host write at a defined offset while BUSY = 0, the CMD and BUF writes left to their own statements: ARG0
and ARG1 take the value, STATUS clears what bits 8 and 9 say, every other register ignores it. -/
def Obligations.HostWritesReachRegisters : Prop :=
  ∀ (s : State) (offset : Nat) (v : Word) (rest : List Input), busy s = false → hostAccessOk offset 32 = true →
    s.inputs = .hostWrite offset 32 v :: rest →
    (offset = 0x04 → step s = .next { s with inputs := rest, arg0 := v }) ∧
    (offset = 0x08 → step s = .next { s with inputs := rest, arg1 := v }) ∧
    (offset = 0x18 →
      step s = .next { s with inputs := rest, faultSeen := s.faultSeen && !v.getLsbD 8,
                              drop := s.drop && !v.getLsbD 9 }) ∧
    (offset = 0x0C ∨ offset = 0x10 ∨ offset = 0x14 ∨ 0x1C ≤ offset ∧ offset ≤ 0x3C →
      step s = .next { s with inputs := rest })

/-- R71, R353: an access above 0x7F, at an offset that is not a multiple of 4, or of another width has no step: the
model refuses it (log entry 11). -/
def Obligations.UndefinedHostAccessIsRefused : Prop :=
  ∀ (s : State) (offset width : Nat) (v : Word) (rest : List Input),
    0x7F < offset ∨ offset % 4 ≠ 0 ∨ width ≠ 32 →
    (s.inputs = .hostRead offset width :: rest → step s = .refused (.undefinedHostAccess offset width)) ∧
    (s.inputs = .hostWrite offset width v :: rest → step s = .refused (.undefinedHostAccess offset width))

/-- R34, R330: the fields of STATUS as a host reads them, in every state, RESULT with the eight codes of R330; a
reserved result code and CS_STATE 3 are never shown. -/
def Obligations.StatusWordShowsItsFields : Prop :=
  ∀ s : State,
    (statusWord s).getLsbD 0 = busy s ∧
    (statusWord s).getLsbD 1 = s.done ∧
    (statusWord s).extractLsb' 2 2 = 0#2 ∧
    (statusWord s).extractLsb' 4 4 = (match s.result with
      | .ok => 0#4
      | .rxOverflow => 1#4
      | .crcMismatch => 2#4
      | .transportFault => 3#4
      | .lineFault => 4#4
      | .illegalCommand => 5#4
      | .badOperand => 6#4
      | .lengthOutOfRange => 7#4) ∧
    (statusWord s).getLsbD 8 = s.faultSeen ∧
    (statusWord s).getLsbD 9 = s.drop ∧
    (statusWord s).extractLsb' 10 2 = (match s.cs with
      | .deselected => 0#2
      | .selected => 1#2
      | .unknown => 2#2) ∧
    (statusWord s).extractLsb' 12 20 = 0#20 ∧
    ((statusWord s).extractLsb' 4 4).toNat < 8 ∧
    (statusWord s).extractLsb' 10 2 ≠ 3#2

/-- R72: a host write of BUF word k puts byte j of the value at index 4k + j and no other byte of BUF changes; a
read of the word gives the value back. In any state, byte j of a read of word k is the byte at that index. -/
def Obligations.BufWordsAreLittleEndian : Prop :=
  ∀ (s : State) (k : Nat) (v : Word) (rest : List Input), k < 16 → busy s = false →
    s.inputs = .hostWrite (0x40 + 4 * k) 32 v :: rest →
    ∃ m : Memory, step s = .next { s with inputs := rest, buf := m } ∧
      (∀ j < 4, memRead m (4 * k + j) = some (v.extractLsb' (8 * j) 8)) ∧
      (∀ a, a < 4 * k ∨ 4 * k + 4 ≤ a → memRead m a = memRead s.buf a) ∧
      (∀ t : State, t.buf = m → hostWord t (0x40 + 4 * k) = v) ∧
      ∀ (t : State) (j : Nat) (b : Byte), j < 4 → memRead t.buf (4 * k + j) = some b →
        (hostWord t (0x40 + 4 * k)).extractLsb' (8 * j) 8 = b

/-- R34: FAULT_SEEN and DROP stay set through every step but block reset and a host write of 1 to their bit while
BUSY = 0. -/
def Obligations.StickyFlagsStaySet : Prop :=
  ∀ s t : State, step s = .next t →
    (s.faultSeen = true → t.faultSeen = false →
      (∃ rest, s.inputs = .blockReset :: rest) ∨
      ∃ v rest, s.inputs = .hostWrite 0x18 32 v :: rest ∧ v.getLsbD 8 = true ∧ busy s = false) ∧
    (s.drop = true → t.drop = false →
      (∃ rest, s.inputs = .blockReset :: rest) ∨
      ∃ v rest, s.inputs = .hostWrite 0x18 32 v :: rest ∧ v.getLsbD 9 = true ∧ busy s = false)

/-! The machine as a whole. -/

/-- R353: every state has a next state, but where the host makes an access the block does not define. No step is
a fault, and no arm of the model is missing. -/
def Obligations.EveryStepHasASuccessor : Prop :=
  ∀ s : State, (∃ t, step s = .next t) ∨
    ∃ offset width, hostAccessOk offset width = false ∧ step s = .refused (.undefinedHostAccess offset width) ∧
      ((∃ rest, s.inputs = .hostRead offset width :: rest) ∨
        ∃ v rest, s.inputs = .hostWrite offset width v :: rest)

/-- A step runs the instruction that is decoded. Between transactions that is the command CMD[7:0] names
(30_encoding.md R101, R107). That in an open transaction each step decodes the transaction's header, for the chip's
addresses as configured, and runs that wire row is the model's choice (log entry 1, DESIGN CHOICE): the spec decodes
CMD[7:0] alone (R107) and gives the headers as encodings (R110). The same on a turn the host leaves (log entry 3, the
model's choice too). -/
def Obligations.StepRunsDecodedInstruction : Prop :=
  ∀ (s : State) (pos : Position) (i : Instr), s.phase = .running pos →
    (pos.txn = none ∧ decodeIn s.par.chip .command s.cmd = .ok i ∨
      (∃ t, pos.txn = some t ∧
        decodeIn s.par.chip (if t.data = [] then .lone else .frame) t.hdr = .ok i)) →
    (s.inputs = [] → step s = exec i s) ∧
    (∀ rest, s.inputs = .turn :: rest → step s = exec i { s with inputs := rest })

/-- Every opcode outside the map, the ranges R104 lists, ends the command with IllegalCommand (R335) at its first step
after acceptance (R101), a step of its own by the model's choice (log entry 2); nothing but RESULT, DONE and BUSY
changes. -/
def Obligations.IllegalOpcodesRaise : Prop :=
  (∀ w : Byte, (∃ e, decode .command w = .error e) ↔
    w = 0x00#8 ∨ 0x07#8 ≤ w ∧ w ≤ 0x0F#8 ∨ 0x19#8 ≤ w ∧ w ≤ 0x1F#8 ∨ 0x23#8 ≤ w ∧ w ≤ 0x2F#8 ∨
      0x32#8 ≤ w ∧ w ≤ 0x3F#8 ∨ 0x43#8 ≤ w) ∧
  ∀ (w : Byte) (s : State), (∃ e, decode .command w = .error e) → Started w s →
    step s = .next (ended .illegalCommand s)

/-- The invariant holds of the state after reset. -/
def Obligations.InvariantHoldsAtReset : Prop := Invariant State.reset = true

/-- Every step keeps the invariant, from every state where it holds: BUF and FRAME canonical; within a transaction
past its CsSelect the line is selected; between transactions, after a read, it is deselected (10_state.md R40);
every read frame has a dummy byte and every read an answer byte (40_bus_transactions.md R142); only READ_FIFO has a
second transfer (R145). -/
def Obligations.EveryStepKeepsInvariant : Prop :=
  ∀ s t : State, Invariant s = true → step s = .next t → Invariant t = true

/-- R7, R87: one step issues at most one bus primitive; it takes the next answer (log entry 4), and the
trace records both (log entry 15). -/
def Obligations.OneStepIssuesAtMostOnePrimitive : Prop :=
  ∀ s t : State, step s = .next t →
    (t.trace = s.trace ∧ t.answers = s.answers ∧ t.draws = s.draws) ∨
    ∃ p, t.trace = s.trace ++ [(p, replyTo p s)] ∧ t.answers = s.answers.tail ∧ t.draws = s.draws + 1 ∧
      busy s = true

/-- R35, R334 to R336: ERRINFO is written exactly where a primitive fails, with the failure's payload, a natural number
(log entry 13), cut to 32 bits; in the same step, by the model's choice (log entry 10), the command has ended with
TransportFault or LineFault, DONE and FAULT_SEEN set. A host write never changes it, a host read at 0x1C returns it, and
it is 0 after reset. -/
def Obligations.ErrinfoIsWrittenByFaultsOnly : Prop :=
  (∀ s t : State, step s = .next t → (∀ rest, s.inputs ≠ .blockReset :: rest) →
    (∃ p e, t.trace = s.trace ++ [(p, .fail e)] ∧ t.errinfo = BitVec.ofNat 32 e ∧ t.faultSeen = true ∧
      t.done = true ∧ t.phase = .ready ∧
      t.result = (match p with
        | .xfer _ | .wr _ => .transportFault
        | .csSelect | .csDeselect | .lineRead => .lineFault)) ∨
    (t.errinfo = s.errinfo ∧ ∀ p e, t.trace ≠ s.trace ++ [(p, .fail e)])) ∧
  (∀ s : State, hostWord s 0x1C = s.errinfo) ∧
  State.reset.errinfo = 0#32

/-- R34, R335: RESULT changes only in the step that completes a command, and then DONE = 1 and BUSY = 0; DONE
otherwise changes only by acceptance, which clears it; a running command leaves BUSY only by completion or block
reset. -/
def Obligations.ResultIsWrittenAtCompletionOnly : Prop :=
  ∀ s t : State, step s = .next t → (∀ rest, s.inputs ≠ .blockReset :: rest) →
    (busy s = true ∧ busy t = false ∧ t.done = true) ∨
    (busy t = busy s ∧ t.result = s.result ∧ t.done = s.done) ∨
    (busy s = false ∧ busy t = true ∧ t.result = s.result ∧ t.done = false)

/-- R32, R36: while a command runs, CMD, ARG0 and ARG1 do not change, but by block reset; the parameters never
do. -/
def Obligations.OperandsDoNotChangeWhileBusy : Prop :=
  ∀ s t : State, step s = .next t →
    t.par = s.par ∧
    (busy s = true → (∀ rest, s.inputs ≠ .blockReset :: rest) →
      t.cmd = s.cmd ∧ t.arg0 = s.arg0 ∧ t.arg1 = s.arg1)

/-- R6, R31: only a host write to CMD while BUSY = 0 starts a command, and it is the one CMD then names. -/
def Obligations.OnlyTheHostStartsCommands : Prop :=
  ∀ s t : State, step s = .next t → busy s = false → busy t = true →
    ∃ v rest, s.inputs = .hostWrite 0x00 32 v :: rest ∧ t.cmd = v.extractLsb' 0 8 ∧
      t.phase = .running Position.start

/-! The encodings. -/

/-- Decoding the word of a well-formed instruction at its port gives the instruction, with every base an encoding
admits, for the chip of the spec's tables (log entry 1 says which port is whose); and so does decoding the bytes of a
whole frame (30_encoding.md R102, R110 to R115). -/
def Obligations.DecodeOfEncode : Prop :=
  (∀ i : Instr, i.wf = true → decode i.port (encode i) = .ok i) ∧
  ∀ (i : Instr) (data : List Byte), i.wf = true → i.isCommand = false → (i.isStrobe = true ↔ data = []) →
    decodeFrame defaultChip (encode i :: data) = .ok i

/-- Every word decodes, at each port and for every setting of the chip's addresses (00_scope.md R9), to at most one
instruction, whose word it is: no byte is misread. For the chip of the spec's tables the instruction is well-formed:
no two rows of one port overlap (30_encoding.md R102, R104, R110 to R113; log entry 19). -/
def Obligations.EncodeOfDecode : Prop :=
  (∀ (m : ChipAddresses) (p : Port) (w : Byte) (i : Instr), decodeIn m p w = .ok i →
    encodeIn m i = w ∧ (i.isCommand = true ↔ p = .command) ∧ (i.isStrobe = true → p = .lone)) ∧
  ∀ (p : Port) (w : Byte) (i : Instr), decode p w = .ok i → encode i = w ∧ i.wf = true

/-- Words written out from the spec's encodings decode to the instructions they stand for. After reset every
instruction has the word of spec/opcode_table.json, and the registers the commands write have the addresses of
20_memory.md R76, R79: the defaults of 00_scope.md R9. -/
def Obligations.SpecWordsDecode : Prop :=
  (∀ i : Instr, encodeIn State.reset.par.chip i = encode i) ∧
  (∀ c, c = State.reset.par.chip.config →
    c.iocfg0 = 0x02#6 ∧ c.sync1 = 0x04#6 ∧ c.sync0 = 0x05#6 ∧ c.pktlen = 0x06#6 ∧ c.pktctrl1 = 0x07#6 ∧
    c.pktctrl0 = 0x08#6 ∧ c.addr = 0x09#6 ∧ c.freq2 = 0x0D#6 ∧ c.freq1 = 0x0E#6 ∧ c.freq0 = 0x0F#6 ∧
    c.mdmcfg4 = 0x10#6 ∧ c.mdmcfg3 = 0x11#6 ∧ c.mdmcfg2 = 0x12#6 ∧ c.deviatn = 0x15#6) ∧
  State.reset.par.gdoIocfg = 0x02#6 ∧ State.reset.par.chip.fifo = 0x3F#6 ∧
  decode .command 0b00000001#8 = .ok .rdreg ∧
  decode .command 0b00010010#8 = .ok .setdrate ∧
  decode .command 0b00100010#8 = .ok .gotx ∧
  decode .command 0b00110001#8 = .ok .transmit ∧
  decode .command 0b01000010#8 = .ok .lqi ∧
  decode .frame 0b10010000#8 = .ok (.hdrRead 0b010000#6) ∧
  decode .frame 0b00001101#8 = .ok (.hdrWrite 0b001101#6) ∧
  decode .frame 0b01111110#8 = .ok (.hdrBurstWrite 0b111110#6) ∧
  decode .frame 0b11000101#8 = .ok (.hdrReadBurst 0b000101#6) ∧
  decode .frame 0b11111111#8 = .ok .fifoBurstRead ∧
  decode .lone 0b00110110#8 = .ok .sidle ∧
  decode .frame 0b11110101#8 = .ok .rdMarcstate

/-- R110, R114: the read bit and the burst bit are the bits 7 and 6, one each; the three header properties hold, for
every base and either placing of the two bits, and with the bits that the parameters have after reset. -/
def Obligations.HeadersDifferInOneBit : Prop :=
  (∀ (l : HeaderBits) (b : Base),
    (hdrReadBit l = 0x80#8 ∧ hdrBurstBit l = 0x40#8 ∨ hdrReadBit l = 0x40#8 ∧ hdrBurstBit l = 0x80#8) ∧
    hdrReadOf l (configId b) ^^^ hdrWriteOf l b = hdrReadBit l ∧
    hdrBurstWriteOf l b ^^^ hdrWriteOf l b = hdrBurstBit l ∧
    hdrReadOf l (statusId b) ^^^ hdrReadOf l (configId b) = hdrBurstBit l) ∧
  ∀ (l : HeaderBits) (b : Base), l = State.reset.par.chip.bits →
    hdrReadOf l (configId b) ^^^ hdrWriteOf l b = 0x80#8 ∧
    hdrBurstWriteOf l b ^^^ hdrWriteOf l b = 0x40#8 ∧
    hdrReadOf l (statusId b) ^^^ hdrReadOf l (configId b) = 0x40#8

/-! The codecs. -/

/-- R173: the five laws of the field operations, for every byte, every field and all values; the last two for every
other field that shares no bit with the first. -/
def Obligations.FieldLaws : Prop :=
  ∀ (raw : Byte) (f : Field) (v u : Nat), fieldOk f →
    fieldExtract (fieldInsert raw f v) f = BitVec.ofNat 8 (v % 2 ^ f.w) ∧
    fieldInsert raw f v &&& ~~~fieldMask f = raw &&& ~~~fieldMask f ∧
    fieldInsert (fieldInsert raw f v) f u = fieldInsert raw f u ∧
    ∀ g : Field, fieldOk g → fieldsDisjoint f g →
      fieldInsert (fieldInsert raw f v) g u = fieldInsert (fieldInsert raw g u) f v ∧
      fieldExtract (fieldInsert raw g u) f = fieldExtract raw f

/-- R174: the byte MODIFY_REG writes for a list of fields that share no bit is the builder's byte over the byte
read, and the mask holds the fields' bits and no other. -/
def Obligations.ReadModifyWriteIsBuild : Prop :=
  ∀ (old : Byte) (fs : List (Field × Nat)), (∀ fv ∈ fs, fieldOk fv.1) →
    fs.Pairwise (fun a b => fieldsDisjoint a.1 b.1) →
    modifyByte old (rmwMask fs) (rmwValue fs) = fieldBuild old fs ∧
    ∀ j < 8, (rmwMask fs).getLsbD j = true ↔ ∃ fv ∈ fs, fv.1.off ≤ j ∧ j < fv.1.off + fv.1.w

/-- R212, R221: the frequency word fits 24 bits and its largest value is the rule's; decoding it is within one
step F / 2^16 of the frequency, and encoding that again gives the same word. -/
def Obligations.FrequencyRoundTrip : Prop :=
  encFreq (2 ^ 32 - 1) = 0xA530E9 ∧
  ∀ hz : Nat, hz < 2 ^ 32 →
    encFreq hz < 2 ^ 24 ∧
    freqWithinStep hz ∧
    freqStable hz

/-- R216, R221: every mantissa and exponent of the deviation survives decoding and encoding; within the
representable range the decoded value is within one step of the input; outside it the input clamps. -/
def Obligations.DeviationRoundTrip : Prop :=
  (∀ m < 8, ∀ e < 8, devStable m e) ∧
  (∀ dev : Nat, 1587 ≤ dev → dev ≤ 380859 → devWithinStep dev) ∧
  (∀ dev < 1587, encDev dev = (0, 0)) ∧
  ∀ dev, 380859 < dev → encDev dev = (7, 7)

/-- R218, R221: the channel setting is the narrowest of the sixteen that is at least as wide as the request, or the
widest where none is; every setting survives decoding and encoding. -/
def Obligations.ChannelBandwidthCoversRequest : Prop :=
  (∀ m < 4, ∀ e < 4, chanbwStable m e) ∧
  (∀ bw m e : Nat, encChanbw bw = (m, e) → m < 4 ∧ e < 4 ∧
    (bw ≤ 812500 → bw * (8 * (4 + m) * 2 ^ e) ≤ Config.fxoscHz ∧
      ∀ m' < 4, ∀ e' < 4, 4 * e + m < 4 * e' + m' → Config.fxoscHz < bw * (8 * (4 + m') * 2 ^ e')) ∧
    (812500 < bw → m = 0 ∧ e = 0))

/-- R214: the data-rate exponent is the smallest at which the nearest encoded value is at most 511, the mantissa is
that value less 256, and both clamps are the rule's. -/
def Obligations.DataRateTakesSmallestExponent : Prop :=
  ∀ baud m e : Nat, encDrate baud = (m, e) →
    m < 256 ∧ e < 16 ∧
    (∀ e' < e, 511 < rnd (baud * 2 ^ 28) (Config.fxoscHz * 2 ^ e')) ∧
    (rnd (baud * 2 ^ 28) (Config.fxoscHz * 2 ^ e) ≤ 511 →
      m = rnd (baud * 2 ^ 28) (Config.fxoscHz * 2 ^ e) - 256 ∧
      (0 < e → 256 ≤ rnd (baud * 2 ^ 28) (Config.fxoscHz * 2 ^ e))) ∧
    (511 < rnd (baud * 2 ^ 28) (Config.fxoscHz * 2 ^ e) → m = 255 ∧ e = 15)

/-- R221: within the representable range the decoded data rate is within the larger of 1 baud and one step of the
input; decoding and encoding are stable for every rate from 793 up, where the exponent is 5 or more, and for every
rate up to 24; of the 768 rates between, 247 are not stable. -/
def Obligations.DataRateRoundTrip : Prop :=
  (∀ baud : Nat, 25 ≤ baud → baud ≤ 1621826 → drateWithinStep baud) ∧
  (∀ x : Nat, x ≤ 24 ∨ 793 ≤ x → drateStable x) ∧
  (∀ x : Nat, 793 ≤ x → 5 ≤ (encDrate x).2) ∧
  ((List.range' 25 768).filter fun x => ¬drateStable x).length = 247

/-- R222: the four encoders are monotone, and the channel setting is at least as wide as the request up to
812 500 Hz. -/
def Obligations.EncodersAreMonotone : Prop :=
  (∀ a b : Nat, a ≤ b → encFreq a ≤ encFreq b) ∧
  (∀ a b : Nat, a ≤ b → decDrate (encDrate a).1 (encDrate a).2 ≤ decDrate (encDrate b).1 (encDrate b).2) ∧
  (∀ a b : Nat, a ≤ b → decDev (encDev a).1 (encDev a).2 ≤ decDev (encDev b).1 (encDev b).2) ∧
  (∀ a b : Nat, a ≤ b → decChanbw (encChanbw a).1 (encChanbw a).2 ≤ decChanbw (encChanbw b).1 (encChanbw b).2) ∧
  ∀ w ≤ 812500, w ≤ decChanbw (encChanbw w).1 (encChanbw w).2

/-- R220: the tie-break never fires, for any integer input, in the frequency, data-rate and deviation encoders: at
every call of `rnd` they make, and in what they give, an exact half that went down instead of up would change nothing.
The two roundings do differ where there is a half, as at 1/2. -/
def Obligations.TieBreakNeverFires : Prop :=
  (∀ x : Nat,
    encFreq x = rndHalfDown (x * 2 ^ 16) Config.fxoscHz ∧
    (∀ e < 16, rnd (x * 2 ^ 28) (Config.fxoscHz * 2 ^ e) = rndHalfDown (x * 2 ^ 28) (Config.fxoscHz * 2 ^ e)) ∧
    encDrate x = (encSearchHalfDown (x * 2 ^ 28) 256 511 (List.range 16)).getD (255, 15) ∧
    (∀ e < 8, rnd (x * 2 ^ 17) (Config.fxoscHz * 2 ^ e) = rndHalfDown (x * 2 ^ 17) (Config.fxoscHz * 2 ^ e)) ∧
    encDev x = (encSearchHalfDown (x * 2 ^ 17) 8 15 (List.range 8)).getD (7, 7)) ∧
  rnd 1 2 = 1 ∧ rndHalfDown 1 2 = 0

/-- R323: the dBm value is the signed byte halved toward zero, less the offset; it does not fall as the byte rises
within either segment, and with the offset 74 it lies between -138 and -11. -/
def Obligations.RssiConversion : Prop :=
  ∀ (offset : Int) (r : Byte),
    rssiToDbm offset r = r.toInt.tdiv 2 - offset ∧
    (∀ r' : Byte, r.toNat ≤ r'.toNat → (r'.toNat < 128 ∨ 128 ≤ r.toNat) →
      rssiToDbm offset r ≤ rssiToDbm offset r') ∧
    -138 ≤ rssiToDbm 74 r ∧ rssiToDbm 74 r ≤ -11

/-! The wire rows. -/

/-- R40, R115: every wire row opens its transaction with CsSelect and ends it with CsDeselect, which set the
record of the line. -/
def Obligations.WireRowsSelectAndDeselect : Prop :=
  ∀ (i : Instr) (t : Txn) (pos : Position) (s : State), i.isCommand = false → InTxn t pos s → BusOk 1 s →
    (t.stage = .select →
      exec i s = .next { answered .csSelect .done s with
        cs := .selected, phase := .running { pos with txn := some { t with stage := .send } } }) ∧
    (t.stage = .deselect →
      exec i s = .next { answered .csDeselect .done s with
        cs := .deselected, phase := .running { pos with txn := none } })

/-- R113, R143, R144, R146: a strobe row sends its code alone, a write row its header and the data after it, each
by one Wr. -/
def Obligations.StrobeAndWriteRowsSend : Prop :=
  ∀ (i : Instr) (t : Txn) (pos : Position) (s : State), InTxn t pos s → t.stage = .send → BusOk 1 s →
    (i.isStrobe = true →
      exec i s = .next { answered (.wr [encodeIn s.par.chip i]) .done s with
        phase := .running { pos with txn := some { t with stage := .deselect } } }) ∧
    (i.isWireWrite = true →
      exec i s = .next { answered (.wr (encodeIn s.par.chip i :: t.data)) .done s with
        phase := .running { pos with txn := some { t with stage := .deselect } } })

/-- R111, R112, R142: a row that reads one byte sends its header and a dummy byte by one Xfer, and keeps the two
bytes clocked back, which the environment gives (log entries 4, 18). -/
def Obligations.ReadRowsSend : Prop :=
  ∀ (i : Instr) (t : Txn) (pos : Position) (s : State),
    ((∃ a, i = .hdrRead a ∨ i = .hdrReadBurst a) ∨ i = .fifoSingleRead ∨ i.isStatusRead = true) →
    InTxn t pos s → t.stage = .send → BusOk 1 s →
    exec i s = .next
      { answered (.xfer [encodeIn s.par.chip i, 0x00#8]) (.bytes [chipByte s 0 0, chipByte s 0 1]) s with
        phase := .running { pos with rx := [chipByte s 0 0, chipByte s 0 1],
                                     txn := some { t with stage := .deselect } } }

/-- R112, R145: the FIFO burst read sends its header and its dummy bytes, then, unless it has none, its second
transfer in the same assertion of the line. -/
def Obligations.FifoBurstReadSends : Prop :=
  ∀ (t : Txn) (pos : Position) (s : State), InTxn t pos s → BusOk 1 s →
    (t.stage = .send →
      exec .fifoBurstRead s = .next
        { answered (.xfer (burstReadHeader s.par.chip.fifo s :: t.data))
            (.bytes (clockedBytes s 0 (t.data.length + 1))) s with
          phase := .running { pos with rx := clockedBytes s 0 (t.data.length + 1),
                                       txn := some { t with stage := if t.more = 0 then .deselect else .more } } }) ∧
    (t.stage = .more →
      exec .fifoBurstRead s = .next
        { answered (.xfer (List.replicate t.more 0x00#8)) (.bytes (clockedBytes s 0 t.more)) s with
          phase := .running { pos with payload := clockedBytes s 0 t.more,
                                       txn := some { t with stage := .deselect } } })

/-- R334, R336, R148: where a primitive fails, of any wire row at any stage or of a line wait, the command ends at
once: TransportFault for a transfer, LineFault for a line; ERRINFO takes the payload; the record of the line becomes
Unknown for a failed CS primitive and is else unchanged; nothing else is sent. In every state where the invariant
holds, unchanged means Selected for a transfer, and Deselected for a line read of a command that has read a byte before
it, as TRANSMIT always has. That the failure and the end of the command are one step is the model's choice (log entry
10). -/
def Obligations.FailedPrimitiveEndsCommand : Prop :=
  (resultCode .transportFault = 3#4 ∧ resultCode .lineFault = 4#4) ∧
  (∀ (t : Txn) (pos : Position) (s : State), InTxn t pos s → Invariant s = true →
    t.stage = .send ∨ t.stage = .more → s.cs = .selected) ∧
  (∀ (level : Bool) (rest : List Call) (pos : Position) (s : State), AtCall (.lineWait level) rest pos s →
    Invariant s = true → pos.rx ≠ [] → s.cs = .deselected) ∧
  (∀ (i : Instr) (t : Txn) (pos : Position) (s : State) (e : Nat), i.isCommand = false → InTxn t pos s →
    (answerAt s 0).failure = some e →
    exec i s = .next
      { answered (wirePrim s.par.chip i t) (.fail e) s with
        errinfo := BitVec.ofNat 32 e, faultSeen := true, done := true, phase := .ready,
        result := if t.stage = .select ∨ t.stage = .deselect then .lineFault else .transportFault,
        cs := if t.stage = .select ∨ t.stage = .deselect then .unknown else s.cs }) ∧
  ∀ (i : Instr) (level : Bool) (rest : List Call) (pos : Position) (s : State) (e : Nat), i.isCommand = true →
    AtCall (.lineWait level) rest pos s → (answerAt s 0).failure = some e →
    exec i s = .next
      { answered .lineRead (.fail e) s with
        errinfo := BitVec.ofNat 32 e, faultSeen := true, done := true, phase := .ready, result := .lineFault }

/-- The frame of the wire rows: no host register, no byte of BUF or FRAME, no flag but those of a failed primitive
changes (10_state.md R33, R38, R39, R41; 40_bus_transactions.md R149). -/
def Obligations.WireRowsFrame : Prop :=
  ∀ (i : Instr) (s t : State), i.isCommand = false → exec i s = .next t →
    t.cmd = s.cmd ∧ t.arg0 = s.arg0 ∧ t.arg1 = s.arg1 ∧ t.res0 = s.res0 ∧ t.res1 = s.res1 ∧ t.res2 = s.res2 ∧
    t.drop = s.drop ∧ t.lastCount = s.lastCount ∧ t.par = s.par ∧ t.inputs = s.inputs ∧
    t.memDraws = s.memDraws ∧ t.hostReads = s.hostReads ∧
    (∀ a, memRead t.buf a = memRead s.buf a) ∧ (∀ a, memRead t.frame a = memRead s.frame a) ∧
    ((answerAt s 0).failure = none →
      t.errinfo = s.errinfo ∧ t.faultSeen = s.faultSeen ∧ t.result = s.result ∧ t.done = s.done)

/-! One step of a command. -/

/-- R150 to R155: the raw access commands, block by block, a block being one step (log entry 2). A read command ends
with the byte read in RES0; RDFIFO with the payload in BUF, the length in RES0 and the address in RES1; MODREG with
the old byte in RES0 and the new one in RES1; the others change STATUS alone. -/
def Obligations.RawCommandBlocks : Prop :=
  ∀ (pos : Position) (s : State),
    (AtBlock 0 pos s →
      exec .rdreg s = .next (callThen 1 [.readReg (s.arg0.extractLsb' 0 7)] pos s) ∧
      exec .wrreg s = .next (callThen 1 [.writeReg (s.arg0.extractLsb' 0 6) (s.arg1.extractLsb' 0 8)] pos s) ∧
      exec .strobe s = .next (callThen 1 [.strobe (s.arg0.extractLsb' 0 6)] pos s) ∧
      ((s.arg0.extractLsb' 0 7).toNat ≤ 64 →
        exec .rdfifo s = .next (callThen 1 [.readFifo (s.arg0.extractLsb' 0 7).toNat] pos s)) ∧
      ((s.arg1.extractLsb' 0 7).toNat ≤ 64 →
        exec .wrburst s = .next (callThen 1
          [.writeBurst (s.arg0.extractLsb' 0 6) (memBytes s.buf s.memDraws 0 (s.arg1.extractLsb' 0 7).toNat)] pos
          { s with memDraws := s.memDraws + 1 })) ∧
      exec .modreg s = .next (callThen 1
        [.modifyReg (s.arg0.extractLsb' 0 6) (s.arg1.extractLsb' 0 8) (s.arg1.extractLsb' 8 8)] pos s)) ∧
    (AtBlock 1 pos s →
      (∀ x v, pos.rx = [x, v] → exec .rdreg s = .next (ended .ok { s with res0 := v.setWidth 32 })) ∧
      exec .wrreg s = .next (ended .ok s) ∧
      exec .strobe s = .next (ended .ok s) ∧
      (∀ x len addr, pos.rx = [x, len, addr] → pos.payload.length = (s.arg0.extractLsb' 0 7).toNat →
        exec .rdfifo s = .next (ended .ok
          { s with buf := memWriteList s.buf 0 pos.payload, res0 := len.setWidth 32, res1 := addr.setWidth 32 })) ∧
      exec .wrburst s = .next (ended .ok s) ∧
      exec .modreg s = .next (ended .ok { s with res0 := pos.old.setWidth 32, res1 := pos.new.setWidth 32 }))

/-- R240 to R248: the configuration commands, block by block, a block being one step (log entry 2). The first block
makes the writes and the read-modify-writes of the command's fields; the last writes the encoded values to RES0 and
RES1. -/
def Obligations.ConfigurationCommandBlocks : Prop :=
  ∀ (pos : Position) (s : State),
    (AtBlock 0 pos s →
      exec .setfreq s = .next (callThen 1
        [.writeReg s.par.chip.config.freq0 (BitVec.ofNat 8 (encFreq s.arg0.toNat)),
         .writeReg s.par.chip.config.freq1 (BitVec.ofNat 8 (encFreq s.arg0.toNat / 2 ^ 8)),
         .writeReg s.par.chip.config.freq2 (BitVec.ofNat 8 (encFreq s.arg0.toNat / 2 ^ 16))] pos s) ∧
      exec .setdev s = .next (callThen 1
        [.writeReg s.par.chip.config.deviatn (fieldBuild s.par.defDeviatn
          [(⟨0, 3⟩, (encDev s.arg0.toNat).1), (⟨4, 3⟩, (encDev s.arg0.toNat).2)])] pos s) ∧
      exec .setdrate s = .next (callThen 1
        [.modifyReg s.par.chip.config.mdmcfg4 0x0F#8 (BitVec.ofNat 8 (encDrate s.arg0.toNat).2),
         .writeReg s.par.chip.config.mdmcfg3 (BitVec.ofNat 8 (encDrate s.arg0.toNat).1)] pos s) ∧
      exec .setchanbw s = .next (callThen 1
        [.modifyReg s.par.chip.config.mdmcfg4 0xF0#8
          (BitVec.ofNat 8 ((encChanbw s.arg0.toNat).2 * 64 + (encChanbw s.arg0.toNat).1 * 16))] pos s) ∧
      (∀ mode, (s.arg0.extractLsb' 0 2, mode) ∈ [(0#2, 0#8), (1#2, 1#8), (2#2, 3#8), (3#2, 2#8)] →
        exec .setsync s = .next (callThen 1
          [.modifyReg s.par.chip.config.mdmcfg2 0x07#8 mode,
           .writeReg s.par.chip.config.sync1
             (if s.arg0.extractLsb' 0 2 = 0#2 then s.par.defSync1 else s.arg1.extractLsb' 8 8),
           .writeReg s.par.chip.config.sync0
             (if s.arg0.extractLsb' 0 2 = 0#2 then s.par.defSync0 else s.arg1.extractLsb' 0 8)] pos s)) ∧
      (∀ code, (s.arg0.extractLsb' 0 3, code) ∈
          [(0#3, 0x00#8), (1#3, 0x10#8), (2#3, 0x30#8), (3#3, 0x40#8), (4#3, 0x70#8)] →
        exec .setmod s = .next (callThen 1 [.modifyReg s.par.chip.config.mdmcfg2 0x70#8 code] pos s)) ∧
      exec .setaddrfilt s = .next (callThen 1
        [.modifyReg s.par.chip.config.pktctrl1 0x03#8 ((s.arg0.extractLsb' 0 2).setWidth 8),
         .writeReg s.par.chip.config.addr
           (if s.arg0.extractLsb' 0 2 = 0#2 then s.par.defAddr else s.arg1.extractLsb' 0 8)] pos s) ∧
      (s.arg0.extractLsb' 0 2 ≠ 3#2 →
        exec .setpktlen s = .next (callThen 1
          [.modifyReg s.par.chip.config.pktctrl0 0x03#8 ((s.arg0.extractLsb' 0 2).setWidth 8),
           .writeReg s.par.chip.config.pktlen
             (if s.arg0.extractLsb' 0 2 = 2#2 then s.par.defPktlen else s.arg1.extractLsb' 0 8)] pos s)) ∧
      exec .setdefaults s = .next (callThen 1 (s.par.baseline.map fun bv => .writeReg bv.1 bv.2) pos s)) ∧
    (AtBlock 1 pos s →
      exec .setfreq s = .next (ended .ok { s with res0 := BitVec.ofNat 32 (encFreq s.arg0.toNat) }) ∧
      exec .setdev s = .next (ended .ok
        { s with res0 := BitVec.ofNat 32 (encDev s.arg0.toNat).1, res1 := BitVec.ofNat 32 (encDev s.arg0.toNat).2 }) ∧
      exec .setdrate s = .next (ended .ok
        { s with res0 := BitVec.ofNat 32 (encDrate s.arg0.toNat).1,
                 res1 := BitVec.ofNat 32 (encDrate s.arg0.toNat).2 }) ∧
      exec .setchanbw s = .next (ended .ok
        { s with res0 := BitVec.ofNat 32 (encChanbw s.arg0.toNat).1,
                 res1 := BitVec.ofNat 32 (encChanbw s.arg0.toNat).2 }) ∧
      ∀ i ∈ [Instr.setsync, .setmod, .setaddrfilt, .setpktlen, .setdefaults], exec i s = .next (ended .ok s))

/-- R274 to R276, R290, R298, R320 to R322: the radio, packet and readout commands, block by block,
a block being one step (log entry 2). -/
def Obligations.RadioPacketReadoutBlocks : Prop :=
  ∀ (pos : Position) (s : State),
    (AtBlock 0 pos s →
      exec .goidle s = .next (callThen 1 [.goTo .idle] pos s) ∧
      exec .gorx s = .next (callThen 1 [.goTo .rx] pos s) ∧
      exec .gotx s = .next (callThen 1 [.goTo .tx] pos s) ∧
      ((s.arg0.extractLsb' 0 7).toNat ≤ 64 →
        exec .receive s = .next (callThen 1 [.waitRxBytes, .readFifo (s.arg0.extractLsb' 0 7).toNat] pos s)) ∧
      exec .hwinfo s = .next (callThen 1 [.readReg (statusId s.par.chip.status.partnum)] pos s) ∧
      exec .rssi s = .next (callThen 1 [.readReg (statusId s.par.chip.status.rssi)] pos s) ∧
      exec .lqi s = .next (callThen 1 [.readReg (statusId s.par.chip.status.lqi)] pos s)) ∧
    (AtBlock 1 pos s →
      (∀ i ∈ [Instr.goidle, .gorx, .gotx], exec i s = .next (ended .ok s)) ∧
      (∀ x len addr, pos.rx = [x, len, addr] → pos.payload.length = (s.arg0.extractLsb' 0 7).toNat →
        exec .receive s = .next (callThen 2 [.readReg (statusId s.par.chip.status.lqi)] pos
          { s with buf := memWriteList s.buf 0 pos.payload, res0 := len.setWidth 32, res1 := addr.setWidth 32 })) ∧
      exec .transmit s = .next (callThen 2
        [.writeBurst s.par.chip.fifo (memBytes s.frame s.memDraws 0 ((s.arg0.extractLsb' 0 8).toNat + 1)),
         .writeReg s.par.gdoIocfg (s.par.gdoCfgEop.setWidth 8), .goTo .tx, .lineWait true, .lineWait false,
         .goTo .idle] pos
        { s with memDraws := s.memDraws + 1 }) ∧
      (∀ x v, pos.rx = [x, v] →
        exec .hwinfo s = .next (callThen 2 [.readReg (statusId s.par.chip.status.version)] { pos with p := v } s) ∧
        exec .rssi s = .next (ended .ok
          { s with res0 := BitVec.ofInt 32 (rssiToDbm s.par.rssiOffset v), res1 := v.setWidth 32 }) ∧
        exec .lqi s = .next (ended .ok
          { s with res0 := (v &&& 0x7F#8).setWidth 32, res1 := v.setWidth 32 }))) ∧
    (AtBlock 2 pos s →
      exec .transmit s = .next (ended .ok s) ∧
      (∀ x v, pos.rx = [x, v] →
        exec .hwinfo s = .next (ended .ok { s with res0 := pos.p.setWidth 32, res1 := v.setWidth 32 }) ∧
        exec .receive s = .next (callThen 3 [.goTo .idle, .strobe s.par.chip.strobes.sfrx] { pos with q := v }
          { s with res2 := v.setWidth 32 }))) ∧
    (AtBlock 3 pos s →
      exec .receive s = .next (ended (if pos.q.getLsbD 7 then .ok else .crcMismatch) s))

/-- R142 to R147, R271, R272, R292: what a command does with the subroutine call it stands before: the frame it
opens, the calls it stands for, or what it decides on the byte read, a step each (log entry 2). -/
def Obligations.SubroutineCalls : Prop :=
  ∀ (i : Instr) (c : Call) (rest : List Call) (pos : Position) (s : State), i.isCommand = true →
    AtCall c rest pos s →
    (∀ id, c = .readReg id → exec i s = .next (setPos { pos with
      calls := rest,
      txn := some
        ⟨if id.getLsbD 6 then burstReadHeader (id.setWidth 6) s else singleReadHeader (id.setWidth 6) s, [0x00#8], 0,
          .select⟩ } s)) ∧
    (∀ a v, c = .writeReg a v → exec i s = .next (setPos { pos with
      calls := rest, txn := some ⟨a.setWidth 8, [v], 0, .select⟩ } s)) ∧
    (∀ a, c = .strobe a → exec i s = .next (setPos { pos with
      calls := rest, txn := some ⟨a.setWidth 8, [], 0, .select⟩ } s)) ∧
    (∀ n, c = .readFifo n → exec i s = .next (setPos { pos with
      calls := rest, payload := [],
      txn := some ⟨burstReadHeader s.par.chip.fifo s, [0x00#8, 0x00#8], n, .select⟩ } s)) ∧
    (∀ a bytes, c = .writeBurst a bytes → exec i s = .next (setPos { pos with
      calls := rest, txn := some ⟨burstWriteHeader a s, bytes, 0, .select⟩ } s)) ∧
    (∀ a mask value, c = .modifyReg a mask value → exec i s = .next (setPos { pos with
      calls := .readReg (a.setWidth 7) :: .modifyWrite a mask value :: rest } s)) ∧
    (∀ a mask value x v, c = .modifyWrite a mask value → pos.rx = [x, v] → exec i s = .next (setPos { pos with
      calls := .writeReg a ((v &&& ~~~mask) ||| (value &&& mask)) :: rest, old := v,
      new := (v &&& ~~~mask) ||| (value &&& mask) } s)) ∧
    (∀ code, c = .awaitState code → exec i s = .next (setPos { pos with
      calls := .readReg (statusId s.par.chip.status.marcstate) :: .awaitTest code :: rest } s)) ∧
    (∀ code x v, c = .awaitTest code → pos.rx = [x, v] → exec i s = .next (setPos { pos with
      calls := if v &&& s.par.marcMask = code.setWidth 8 then rest else .awaitState code :: rest } s)) ∧
    (c = .goTo .idle → exec i s = .next (setPos { pos with
      calls := .strobe s.par.chip.strobes.sidle :: .awaitState s.par.marcIdle :: rest } s)) ∧
    (c = .goTo .rx → exec i s = .next (setPos { pos with
      calls := .goTo .idle :: .strobe s.par.chip.strobes.srx :: .awaitState s.par.marcRx :: rest } s)) ∧
    (c = .goTo .tx → exec i s = .next (setPos { pos with
      calls := .goTo .idle :: .strobe s.par.chip.strobes.stx :: .awaitState s.par.marcTx :: rest } s)) ∧
    (c = .waitRxBytes → exec i s = .next (setPos { pos with
      calls := .readReg (statusId s.par.chip.status.rxbytes) :: .rxTest :: rest } { s with lastCount := 0#7 })) ∧
    (∀ x v, c = .rxTest → pos.rx = [x, v] →
      (v.getLsbD 7 = true → exec i s = .next (setPos { pos with
        calls := .strobe s.par.chip.strobes.sfrx :: .rxOverflow :: rest } s)) ∧
      (v.getLsbD 7 = false → v.extractLsb' 0 7 ≠ 0#7 → v.extractLsb' 0 7 = s.lastCount →
        exec i s = .next (setPos { pos with calls := rest } s)) ∧
      (v.getLsbD 7 = false → (v.extractLsb' 0 7 = 0#7 ∨ v.extractLsb' 0 7 ≠ s.lastCount) →
        exec i s = .next (setPos { pos with calls := .readReg (statusId s.par.chip.status.rxbytes) :: .rxTest :: rest }
          { s with lastCount := v.extractLsb' 0 7 }))) ∧
    (c = .rxOverflow → exec i s = .next (ended .rxOverflow s)) ∧
    (∀ level, c = .lineWait level → BusOk 1 s → exec i s = .next
      (setPos { pos with calls := if (answerAt s 0).level = level then rest else .lineWait level :: rest }
        (answered .lineRead (.level (answerAt s 0).level) s)))

/-- R105, R335: an operand out of range ends the command with BadOperand before any primitive; nothing but RESULT, DONE
and BUSY changes. That the check and the completion are one block and one step is the model's choice (log entries 2,
10). SETSYNC and SETADDRFILT refuse no selector. -/
def Obligations.OperandChecksRaise : Prop :=
  ∀ (pos : Position) (s : State), AtBlock 0 pos s →
    (64 < (s.arg0.extractLsb' 0 7).toNat →
      exec .rdfifo s = .next (ended .badOperand s) ∧ exec .receive s = .next (ended .badOperand s)) ∧
    (64 < (s.arg1.extractLsb' 0 7).toNat → exec .wrburst s = .next (ended .badOperand s)) ∧
    (5#3 ≤ s.arg0.extractLsb' 0 3 → exec .setmod s = .next (ended .badOperand s)) ∧
    (s.arg0.extractLsb' 0 2 = 3#2 → exec .setpktlen s = .next (ended .badOperand s)) ∧
    ∀ i ∈ [Instr.setsync, .setaddrfilt], ∃ calls, exec i s = .next (callThen 1 calls pos s)

/-- R298 to R300, R304: TRANSMIT of 0 or of 62 to 255 bytes issues no primitive and ends with Ok, or with
LengthOutOfRange where the parameter says so, which by default it does not; any other length is put into FRAME, length
byte first, and the line function, IDLE, SFTX and RX come next, a block being one step by the model's choice (log
entry 2). A payload byte the host has not written is free (log entry 5). -/
def Obligations.TransmitLengthGate : Prop :=
  State.reset.par.reportLengthError = false ∧
  ∀ (pos : Position) (s : State) (n : Nat), AtBlock 0 pos s → n = (s.arg0.extractLsb' 0 8).toNat →
    (n = 0 ∨ 62 ≤ n →
      exec .transmit s = .next (ended (if s.par.reportLengthError then .lengthOutOfRange else .ok) s)) ∧
    (0 < n → n < 62 → ∃ m : Memory,
      exec .transmit s = .next (callThen 1
        [.writeReg s.par.gdoIocfg (s.par.gdoCfgSync.setWidth 8), .goTo .idle, .strobe s.par.chip.strobes.sftx,
         .goTo .rx] pos
        { s with frame := m, memDraws := s.memDraws + 1 }) ∧
      memRead m 0 = some (BitVec.ofNat 8 n) ∧
      (∀ j < n, ∃ b, memRead m (1 + j) = some b ∧ ∀ c, memRead s.buf j = some c → b = c) ∧
      ∀ a, n < a → memRead m a = memRead s.frame a)

/-- The frame of the commands: CMD, ARG0, ARG1, DROP and the record of the line never change; a result register, a
byte of BUF or FRAME changes only by the commands that 30_encoding.md R103 and 10_state.md R38, R39 name for it, and
of BUF only the first n bytes; ERRINFO, FAULT_SEEN, the trace and the answers change only where a line wait reads
the line. -/
def Obligations.CommandsFrame : Prop :=
  ∀ (i : Instr) (s t : State), i.isCommand = true → exec i s = .next t →
    t.cmd = s.cmd ∧ t.arg0 = s.arg0 ∧ t.arg1 = s.arg1 ∧ t.drop = s.drop ∧ t.cs = s.cs ∧ t.par = s.par ∧
    t.inputs = s.inputs ∧ t.hostReads = s.hostReads ∧
    (i ∉ [Instr.rdreg, .rdfifo, .modreg, .setfreq, .setdev, .setdrate, .setchanbw, .receive, .hwinfo, .rssi, .lqi] →
      t.res0 = s.res0) ∧
    (i ∉ [Instr.rdfifo, .modreg, .setdev, .setdrate, .setchanbw, .receive, .hwinfo, .rssi, .lqi] →
      t.res1 = s.res1) ∧
    (i ≠ .receive → t.res2 = s.res2) ∧
    (∀ a, (i ∉ [Instr.rdfifo, .receive] ∨ (s.arg0.extractLsb' 0 7).toNat ≤ a) →
      memRead t.buf a = memRead s.buf a) ∧
    (∀ a, (i ≠ .transmit ∨ (s.arg0.extractLsb' 0 8).toNat < a) → memRead t.frame a = memRead s.frame a) ∧
    ((∀ pos level rest, ¬AtCall (.lineWait level) rest pos s) →
      t.errinfo = s.errinfo ∧ t.faultSeen = s.faultSeen ∧ t.trace = s.trace ∧ t.answers = s.answers ∧
      t.draws = s.draws)

/-! Whole runs of commands. -/

/-- R151, R152, R154: WRREG, STROBE and WRBURST from acceptance to completion: one write frame, and Ok. -/
def Obligations.RawWriteCommandsRun : Prop :=
  ∀ s : State, BusOk 3 s →
    (Started 0x02#8 s → Reaches s (ended .ok
      (sentWriteReg (s.arg0.extractLsb' 0 6) (s.arg1.extractLsb' 0 8) s))) ∧
    (Started 0x03#8 s → Reaches s (ended .ok (sentStrobe (s.arg0.extractLsb' 0 6) s))) ∧
    (Started 0x05#8 s → (s.arg1.extractLsb' 0 7).toNat ≤ 64 → Reaches s (ended .ok
      { sentWrite (burstWriteHeader (s.arg0.extractLsb' 0 6) s ::
          memBytes s.buf s.memDraws 0 (s.arg1.extractLsb' 0 7).toNat) s with memDraws := s.memDraws + 1 }))

/-- R150, R153, R155: RDREG, RDFIFO and MODREG from acceptance to completion: their frames, and the bytes read in
RES0, RES1 and BUF. -/
def Obligations.RawReadCommandsRun : Prop :=
  ∀ s : State,
    (Started 0x01#8 s → BusOk 3 s → Reaches s (ended .ok
      { sentRead (if s.arg0.getLsbD 6 then burstReadHeader (s.arg0.extractLsb' 0 6) s
          else singleReadHeader (s.arg0.extractLsb' 0 6) s) s with res0 := (readByte s).setWidth 32 })) ∧
    (∀ n, Started 0x04#8 s → n = (s.arg0.extractLsb' 0 7).toNat → n ≤ 64 →
      BusOk (if n = 0 then 3 else 4) s → Reaches s (ended .ok
        { sentFifoRead n s with buf := memWriteList s.buf 0 (clockedBytes s 2 n),
                                res0 := (chipByte s 1 1).setWidth 32, res1 := (chipByte s 1 2).setWidth 32 })) ∧
    (∀ a mask value new, Started 0x06#8 s → a = s.arg0.extractLsb' 0 6 → mask = s.arg1.extractLsb' 0 8 →
      value = s.arg1.extractLsb' 8 8 → new = (readByte s &&& ~~~mask) ||| (value &&& mask) → BusOk 6 s →
      Reaches s (ended .ok
        { sentModify a mask value s with res0 := (readByte s).setWidth 32, res1 := new.setWidth 32 }))

/-- R240, R241: SETFREQ writes FREQ0, FREQ1 and FREQ2, SETDEV writes DEVIATN, and RES0 and RES1 take the encoded
values. -/
def Obligations.FrequencyAndDeviationRun : Prop :=
  ∀ s : State,
    (∀ r, Started 0x10#8 s → r = encFreq s.arg0.toNat → BusOk 9 s → Reaches s (ended .ok
      { sentWriteReg s.par.chip.config.freq2 (BitVec.ofNat 8 (r / 2 ^ 16))
          (sentWriteReg s.par.chip.config.freq1 (BitVec.ofNat 8 (r / 2 ^ 8))
            (sentWriteReg s.par.chip.config.freq0 (BitVec.ofNat 8 r) s)) with res0 := BitVec.ofNat 32 r })) ∧
    (∀ m e, Started 0x11#8 s → encDev s.arg0.toNat = (m, e) → BusOk 3 s → Reaches s (ended .ok
      { sentWriteReg s.par.chip.config.deviatn ((s.par.defDeviatn &&& 0x88#8) ||| BitVec.ofNat 8 (16 * e + m)) s with
        res0 := BitVec.ofNat 32 m, res1 := BitVec.ofNat 32 e }))

/-- R242, R243: SETDRATE rewrites the exponent bits of MDMCFG4 and writes the mantissa to MDMCFG3; SETCHANBW
rewrites the bandwidth bits of MDMCFG4; RES0 and RES1 take mantissa and exponent. -/
def Obligations.DataRateAndBandwidthRun : Prop :=
  ∀ (s : State) (m e : Nat),
    (Started 0x12#8 s → encDrate s.arg0.toNat = (m, e) → BusOk 9 s → Reaches s (ended .ok
      { sentWriteReg s.par.chip.config.mdmcfg3 (BitVec.ofNat 8 m)
          (sentModify s.par.chip.config.mdmcfg4 0x0F#8 (BitVec.ofNat 8 e) s) with
        res0 := BitVec.ofNat 32 m, res1 := BitVec.ofNat 32 e })) ∧
    (Started 0x13#8 s → encChanbw s.arg0.toNat = (m, e) → BusOk 6 s → Reaches s (ended .ok
      { sentModify s.par.chip.config.mdmcfg4 0xF0#8 (BitVec.ofNat 8 (64 * e + 16 * m)) s with
        res0 := BitVec.ofNat 32 m, res1 := BitVec.ofNat 32 e }))

/-- R244 to R247 with the selector tables R185 to R188: SETSYNC, SETMOD, SETADDRFILT and SETPKTLEN from acceptance
to completion. -/
def Obligations.SelectorCommandsRun : Prop :=
  ∀ s : State,
    (∀ sel mode hi lo, Started 0x14#8 s → sel = s.arg0.extractLsb' 0 2 →
      (sel, mode) ∈ [(0#2, 0#8), (1#2, 1#8), (2#2, 3#8), (3#2, 2#8)] →
      hi = (if sel = 0#2 then s.par.defSync1 else s.arg1.extractLsb' 8 8) →
      lo = (if sel = 0#2 then s.par.defSync0 else s.arg1.extractLsb' 0 8) → BusOk 12 s →
      Reaches s (ended .ok
        (sentWriteReg s.par.chip.config.sync0 lo (sentWriteReg s.par.chip.config.sync1 hi
          (sentModify s.par.chip.config.mdmcfg2 0x07#8 mode s))))) ∧
    (∀ sel code, Started 0x15#8 s → sel = s.arg0.extractLsb' 0 3 →
      (sel, code) ∈ [(0#3, 0x00#8), (1#3, 0x10#8), (2#3, 0x30#8), (3#3, 0x40#8), (4#3, 0x70#8)] → BusOk 6 s →
      Reaches s (ended .ok (sentModify s.par.chip.config.mdmcfg2 0x70#8 code s))) ∧
    (∀ sel a, Started 0x16#8 s → sel = s.arg0.extractLsb' 0 2 →
      a = (if sel = 0#2 then s.par.defAddr else s.arg1.extractLsb' 0 8) → BusOk 9 s →
      Reaches s (ended .ok (sentWriteReg s.par.chip.config.addr a
        (sentModify s.par.chip.config.pktctrl1 0x03#8 (sel.setWidth 8) s)))) ∧
    (∀ sel n, Started 0x17#8 s → sel = s.arg0.extractLsb' 0 2 → sel ≠ 3#2 →
      n = (if sel = 2#2 then s.par.defPktlen else s.arg1.extractLsb' 0 8) → BusOk 9 s →
      Reaches s (ended .ok (sentWriteReg s.par.chip.config.pktlen n
        (sentModify s.par.chip.config.pktctrl0 0x03#8 (sel.setWidth 8) s))))

/-- R248: SETDEFAULTS writes the pairs of BASELINE in their order; with none it sends nothing. -/
def Obligations.SetdefaultsRun : Prop :=
  ∀ s : State, Started 0x18#8 s → BusOk (3 * s.par.baseline.length) s →
    Reaches s (ended .ok (sentWrites s.par.baseline s))

/-- R320 to R322: HWINFO, RSSI and LQI from acceptance to completion. -/
def Obligations.ReadoutCommandsRun : Prop :=
  ∀ s : State,
    (∀ s1, Started 0x40#8 s → BusOk 6 s → s1 = sentStatusRead s.par.chip.status.partnum s → Reaches s (ended .ok
      { sentStatusRead s.par.chip.status.version s1 with
        res0 := (readByte s).setWidth 32, res1 := (readByte s1).setWidth 32 })) ∧
    (Started 0x41#8 s → BusOk 3 s → Reaches s (ended .ok
      { sentStatusRead s.par.chip.status.rssi s with
        res0 := BitVec.ofInt 32 ((readByte s).toInt.tdiv 2 - s.par.rssiOffset),
        res1 := (readByte s).setWidth 32 })) ∧
    (Started 0x42#8 s → BusOk 3 s → Reaches s (ended .ok
      { sentStatusRead s.par.chip.status.lqi s with
        res0 := (readByte s &&& 0x7F#8).setWidth 32, res1 := (readByte s).setWidth 32 }))

/-- R271 to R276: GOIDLE, GORX and GOTX from acceptance to completion, for any number of polls that do not confirm
before the one that does: SIDLE and its polls, and for GORX and GOTX the strobe and its polls. -/
def Obligations.RadioCommandsRun : Prop :=
  ∀ (s : State) (n m : Nat),
    (Started 0x20#8 s → IdleEnds n s → Reaches s (ended .ok (wentIdle n s))) ∧
    (Started 0x21#8 s → GotoEnds s.par.chip.strobes.srx s.par.marcRx n m s →
      Reaches s (ended .ok (wentTo s.par.chip.strobes.srx n m s))) ∧
    (Started 0x22#8 s → GotoEnds s.par.chip.strobes.stx s.par.marcTx n m s →
      Reaches s (ended .ok (wentTo s.par.chip.strobes.stx n m s)))

/-- R290, R292, R294, R295: RECEIVE from acceptance to completion, for any number of polls: the RXBYTES reads up to
two equal counts that are not 0; one FIFO read; one LQI read; GOTO(IDLE); one SFRX; then CrcMismatch or Ok by bit 7
of the LQI byte, BUF, RES0, RES1 and RES2 holding what was read either way. -/
def Obligations.ReceiveRun : Prop :=
  ∀ (s : State) (k n w : Nat) (s1 s2 s3 s4 s5 : State),
    Started 0x30#8 s → n = (s.arg0.extractLsb' 0 7).toNat → n ≤ 64 →
    RxWaitEnds k 0#7 s →
    s1 = { sentPolls s.par.chip.status.rxbytes (k + 1) s with lastCount := countAfter k 0#7 s } →
    BusOk (if n = 0 then 3 else 4) s1 →
    s2 = { sentFifoRead n s1 with buf := memWriteList s.buf 0 (clockedBytes s1 2 n),
                                  res0 := (chipByte s1 1 1).setWidth 32, res1 := (chipByte s1 1 2).setWidth 32 } →
    BusOk 3 s2 → s3 = { sentStatusRead s.par.chip.status.lqi s2 with res2 := (readByte s2).setWidth 32 } →
    IdleEnds w s3 → s4 = wentIdle w s3 → BusOk 3 s4 → s5 = sentStrobe s.par.chip.strobes.sfrx s4 →
    Reaches s (ended (if (readByte s2).getLsbD 7 then .ok else .crcMismatch) s5)

/-- R292, R293, R297: RECEIVE whose poll number k shows the overflow flag before two equal counts: the polls, one
SFRX, and RxOverflow; no FIFO read, no LQI read, no GOTO(IDLE), and BUF, RES0, RES1 and RES2 unchanged. -/
def Obligations.ReceiveOverflowRun : Prop :=
  ∀ (s : State) (k : Nat), Started 0x30#8 s → (s.arg0.extractLsb' 0 7).toNat ≤ 64 →
    RxWaitOverflows k 0#7 s → BusOk 3 (sentPolls s.par.chip.status.rxbytes (k + 1) s) →
    Reaches s (ended .rxOverflow
      { sentStrobe s.par.chip.strobes.sfrx (sentPolls s.par.chip.status.rxbytes (k + 1) s) with
        lastCount := countAfter k 0#7 s })

/-- R298, R300 to R302: TRANSMIT of 1 to 61 bytes from acceptance to completion, for any number of polls: the line
function, IDLE, SFTX, RX, one burst write of the length and the payload, the line function, TX, the two line waits,
IDLE; Ok, and no result register written. -/
def Obligations.TransmitRun : Prop :=
  ∀ (s : State) (len n1 n2 m2 n3 m3 k1 k2 n4 : Nat) (s1 s2 s3 s4 s5 s6 s7 s8 : State),
    Started 0x31#8 s → len = (s.arg0.extractLsb' 0 8).toNat → 0 < len → len < 62 →
    BusOk 3 s → s1 = sentWriteReg s.par.gdoIocfg (s.par.gdoCfgSync.setWidth 8) s →
    IdleEnds n1 s1 → s2 = wentIdle n1 s1 →
    BusOk 3 s2 → s3 = sentStrobe s.par.chip.strobes.sftx s2 →
    GotoEnds s.par.chip.strobes.srx s.par.marcRx n2 m2 s3 → s4 = wentTo s.par.chip.strobes.srx n2 m2 s3 →
    BusOk 6 s4 →
    s5 = sentWriteReg s.par.gdoIocfg (s.par.gdoCfgEop.setWidth 8)
      (sentWrite (burstWriteHeader s.par.chip.fifo s :: BitVec.ofNat 8 len :: memBytes s.buf s.memDraws 0 len) s4) →
    GotoEnds s.par.chip.strobes.stx s.par.marcTx n3 m3 s5 → s6 = wentTo s.par.chip.strobes.stx n3 m3 s5 →
    LineEnds true k1 s6 → s7 = lineReads (k1 + 1) s6 →
    LineEnds false k2 s7 → s8 = lineReads (k2 + 1) s7 →
    IdleEnds n4 s8 →
    Reaches s (ended .ok
      { wentIdle n4 s8 with
        frame := memWriteList s.frame 0 (BitVec.ofNat 8 len :: memBytes s.buf s.memDraws 0 len),
        memDraws := s.memDraws + 2 })

/-- R271, R273: AWAIT_STATE has no bound: as long as the answers do not confirm the code the command polls on, in
six steps a read (log entry 2), whatever their number; every state on the way is BUSY, and after n reads the block
stands before the same call with nothing changed but the bus. -/
def Obligations.AwaitStateHasNoBound : Prop :=
  ∀ (i : Instr) (code : BitVec 5) (rest : List Call) (pos : Position) (s : State) (n : Nat),
    s.inputs = [] → decode .command s.cmd = .ok i → AtCall (.awaitState code) rest pos s → AwaitFails code n s →
    (∃ rx, runSteps (6 * n) s =
      some (setPos { pos with rx := rx } (sentPolls s.par.chip.status.marcstate n s))) ∧
    BusyFor (6 * n) s

/-- R365 with R292, R301: the other loops without a bound. WAIT_RX_BYTES polls on as long as the answers show no
overflow and no two equal counts that are not 0, in five steps a read after its first (log entry 2), and each line wait
as long as the line does not show its level, in one step a read; every state on the way is BUSY, and after n reads the
block stands before the next read with nothing changed but the bus and, in WAIT_RX_BYTES, the last count. -/
def Obligations.RxAndLineWaitsHaveNoBound : Prop :=
  ∀ (i : Instr) (rest : List Call) (pos : Position) (s : State) (n : Nat),
    s.inputs = [] → decode .command s.cmd = .ok i →
    (AtCall .waitRxBytes rest pos s → RxWaitFails n 0#7 s →
      (∃ rx, runSteps (1 + 5 * n) s = some (setPos
        { pos with calls := .readReg (statusId s.par.chip.status.rxbytes) :: .rxTest :: rest, rx := rx }
        { sentPolls s.par.chip.status.rxbytes n s with lastCount := countAfter n 0#7 s })) ∧
      BusyFor (1 + 5 * n) s) ∧
    ∀ level, AtCall (.lineWait level) rest pos s → LineFails level n s →
      runSteps n s = some (setPos pos (lineReads n s)) ∧ BusyFor n s
end

