-- ==== Sys2Proof/Laws/Memory.lean ====
section
/-! SUPPORT. BUF and FRAME: read after write, and that every memory operation keeps the canonical form. -/

namespace Sys2Proof.Machine

@[simp] theorem memRead_nil (a : Nat) : memRead [] a = none := rfl

theorem memRead_memPut_self (m : Memory) (a : Nat) (b : Byte) : memRead (memPut m a b) a = some b := by
  induction m with
  | nil => simp [memPut, memRead]
  | cons c m ih =>
    obtain ⟨c, d⟩ := c
    simp only [memPut]
    split_ifs with h1 h2
    · simp [memRead]
    · simp [memRead]
    · simp only [memRead]; rw [if_neg (by omega), ih]

theorem memRead_memPut_ne (m : Memory) (a x : Nat) (b : Byte) (hx : a ≠ x) :
    memRead (memPut m a b) x = memRead m x := by
  induction m with
  | nil => simp [memPut, memRead, hx]
  | cons c m ih =>
    obtain ⟨c, d⟩ := c
    simp only [memPut]
    split_ifs with h1 h2
    · simp [memRead, hx]
    · subst h2; simp [memRead, hx]
    · simp only [memRead, ih]

/-- A read after a write of one byte (00_scope.md R12). -/
theorem memRead_memPut (m : Memory) (a x : Nat) (b : Byte) :
    memRead (memPut m a b) x = if a = x then some b else memRead m x := by
  by_cases h : a = x
  · subst h; rw [if_pos rfl, memRead_memPut_self]
  · rw [if_neg h, memRead_memPut_ne m a x b h]

theorem memRising_memPut (m : Memory) (lo a : Nat) (b : Byte) (h : memRising lo m = true) (ha : lo ≤ a) :
    memRising lo (memPut m a b) = true := by
  induction m generalizing lo with
  | nil => simp [memPut, memRising, ha]
  | cons c m ih =>
    obtain ⟨c, d⟩ := c
    simp only [memRising, Bool.and_eq_true, decide_eq_true_eq] at h
    simp only [memPut]
    split_ifs with h1 h2 <;> simp only [memRising, Bool.and_eq_true, decide_eq_true_eq]
    · exact ⟨ha, by omega, h.2⟩
    · exact ⟨ha, by subst h2; exact h.2⟩
    · exact ⟨h.1, ih _ h.2 (by omega)⟩

theorem all_memPut (m : Memory) (a : Nat) (b : Byte) (n : Nat) (h : m.all (fun c => decide (c.1 < n)) = true)
    (ha : a < n) : (memPut m a b).all (fun c => decide (c.1 < n)) = true := by
  induction m with
  | nil => simp [memPut, ha]
  | cons c m ih =>
    obtain ⟨c, d⟩ := c
    simp only [List.all_cons, Bool.and_eq_true, decide_eq_true_eq] at h
    simp only [memPut]
    split_ifs with h1 h2
    · simp [ha, h.1]; simpa using h.2
    · simp [ha]; simpa using h.2
    · simp only [List.all_cons, Bool.and_eq_true, decide_eq_true_eq]
      exact ⟨h.1, ih h.2⟩

/-- The empty list is canonical. -/
@[simp] theorem memWf_nil : memWf [] = true := rfl

/-- A write keeps the canonical form. -/
theorem memWf_memWrite (m : Memory) (a : Nat) (b : Byte) (h : memWf m = true) : memWf (memWrite m a b) = true := by
  simp only [memWf, Bool.and_eq_true] at h
  unfold memWrite
  split_ifs with ha
  · simp only [memWf, Bool.and_eq_true]
    exact ⟨memRising_memPut m 0 a b h.1 (Nat.zero_le _), all_memPut m a b _ h.2 ha⟩
  · simp only [memWf, Bool.and_eq_true]; exact h

/-- A write of a list keeps the canonical form. -/
theorem memWf_memWriteList (m : Memory) (a : Nat) (bs : List Byte) (h : memWf m = true) :
    memWf (memWriteList m a bs) = true := by
  induction bs generalizing m a with
  | nil => exact h
  | cons b bs ih => exact ih _ _ (memWf_memWrite m a b h)

/-- A read after a write inside the 64 bytes. -/
theorem memRead_memWrite (m : Memory) (a x : Nat) (b : Byte) (ha : a < Config.bufSize) :
    memRead (memWrite m a b) x = if a = x then some b else memRead m x := by
  rw [memWrite, if_pos ha, memRead_memPut]

/-- A read after a write of a list inside the 64 bytes. -/
theorem memRead_memWriteList (m : Memory) (a x : Nat) (bs : List Byte) (ha : a + bs.length ≤ Config.bufSize) :
    memRead (memWriteList m a bs) x =
      if a ≤ x ∧ x < a + bs.length then bs[x - a]? else memRead m x := by
  induction bs generalizing m a with
  | nil =>
    simp only [memWriteList, List.length_nil]
    rw [if_neg (by omega)]
  | cons b bs ih =>
    simp only [List.length_cons] at ha ⊢
    simp only [memWriteList]
    rw [ih _ _ (by omega), memRead_memWrite m a x b (by omega)]
    by_cases hx : x = a
    · subst hx; simp
    · by_cases h2 : a + 1 ≤ x ∧ x < a + 1 + bs.length
      · rw [if_pos h2, if_pos (by omega)]
        obtain ⟨k, rfl⟩ := Nat.exists_eq_add_of_le h2.1
        have : a + 1 + k - a = k + 1 := by omega
        rw [this, List.getElem?_cons_succ, Nat.add_sub_cancel_left]
      · rw [if_neg h2, if_neg (by omega), if_neg (by omega)]

/-- A write of a list leaves every index before and after it alone, whatever the list's length. -/
theorem memRead_memWriteList_outside (m : Memory) (a x : Nat) (bs : List Byte)
    (hx : x < a ∨ a + bs.length ≤ x) : memRead (memWriteList m a bs) x = memRead m x := by
  induction bs generalizing m a with
  | nil => rfl
  | cons b bs ih =>
    simp only [List.length_cons] at hx
    rw [memWriteList, ih _ _ (by omega), memWrite]
    split_ifs
    · exact memRead_memPut_ne m a x b (by omega)
    · rfl

/-- An index below every listed one reads as nothing. -/
theorem memRead_of_lt {lo x : Nat} (m : Memory) (h : memRising lo m = true) (hx : x < lo) :
    memRead m x = none := by
  induction m generalizing lo with
  | nil => rfl
  | cons c m ih =>
    obtain ⟨c, d⟩ := c
    simp only [memRising, Bool.and_eq_true, decide_eq_true_eq] at h
    simp only [memRead]
    rw [if_neg (by omega)]
    exact ih h.2 (by omega)

/-- Two canonical memories that read the same everywhere are the same list. -/
theorem memory_ext {lo : Nat} (m m' : Memory) (h : memRising lo m = true) (h' : memRising lo m' = true)
    (he : ∀ x, memRead m x = memRead m' x) : m = m' := by
  induction m generalizing lo m' with
  | nil =>
    cases m' with
    | nil => rfl
    | cons c m' => obtain ⟨c, d⟩ := c; have := he c; simp [memRead] at this
  | cons c m ih =>
    obtain ⟨c, d⟩ := c
    cases m' with
    | nil => have := he c; simp [memRead] at this
    | cons c' m' =>
      obtain ⟨c', d'⟩ := c'
      simp only [memRising, Bool.and_eq_true, decide_eq_true_eq] at h h'
      have hc : c = c' := by
        by_contra hne
        rcases Nat.lt_or_gt_of_ne hne with hlt | hlt
        · have h1 := he c
          simp only [memRead, if_true] at h1
          rw [if_neg (by omega), memRead_of_lt m' h'.2 (by omega)] at h1
          cases h1
        · have h1 := he c'
          simp only [memRead, if_true] at h1
          rw [if_neg (by omega), memRead_of_lt m h.2 (by omega)] at h1
          cases h1
      subst hc
      have hd := he c
      simp only [memRead, if_true, Option.some.injEq] at hd
      subst hd
      rw [ih m' h.2 h'.2]
      intro x
      have hx := he x
      simp only [memRead] at hx
      by_cases hcx : c = x
      · subst hcx; rw [memRead_of_lt m h.2 (by omega), memRead_of_lt m' h'.2 (by omega)]
      · rwa [if_neg hcx, if_neg hcx] at hx

@[simp] theorem memBytes_length (m : Memory) (draw a n : Nat) : (memBytes m draw a n).length = n := by
  simp [memBytes]

/-- The bytes of a host word put together from four (20_memory.md R72). -/
theorem word_bytes (a b c d : Byte) :
    (a ++ b ++ c ++ d : Word).extractLsb' 0 8 = d ∧ (a ++ b ++ c ++ d : Word).extractLsb' 8 8 = c ∧
    (a ++ b ++ c ++ d : Word).extractLsb' 16 8 = b ∧ (a ++ b ++ c ++ d : Word).extractLsb' 24 8 = a := by
  refine ⟨?_, ?_, ?_, ?_⟩ <;>
  · apply BitVec.eq_of_getLsbD_eq
    intro i hi
    rw [BitVec.getLsbD_extractLsb']
    simp only [BitVec.getLsbD_append, hi, decide_true, Bool.true_and]
    have h1 : i < 8 := hi
    have h2 : ¬ (8 + i < 8) := by omega
    have h3 : 8 + i - 8 = i := by omega
    have h4 : ¬ (16 + i < 8) := by omega
    have h5 : 16 + i - 8 = 8 + i := by omega
    have h6 : ¬ (24 + i < 8) := by omega
    have h7 : 24 + i - 8 = 16 + i := by omega
    simp [h1, h2, h3, h4, h5, h6, h7]

/-- A host word is its four bytes put together (20_memory.md R72). -/
theorem word_of_bytes (v : Word) :
    v.extractLsb' 24 8 ++ v.extractLsb' 16 8 ++ v.extractLsb' 8 8 ++ v.extractLsb' 0 8 = v := by
  apply BitVec.eq_of_getLsbD_eq
  intro i hi
  simp only [BitVec.getLsbD_append, BitVec.getLsbD_extractLsb']
  have : i < 32 := hi
  by_cases h1 : i < 8
  · simp [h1]
  · by_cases h2 : i - 8 < 8
    · rw [show 8 + (i - 8) = i by omega]; simp [h1, h2]
    · by_cases h3 : i - 8 - 8 < 8
      · rw [show 16 + (i - 8 - 8) = i by omega]; simp [h1, h2, h3]
      · rw [show 24 + (i - 8 - 8 - 8) = i by omega]
        have h4 : i - 8 - 8 - 8 < 8 := by omega
        simp [h1, h2, h3, h4]

end Sys2Proof.Machine
end

