-- ==== Sys2Proof/Laws/State.lean ====
section
/-! SUPPORT. One lemma per field for each shared update of State, so that no proof unfolds the update. -/

namespace Sys2Proof.Machine

@[simp] theorem setPos_cmd (pos : Position) (s : State) : (setPos pos s).cmd = s.cmd := rfl
@[simp] theorem setPos_arg0 (pos : Position) (s : State) : (setPos pos s).arg0 = s.arg0 := rfl
@[simp] theorem setPos_arg1 (pos : Position) (s : State) : (setPos pos s).arg1 = s.arg1 := rfl
@[simp] theorem setPos_res0 (pos : Position) (s : State) : (setPos pos s).res0 = s.res0 := rfl
@[simp] theorem setPos_res1 (pos : Position) (s : State) : (setPos pos s).res1 = s.res1 := rfl
@[simp] theorem setPos_res2 (pos : Position) (s : State) : (setPos pos s).res2 = s.res2 := rfl
@[simp] theorem setPos_done (pos : Position) (s : State) : (setPos pos s).done = s.done := rfl
@[simp] theorem setPos_result (pos : Position) (s : State) : (setPos pos s).result = s.result := rfl
@[simp] theorem setPos_faultSeen (pos : Position) (s : State) : (setPos pos s).faultSeen = s.faultSeen := rfl
@[simp] theorem setPos_drop (pos : Position) (s : State) : (setPos pos s).drop = s.drop := rfl
@[simp] theorem setPos_errinfo (pos : Position) (s : State) : (setPos pos s).errinfo = s.errinfo := rfl
@[simp] theorem setPos_buf (pos : Position) (s : State) : (setPos pos s).buf = s.buf := rfl
@[simp] theorem setPos_frame (pos : Position) (s : State) : (setPos pos s).frame = s.frame := rfl
@[simp] theorem setPos_cs (pos : Position) (s : State) : (setPos pos s).cs = s.cs := rfl
@[simp] theorem setPos_phase (pos : Position) (s : State) : (setPos pos s).phase = .running pos := rfl
@[simp] theorem setPos_lastCount (pos : Position) (s : State) : (setPos pos s).lastCount = s.lastCount := rfl
@[simp] theorem setPos_par (pos : Position) (s : State) : (setPos pos s).par = s.par := rfl
@[simp] theorem setPos_inputs (pos : Position) (s : State) : (setPos pos s).inputs = s.inputs := rfl
@[simp] theorem setPos_answers (pos : Position) (s : State) : (setPos pos s).answers = s.answers := rfl
@[simp] theorem setPos_draws (pos : Position) (s : State) : (setPos pos s).draws = s.draws := rfl
@[simp] theorem setPos_memDraws (pos : Position) (s : State) : (setPos pos s).memDraws = s.memDraws := rfl
@[simp] theorem setPos_trace (pos : Position) (s : State) : (setPos pos s).trace = s.trace := rfl
@[simp] theorem setPos_hostReads (pos : Position) (s : State) : (setPos pos s).hostReads = s.hostReads := rfl

@[simp] theorem issued_cmd (p : Prim) (s : State) : (issued p s).cmd = s.cmd := rfl
@[simp] theorem issued_arg0 (p : Prim) (s : State) : (issued p s).arg0 = s.arg0 := rfl
@[simp] theorem issued_arg1 (p : Prim) (s : State) : (issued p s).arg1 = s.arg1 := rfl
@[simp] theorem issued_res0 (p : Prim) (s : State) : (issued p s).res0 = s.res0 := rfl
@[simp] theorem issued_res1 (p : Prim) (s : State) : (issued p s).res1 = s.res1 := rfl
@[simp] theorem issued_res2 (p : Prim) (s : State) : (issued p s).res2 = s.res2 := rfl
@[simp] theorem issued_done (p : Prim) (s : State) : (issued p s).done = s.done := rfl
@[simp] theorem issued_result (p : Prim) (s : State) : (issued p s).result = s.result := rfl
@[simp] theorem issued_faultSeen (p : Prim) (s : State) : (issued p s).faultSeen = s.faultSeen := rfl
@[simp] theorem issued_drop (p : Prim) (s : State) : (issued p s).drop = s.drop := rfl
@[simp] theorem issued_errinfo (p : Prim) (s : State) : (issued p s).errinfo = s.errinfo := rfl
@[simp] theorem issued_buf (p : Prim) (s : State) : (issued p s).buf = s.buf := rfl
@[simp] theorem issued_frame (p : Prim) (s : State) : (issued p s).frame = s.frame := rfl
@[simp] theorem issued_cs (p : Prim) (s : State) : (issued p s).cs = s.cs := rfl
@[simp] theorem issued_phase (p : Prim) (s : State) : (issued p s).phase = s.phase := rfl
@[simp] theorem issued_lastCount (p : Prim) (s : State) : (issued p s).lastCount = s.lastCount := rfl
@[simp] theorem issued_par (p : Prim) (s : State) : (issued p s).par = s.par := rfl
@[simp] theorem issued_inputs (p : Prim) (s : State) : (issued p s).inputs = s.inputs := rfl
@[simp] theorem issued_answers (p : Prim) (s : State) : (issued p s).answers = s.answers.tail := rfl
@[simp] theorem issued_draws (p : Prim) (s : State) : (issued p s).draws = s.draws + 1 := rfl
@[simp] theorem issued_memDraws (p : Prim) (s : State) : (issued p s).memDraws = s.memDraws := rfl
@[simp] theorem issued_trace (p : Prim) (s : State) : (issued p s).trace = s.trace ++ [(p, replyTo p s)] := rfl
@[simp] theorem issued_hostReads (p : Prim) (s : State) : (issued p s).hostReads = s.hostReads := rfl

@[simp] theorem afterBus_cmd (evs : List BusEvent) (s : State) : (afterBus evs s).cmd = s.cmd := rfl
@[simp] theorem afterBus_arg0 (evs : List BusEvent) (s : State) : (afterBus evs s).arg0 = s.arg0 := rfl
@[simp] theorem afterBus_arg1 (evs : List BusEvent) (s : State) : (afterBus evs s).arg1 = s.arg1 := rfl
@[simp] theorem afterBus_res0 (evs : List BusEvent) (s : State) : (afterBus evs s).res0 = s.res0 := rfl
@[simp] theorem afterBus_res1 (evs : List BusEvent) (s : State) : (afterBus evs s).res1 = s.res1 := rfl
@[simp] theorem afterBus_res2 (evs : List BusEvent) (s : State) : (afterBus evs s).res2 = s.res2 := rfl
@[simp] theorem afterBus_done (evs : List BusEvent) (s : State) : (afterBus evs s).done = s.done := rfl
@[simp] theorem afterBus_result (evs : List BusEvent) (s : State) : (afterBus evs s).result = s.result := rfl
@[simp] theorem afterBus_faultSeen (evs : List BusEvent) (s : State) : (afterBus evs s).faultSeen = s.faultSeen := rfl
@[simp] theorem afterBus_drop (evs : List BusEvent) (s : State) : (afterBus evs s).drop = s.drop := rfl
@[simp] theorem afterBus_errinfo (evs : List BusEvent) (s : State) : (afterBus evs s).errinfo = s.errinfo := rfl
@[simp] theorem afterBus_buf (evs : List BusEvent) (s : State) : (afterBus evs s).buf = s.buf := rfl
@[simp] theorem afterBus_frame (evs : List BusEvent) (s : State) : (afterBus evs s).frame = s.frame := rfl
@[simp] theorem afterBus_cs (evs : List BusEvent) (s : State) : (afterBus evs s).cs = .deselected := rfl
@[simp] theorem afterBus_phase (evs : List BusEvent) (s : State) : (afterBus evs s).phase = s.phase := rfl
@[simp] theorem afterBus_lastCount (evs : List BusEvent) (s : State) : (afterBus evs s).lastCount = s.lastCount := rfl
@[simp] theorem afterBus_par (evs : List BusEvent) (s : State) : (afterBus evs s).par = s.par := rfl
@[simp] theorem afterBus_inputs (evs : List BusEvent) (s : State) : (afterBus evs s).inputs = s.inputs := rfl
@[simp] theorem afterBus_answers (evs : List BusEvent) (s : State) : (afterBus evs s).answers = s.answers.drop evs.length := rfl
@[simp] theorem afterBus_draws (evs : List BusEvent) (s : State) : (afterBus evs s).draws = s.draws + evs.length := rfl
@[simp] theorem afterBus_memDraws (evs : List BusEvent) (s : State) : (afterBus evs s).memDraws = s.memDraws := rfl
@[simp] theorem afterBus_trace (evs : List BusEvent) (s : State) : (afterBus evs s).trace = s.trace ++ evs := rfl
@[simp] theorem afterBus_hostReads (evs : List BusEvent) (s : State) : (afterBus evs s).hostReads = s.hostReads := rfl

@[simp] theorem complete_cmd (r : Result) (info : Nat) (s : State) : (complete r info s).cmd = s.cmd := by
  cases h : resultIsFault r <;> simp [complete, h]
@[simp] theorem complete_arg0 (r : Result) (info : Nat) (s : State) : (complete r info s).arg0 = s.arg0 := by
  cases h : resultIsFault r <;> simp [complete, h]
@[simp] theorem complete_arg1 (r : Result) (info : Nat) (s : State) : (complete r info s).arg1 = s.arg1 := by
  cases h : resultIsFault r <;> simp [complete, h]
@[simp] theorem complete_res0 (r : Result) (info : Nat) (s : State) : (complete r info s).res0 = s.res0 := by
  cases h : resultIsFault r <;> simp [complete, h]
@[simp] theorem complete_res1 (r : Result) (info : Nat) (s : State) : (complete r info s).res1 = s.res1 := by
  cases h : resultIsFault r <;> simp [complete, h]
@[simp] theorem complete_res2 (r : Result) (info : Nat) (s : State) : (complete r info s).res2 = s.res2 := by
  cases h : resultIsFault r <;> simp [complete, h]
@[simp] theorem complete_done (r : Result) (info : Nat) (s : State) : (complete r info s).done = true := by
  cases h : resultIsFault r <;> simp [complete, h]
@[simp] theorem complete_result (r : Result) (info : Nat) (s : State) : (complete r info s).result = r := by
  cases h : resultIsFault r <;> simp [complete, h]
@[simp] theorem complete_faultSeen (r : Result) (info : Nat) (s : State) : (complete r info s).faultSeen = (resultIsFault r || s.faultSeen) := by
  cases h : resultIsFault r <;> simp [complete, h]
@[simp] theorem complete_drop (r : Result) (info : Nat) (s : State) : (complete r info s).drop = s.drop := by
  cases h : resultIsFault r <;> simp [complete, h]
@[simp] theorem complete_errinfo (r : Result) (info : Nat) (s : State) : (complete r info s).errinfo = if resultIsFault r then BitVec.ofNat 32 info else s.errinfo := by
  cases h : resultIsFault r <;> simp [complete, h]
@[simp] theorem complete_buf (r : Result) (info : Nat) (s : State) : (complete r info s).buf = s.buf := by
  cases h : resultIsFault r <;> simp [complete, h]
@[simp] theorem complete_frame (r : Result) (info : Nat) (s : State) : (complete r info s).frame = s.frame := by
  cases h : resultIsFault r <;> simp [complete, h]
@[simp] theorem complete_cs (r : Result) (info : Nat) (s : State) : (complete r info s).cs = s.cs := by
  cases h : resultIsFault r <;> simp [complete, h]
@[simp] theorem complete_phase (r : Result) (info : Nat) (s : State) : (complete r info s).phase = .ready := by
  cases h : resultIsFault r <;> simp [complete, h]
@[simp] theorem complete_lastCount (r : Result) (info : Nat) (s : State) : (complete r info s).lastCount = s.lastCount := by
  cases h : resultIsFault r <;> simp [complete, h]
@[simp] theorem complete_par (r : Result) (info : Nat) (s : State) : (complete r info s).par = s.par := by
  cases h : resultIsFault r <;> simp [complete, h]
@[simp] theorem complete_inputs (r : Result) (info : Nat) (s : State) : (complete r info s).inputs = s.inputs := by
  cases h : resultIsFault r <;> simp [complete, h]
@[simp] theorem complete_answers (r : Result) (info : Nat) (s : State) : (complete r info s).answers = s.answers := by
  cases h : resultIsFault r <;> simp [complete, h]
@[simp] theorem complete_draws (r : Result) (info : Nat) (s : State) : (complete r info s).draws = s.draws := by
  cases h : resultIsFault r <;> simp [complete, h]
@[simp] theorem complete_memDraws (r : Result) (info : Nat) (s : State) : (complete r info s).memDraws = s.memDraws := by
  cases h : resultIsFault r <;> simp [complete, h]
@[simp] theorem complete_trace (r : Result) (info : Nat) (s : State) : (complete r info s).trace = s.trace := by
  cases h : resultIsFault r <;> simp [complete, h]
@[simp] theorem complete_hostReads (r : Result) (info : Nat) (s : State) : (complete r info s).hostReads = s.hostReads := by
  cases h : resultIsFault r <;> simp [complete, h]

@[simp] theorem raise_cmd (r : Result) (s : State) : (raise r s).cmd = s.cmd := by
  simp [raise]
@[simp] theorem raise_arg0 (r : Result) (s : State) : (raise r s).arg0 = s.arg0 := by
  simp [raise]
@[simp] theorem raise_arg1 (r : Result) (s : State) : (raise r s).arg1 = s.arg1 := by
  simp [raise]
@[simp] theorem raise_res0 (r : Result) (s : State) : (raise r s).res0 = s.res0 := by
  simp [raise]
@[simp] theorem raise_res1 (r : Result) (s : State) : (raise r s).res1 = s.res1 := by
  simp [raise]
@[simp] theorem raise_res2 (r : Result) (s : State) : (raise r s).res2 = s.res2 := by
  simp [raise]
@[simp] theorem raise_done (r : Result) (s : State) : (raise r s).done = true := by
  simp [raise]
@[simp] theorem raise_result (r : Result) (s : State) : (raise r s).result = r := by
  simp [raise]
@[simp] theorem raise_faultSeen (r : Result) (s : State) : (raise r s).faultSeen = (resultIsFault r || s.faultSeen) := by
  simp [raise]
@[simp] theorem raise_drop (r : Result) (s : State) : (raise r s).drop = s.drop := by
  simp [raise]
@[simp] theorem raise_errinfo (r : Result) (s : State) : (raise r s).errinfo = if resultIsFault r then 0#32 else s.errinfo := by
  simp [raise]
@[simp] theorem raise_buf (r : Result) (s : State) : (raise r s).buf = s.buf := by
  simp [raise]
@[simp] theorem raise_frame (r : Result) (s : State) : (raise r s).frame = s.frame := by
  simp [raise]
@[simp] theorem raise_cs (r : Result) (s : State) : (raise r s).cs = s.cs := by
  simp [raise]
@[simp] theorem raise_phase (r : Result) (s : State) : (raise r s).phase = .ready := by
  simp [raise]
@[simp] theorem raise_lastCount (r : Result) (s : State) : (raise r s).lastCount = s.lastCount := by
  simp [raise]
@[simp] theorem raise_par (r : Result) (s : State) : (raise r s).par = s.par := by
  simp [raise]
@[simp] theorem raise_inputs (r : Result) (s : State) : (raise r s).inputs = s.inputs := by
  simp [raise]
@[simp] theorem raise_answers (r : Result) (s : State) : (raise r s).answers = s.answers := by
  simp [raise]
@[simp] theorem raise_draws (r : Result) (s : State) : (raise r s).draws = s.draws := by
  simp [raise]
@[simp] theorem raise_memDraws (r : Result) (s : State) : (raise r s).memDraws = s.memDraws := by
  simp [raise]
@[simp] theorem raise_trace (r : Result) (s : State) : (raise r s).trace = s.trace := by
  simp [raise]
@[simp] theorem raise_hostReads (r : Result) (s : State) : (raise r s).hostReads = s.hostReads := by
  simp [raise]

@[simp] theorem failPrim_cmd (p : Prim) (e : Nat) (s : State) : (failPrim p e s).cmd = s.cmd := by
  simp [failPrim]
@[simp] theorem failPrim_arg0 (p : Prim) (e : Nat) (s : State) : (failPrim p e s).arg0 = s.arg0 := by
  simp [failPrim]
@[simp] theorem failPrim_arg1 (p : Prim) (e : Nat) (s : State) : (failPrim p e s).arg1 = s.arg1 := by
  simp [failPrim]
@[simp] theorem failPrim_res0 (p : Prim) (e : Nat) (s : State) : (failPrim p e s).res0 = s.res0 := by
  simp [failPrim]
@[simp] theorem failPrim_res1 (p : Prim) (e : Nat) (s : State) : (failPrim p e s).res1 = s.res1 := by
  simp [failPrim]
@[simp] theorem failPrim_res2 (p : Prim) (e : Nat) (s : State) : (failPrim p e s).res2 = s.res2 := by
  simp [failPrim]
@[simp] theorem failPrim_done (p : Prim) (e : Nat) (s : State) : (failPrim p e s).done = true := by
  simp [failPrim]
@[simp] theorem failPrim_result (p : Prim) (e : Nat) (s : State) : (failPrim p e s).result = primFault p := by
  simp [failPrim]
@[simp] theorem failPrim_faultSeen (p : Prim) (e : Nat) (s : State) : (failPrim p e s).faultSeen = true := by
  cases p <;> simp [failPrim, primFault, resultIsFault]
@[simp] theorem failPrim_drop (p : Prim) (e : Nat) (s : State) : (failPrim p e s).drop = s.drop := by
  simp [failPrim]
@[simp] theorem failPrim_errinfo (p : Prim) (e : Nat) (s : State) : (failPrim p e s).errinfo = BitVec.ofNat 32 e := by
  cases p <;> simp [failPrim, primFault, resultIsFault]
@[simp] theorem failPrim_buf (p : Prim) (e : Nat) (s : State) : (failPrim p e s).buf = s.buf := by
  simp [failPrim]
@[simp] theorem failPrim_frame (p : Prim) (e : Nat) (s : State) : (failPrim p e s).frame = s.frame := by
  simp [failPrim]
@[simp] theorem failPrim_cs (p : Prim) (e : Nat) (s : State) : (failPrim p e s).cs = csAfterFailure p s.cs := by
  simp [failPrim]
@[simp] theorem failPrim_phase (p : Prim) (e : Nat) (s : State) : (failPrim p e s).phase = .ready := by
  simp [failPrim]
@[simp] theorem failPrim_lastCount (p : Prim) (e : Nat) (s : State) : (failPrim p e s).lastCount = s.lastCount := by
  simp [failPrim]
@[simp] theorem failPrim_par (p : Prim) (e : Nat) (s : State) : (failPrim p e s).par = s.par := by
  simp [failPrim]
@[simp] theorem failPrim_inputs (p : Prim) (e : Nat) (s : State) : (failPrim p e s).inputs = s.inputs := by
  simp [failPrim]
@[simp] theorem failPrim_answers (p : Prim) (e : Nat) (s : State) : (failPrim p e s).answers = s.answers := by
  simp [failPrim]
@[simp] theorem failPrim_draws (p : Prim) (e : Nat) (s : State) : (failPrim p e s).draws = s.draws := by
  simp [failPrim]
@[simp] theorem failPrim_memDraws (p : Prim) (e : Nat) (s : State) : (failPrim p e s).memDraws = s.memDraws := by
  simp [failPrim]
@[simp] theorem failPrim_trace (p : Prim) (e : Nat) (s : State) : (failPrim p e s).trace = s.trace := by
  simp [failPrim]
@[simp] theorem failPrim_hostReads (p : Prim) (e : Nat) (s : State) : (failPrim p e s).hostReads = s.hostReads := by
  simp [failPrim]

@[simp] theorem accept_cmd (w : Byte) (s : State) : (accept w s).cmd = w := rfl
@[simp] theorem accept_arg0 (w : Byte) (s : State) : (accept w s).arg0 = s.arg0 := rfl
@[simp] theorem accept_arg1 (w : Byte) (s : State) : (accept w s).arg1 = s.arg1 := rfl
@[simp] theorem accept_res0 (w : Byte) (s : State) : (accept w s).res0 = s.res0 := rfl
@[simp] theorem accept_res1 (w : Byte) (s : State) : (accept w s).res1 = s.res1 := rfl
@[simp] theorem accept_res2 (w : Byte) (s : State) : (accept w s).res2 = s.res2 := rfl
@[simp] theorem accept_done (w : Byte) (s : State) : (accept w s).done = false := rfl
@[simp] theorem accept_result (w : Byte) (s : State) : (accept w s).result = s.result := rfl
@[simp] theorem accept_faultSeen (w : Byte) (s : State) : (accept w s).faultSeen = s.faultSeen := rfl
@[simp] theorem accept_drop (w : Byte) (s : State) : (accept w s).drop = s.drop := rfl
@[simp] theorem accept_errinfo (w : Byte) (s : State) : (accept w s).errinfo = s.errinfo := rfl
@[simp] theorem accept_buf (w : Byte) (s : State) : (accept w s).buf = s.buf := rfl
@[simp] theorem accept_frame (w : Byte) (s : State) : (accept w s).frame = s.frame := rfl
@[simp] theorem accept_cs (w : Byte) (s : State) : (accept w s).cs = s.cs := rfl
@[simp] theorem accept_phase (w : Byte) (s : State) : (accept w s).phase = .running Position.start := rfl
@[simp] theorem accept_lastCount (w : Byte) (s : State) : (accept w s).lastCount = s.lastCount := rfl
@[simp] theorem accept_par (w : Byte) (s : State) : (accept w s).par = s.par := rfl
@[simp] theorem accept_inputs (w : Byte) (s : State) : (accept w s).inputs = s.inputs := rfl
@[simp] theorem accept_answers (w : Byte) (s : State) : (accept w s).answers = s.answers := rfl
@[simp] theorem accept_draws (w : Byte) (s : State) : (accept w s).draws = s.draws := rfl
@[simp] theorem accept_memDraws (w : Byte) (s : State) : (accept w s).memDraws = s.memDraws := rfl
@[simp] theorem accept_trace (w : Byte) (s : State) : (accept w s).trace = s.trace := rfl
@[simp] theorem accept_hostReads (w : Byte) (s : State) : (accept w s).hostReads = s.hostReads := rfl

@[simp] theorem pushCalls_calls (cs : List Call) (pos : Position) : (pushCalls cs pos).calls = cs ++ pos.calls := rfl
@[simp] theorem pushCalls_txn (cs : List Call) (pos : Position) : (pushCalls cs pos).txn = pos.txn := rfl
@[simp] theorem pushCalls_rx (cs : List Call) (pos : Position) : (pushCalls cs pos).rx = pos.rx := rfl
@[simp] theorem pushCalls_k (cs : List Call) (pos : Position) : (pushCalls cs pos).k = pos.k := rfl

end Sys2Proof.Machine
end

