-- ==== Sys2Proof/Laws/Bus.lean ====
section
/-! SUPPORT. The primitives and the meanings of the rows, said once: what a primitive does when it succeeds and
when it fails, what an instruction's meaning is as a frame primitive or a sequencer step, and which row a header
decodes to. -/

namespace Sys2Proof.Machine

/-! Primitives. -/

theorem replyTo_fail {p : Prim} {s : State} {e : Nat} (h : (answerAt s 0).failure = some e) :
    replyTo p s = .fail e := by
  simp [replyTo, h]

theorem replyTo_csSelect {s : State} (h : (answerAt s 0).failure = none) : replyTo .csSelect s = .done := by
  simp [replyTo, h]

theorem replyTo_csDeselect {s : State} (h : (answerAt s 0).failure = none) : replyTo .csDeselect s = .done := by
  simp [replyTo, h]

theorem replyTo_wr {s : State} {tx : List Byte} (h : (answerAt s 0).failure = none) :
    replyTo (.wr tx) s = .done := by
  simp [replyTo, h]

theorem replyTo_xfer {s : State} {tx : List Byte} (h : (answerAt s 0).failure = none) :
    replyTo (.xfer tx) s = .bytes (clockedBytes s 0 tx.length) := by
  simp [replyTo, h]

theorem replyTo_lineRead {s : State} (h : (answerAt s 0).failure = none) :
    replyTo .lineRead s = .level (answerAt s 0).level := by
  simp [replyTo, h]

/-- A primitive that fails ends the command (60_exceptions.md R334, R336). -/
theorem primitive_fail {p : Prim} {s : State} {e : Nat} (f : Reply → State → State)
    (h : (answerAt s 0).failure = some e) : primitive p s f = failPrim p e (issued p s) := by
  simp [primitive, replyTo_fail h]

/-- A primitive that succeeds goes on with its reply (00_scope.md R13). -/
theorem primitive_ok {p : Prim} {s : State} (f : Reply → State → State)
    (h : (answerAt s 0).failure = none) : primitive p s f = f (replyTo p s) (issued p s) := by
  cases p <;> simp [primitive, replyTo, h]

/-- The two outcomes of a primitive. -/
theorem primitive_cases (p : Prim) (s : State) (f : Reply → State → State) :
    (∃ e, (answerAt s 0).failure = some e ∧ primitive p s f = failPrim p e (issued p s)) ∨
    ((answerAt s 0).failure = none ∧ primitive p s f = f (replyTo p s) (issued p s)) := by
  cases h : (answerAt s 0).failure with
  | none => exact .inr ⟨rfl, primitive_ok f h⟩
  | some e => exact .inl ⟨e, rfl, primitive_fail f h⟩

/-- Issuing a primitive moves on to the next answer. -/
@[simp] theorem answerAt_issued (p : Prim) (s : State) (j : Nat) :
    answerAt (issued p s) j = answerAt s (j + 1) := by
  have h : s.draws + 1 + j = s.draws + (j + 1) := by omega
  simp [answerAt, List.getD_eq_getElem?_getD, h]

@[simp] theorem chipByte_issued (p : Prim) (s : State) (j i : Nat) :
    chipByte (issued p s) j i = chipByte s (j + 1) i := by
  have h : s.draws + 1 + j = s.draws + (j + 1) := by omega
  simp [chipByte, h]

@[simp] theorem clockedBytes_issued (p : Prim) (s : State) (j n : Nat) :
    clockedBytes (issued p s) j n = clockedBytes s (j + 1) n := by
  simp [clockedBytes]

@[simp] theorem clockedBytes_length (s : State) (j n : Nat) : (clockedBytes s j n).length = n := by
  simp [clockedBytes]

/-- What the environment answers depends on the answers to come and the free draws alone. -/
theorem answerAt_congr {s t : State} (ha : t.answers = s.answers) (hd : t.draws = s.draws) (j : Nat) :
    answerAt t j = answerAt s j := by
  simp [answerAt, ha, hd]

theorem chipByte_congr {s t : State} (ha : t.answers = s.answers) (hd : t.draws = s.draws) (j i : Nat) :
    chipByte t j i = chipByte s j i := by
  simp [chipByte, answerAt_congr ha hd, hd]

theorem clockedBytes_congr {s t : State} (ha : t.answers = s.answers) (hd : t.draws = s.draws) (j n : Nat) :
    clockedBytes t j n = clockedBytes s j n := by
  simp [clockedBytes, chipByte_congr ha hd]

/-- After whole frames the answers go on where the frames left off. -/
@[simp] theorem answerAt_afterBus (evs : List BusEvent) (s : State) (j : Nat) :
    answerAt (afterBus evs s) j = answerAt s (evs.length + j) := by
  simp [answerAt, List.getD_eq_getElem?_getD, Nat.add_assoc]

@[simp] theorem chipByte_afterBus (evs : List BusEvent) (s : State) (j i : Nat) :
    chipByte (afterBus evs s) j i = chipByte s (evs.length + j) i := by
  simp [chipByte, Nat.add_assoc]

@[simp] theorem clockedBytes_afterBus (evs : List BusEvent) (s : State) (j n : Nat) :
    clockedBytes (afterBus evs s) j n = clockedBytes s (evs.length + j) n := by
  simp [clockedBytes]

/-! Meanings. -/

/-- Whether a row's transfers are Xfer (a read) or Wr (a write): 40_bus_transactions.md, section 2. -/
def rowDuplex (i : Instr) : Bool := !i.isStrobe && !i.isWireWrite

/-- The bytes a row's first transfer sends, for the chip's addresses. -/
def rowBytes (m : ChipAddresses) (i : Instr) (t : Txn) : List Byte :=
  if i.isStrobe then [encodeIn m i]
  else if i.isWireWrite || i == .fifoBurstRead then encodeIn m i :: t.data
  else [encodeIn m i, dummyByte]

/-- The dummy bytes of a row's second Xfer. -/
def rowMore (i : Instr) (t : Txn) : Nat := if i = .fifoBurstRead then t.more else 0

/-- The meaning of a wire row is the next primitive of the open transaction. -/
theorem exec_wire {i : Instr} (hi : i.isCommand = false) {s : State} {pos : Position} {t : Txn}
    (hp : s.phase = .running pos) (ht : pos.txn = some t) :
    exec i s = .next (framePrimitive (rowDuplex i) (rowBytes s.par.chip i t) (rowMore i t) pos t s) := by
  cases i <;> first
    | contradiction
    | simp [exec, execHdrRead, execHdrReadBurst, execHdrWrite, execHdrBurstWrite, execFifoSingleRead,
        execFifoSingleWrite, execFifoBurstRead, execFifoBurstWrite, execSres, execSfstxon, execSxoff, execScal,
        execSrx, execStx, execSidle, execSwor, execSpwd, execSfrx, execSftx, execSworrst, execSnop,
        execRdPartnum, execRdVersion, execRdFreqest, execRdLqiReg, execRdRssiReg, execRdMarcstate,
        execRdWortime1, execRdWortime0, execRdPktstatus, execRdVcoVcDac, execRdTxbytes, execRdRxbytes,
        execRdRcctrl1Status, execRdRcctrl0Status, readRow, writeRow, strobeRow, burstReadRow, wireStep, hp, ht,
        rowDuplex, rowBytes, rowMore, Instr.isStrobe, Instr.isWireWrite, encodeIn]

/-- The blocks of each command's pseudocode. -/
def commandBody : Instr → Position → State → State
  | .rdreg => bodyRdreg
  | .wrreg => bodyWrreg
  | .strobe => bodyStrobe
  | .rdfifo => bodyRdfifo
  | .wrburst => bodyWrburst
  | .modreg => bodyModreg
  | .setfreq => bodySetfreq
  | .setdev => bodySetdev
  | .setdrate => bodySetdrate
  | .setchanbw => bodySetchanbw
  | .setsync => bodySetsync
  | .setmod => bodySetmod
  | .setaddrfilt => bodySetaddrfilt
  | .setpktlen => bodySetpktlen
  | .setdefaults => bodySetdefaults
  | .goidle => bodyGoidle
  | .gorx => bodyGorx
  | .gotx => bodyGotx
  | .receive => bodyReceive
  | .transmit => bodyTransmit
  | .hwinfo => bodyHwinfo
  | .rssi => bodyRssi
  | .lqi => bodyLqi
  | _ => setPos

/-- The meaning of a command is the sequencer's step over its body. -/
theorem exec_command {i : Instr} (hi : i.isCommand = true) (s : State) :
    exec i s = sequencer (commandBody i) s := by
  cases i <;> first
    | rfl
    | contradiction

/-- A command with a call to make makes it. -/
theorem exec_call {i : Instr} (hi : i.isCommand = true) {s : State} {pos : Position} {c : Call} {rest : List Call}
    (hp : s.phase = .running pos) (ht : pos.txn = none) (hc : pos.calls = c :: rest) :
    exec i s = .next (callStep c { pos with calls := rest } s) := by
  simp [exec_command hi, sequencer, hp, ht, hc]

/-- A command with no call to make runs the next block of its pseudocode. -/
theorem exec_block {i : Instr} (hi : i.isCommand = true) {s : State} {pos : Position}
    (hp : s.phase = .running pos) (ht : pos.txn = none) (hc : pos.calls = []) :
    exec i s = .next (commandBody i pos s) := by
  simp [exec_command hi, sequencer, hp, ht, hc]

/-! Decoding. -/

theorem mem_of_lookup {l : List (Byte × Instr)} {h : Byte} {i : Instr} (hl : l.lookup h = some i) : (h, i) ∈ l := by
  induction l with
  | nil => simp at hl
  | cons c l ih =>
    obtain ⟨b, j⟩ := c
    by_cases hb : h = b
    · subst hb; simp at hl; simp [hl]
    · simp only [List.lookup, beq_eq_false_iff_ne.mpr hb] at hl
      exact List.mem_cons_of_mem _ (ih hl)

theorem commandTable_isCommand {w : Byte} {i : Instr} (h : (w, i) ∈ commandTable) : i.isCommand = true := by
  revert h; simp only [commandTable, List.mem_cons, Prod.mk.injEq, List.mem_nil_iff, or_false]
  rintro (h | h | h | h | h | h | h | h | h | h | h | h | h | h | h | h | h | h | h | h | h | h | h) <;>
    simp [h.2, Instr.isCommand]

/-- What CMD decodes to is a command. -/
theorem decodeCommand_isCommand {w : Byte} {i : Instr} (h : decodeCommand w = .ok i) : i.isCommand = true := by
  unfold decodeCommand at h
  split at h
  · rename_i j hl; cases h; exact commandTable_isCommand (mem_of_lookup hl)
  · cases h

/-! Headers. -/

theorem isRead_headerByte (l : HeaderBits) (r b : Bool) (a : Base) : isRead l (headerByte l r b a) = r := by
  revert r b a; cases l <;> decide

theorem isBurst_headerByte (l : HeaderBits) (r b : Bool) (a : Base) : isBurst l (headerByte l r b a) = b := by
  revert r b a; cases l <;> decide

theorem base_headerByte (l : HeaderBits) (r b : Bool) (a : Base) : (headerByte l r b a).setWidth 6 = a := by
  revert r b a; cases l <;> decide

/-- A header is its read bit, its burst bit and its base (30_encoding.md R110). -/
theorem headerByte_fields (l : HeaderBits) (h : Byte) :
    headerByte l (isRead l h) (isBurst l h) (h.setWidth 6) = h := by
  revert h; cases l <;> decide

/-- A write header is the base (30_encoding.md R111). -/
theorem hdrWriteOf_eq (l : HeaderBits) (a : Base) : hdrWriteOf l a = a.setWidth 8 := by
  simp [hdrWriteOf, headerByte]

theorem hdrBurstWriteOf_eq (l : HeaderBits) (a : Base) : hdrBurstWriteOf l a = hdrBurstBit l ||| a.setWidth 8 := by
  simp [hdrBurstWriteOf, headerByte]

/-- A read header is the read bit, the burst bit where S = 1, and the base (30_encoding.md R111). -/
theorem hdrReadOf_eq (l : HeaderBits) (id : BitVec 7) :
    hdrReadOf l id =
      if id.getLsbD 6 then hdrReadBit l ||| hdrBurstBit l ||| (id.setWidth 6).setWidth 8
      else hdrReadBit l ||| (id.setWidth 6).setWidth 8 := by
  revert id; cases l <;> decide

theorem hdrReadOf_configId (l : HeaderBits) (a : Base) :
    hdrReadOf l (configId a) = hdrReadBit l ||| a.setWidth 8 := by
  revert a; cases l <;> decide

theorem hdrReadOf_statusId (l : HeaderBits) (a : Base) :
    hdrReadOf l (statusId a) = hdrReadBit l ||| hdrBurstBit l ||| a.setWidth 8 := by
  revert a; cases l <;> decide

theorem fifoReadHeader_eq (m : ChipAddresses) :
    fifoReadHeader m = hdrReadBit m.bits ||| hdrBurstBit m.bits ||| m.fifo.setWidth 8 := by
  simp [headerByte]

/-- A wire row's header has the read bit where the row reads. -/
theorem isRead_encodeIn (m : ChipAddresses) {i : Instr} (hi : i.isCommand = false) :
    isRead m.bits (encodeIn m i) = rowDuplex i := by
  cases i <;> first
    | contradiction
    | exact isRead_headerByte _ _ _ _

theorem mem_strobeTable {m : ChipAddresses} {h : Byte} {i : Instr} (hm : (h, i) ∈ strobeTable m) :
    encodeIn m i = h ∧ i.isStrobe = true := by
  revert hm; simp only [strobeTable, List.mem_cons, Prod.mk.injEq, List.mem_nil_iff, or_false]
  rintro (h | h | h | h | h | h | h | h | h | h | h | h | h) <;> obtain ⟨rfl, rfl⟩ := h <;> exact ⟨rfl, rfl⟩

theorem mem_statusTable {m : ChipAddresses} {h : Byte} {i : Instr} (hm : (h, i) ∈ statusTable m) :
    encodeIn m i = h ∧ i.isStatusRead = true := by
  revert hm; simp only [statusTable, List.mem_cons, Prod.mk.injEq, List.mem_nil_iff, or_false]
  rintro (h | h | h | h | h | h | h | h | h | h | h | h | h | h) <;> obtain ⟨rfl, rfl⟩ := h <;> exact ⟨rfl, rfl⟩

theorem mem_fifoTable {m : ChipAddresses} {h : Byte} {i : Instr} (hm : (h, i) ∈ fifoTable m) :
    encodeIn m i = h ∧ i.isCommand = false ∧ i.isStrobe = false := by
  revert hm; simp only [fifoTable, List.mem_cons, Prod.mk.injEq, List.mem_nil_iff, or_false]
  rintro (h | h | h | h) <;> obtain ⟨rfl, rfl⟩ := h <;> exact ⟨rfl, rfl, rfl⟩

theorem not_command_of_strobe {i : Instr} (h : i.isStrobe = true) : i.isCommand = false := by
  cases i <;> first
    | rfl
    | contradiction

theorem not_command_of_status {i : Instr} (h : i.isStatusRead = true) : i.isCommand = false ∧ i.isStrobe = false := by
  cases i <;> first
    | exact ⟨rfl, rfl⟩
    | contradiction

theorem decodeForm_cases (m : ChipAddresses) (h : Byte) :
    encodeIn m (decodeForm m h) = h ∧ (decodeForm m h).isCommand = false ∧ (decodeForm m h).isStrobe = false := by
  have e := headerByte_fields m.bits h
  unfold decodeForm
  split <;> rename_i hr hb <;> rw [hr, hb] at e <;> exact ⟨e, rfl, rfl⟩

/-- What a header decodes to, for every chip: a wire row whose word it is, and a strobe only where it is sent
alone. -/
theorem decodeHeader_cases (m : ChipAddresses) (lone : Bool) (h : Byte) :
    encodeIn m (decodeHeader m lone h) = h ∧ (decodeHeader m lone h).isCommand = false ∧
    ((decodeHeader m lone h).isStrobe = true → lone = true) := by
  unfold decodeHeader
  split
  · rename_i i hi
    cases lone with
    | false => cases hi
    | true =>
      obtain ⟨h1, h2⟩ := mem_strobeTable (mem_of_lookup hi)
      exact ⟨h1, not_command_of_strobe h2, fun _ => rfl⟩
  · split
    · rename_i i hi
      rcases List.mem_append.mp (mem_of_lookup hi) with hf | hs
      · obtain ⟨h1, h2, h3⟩ := mem_fifoTable hf
        exact ⟨h1, h2, by simp [h3]⟩
      · obtain ⟨h1, h2⟩ := mem_statusTable hs
        obtain ⟨h2, h3⟩ := not_command_of_status h2
        exact ⟨h1, h2, by simp [h3]⟩
    · obtain ⟨h1, h2, h3⟩ := decodeForm_cases m h
      exact ⟨h1, h2, by simp [h3]⟩

/-- A header's row is a wire row. -/
theorem decodeHeader_not_command (m : ChipAddresses) (lone : Bool) (h : Byte) :
    (decodeHeader m lone h).isCommand = false := (decodeHeader_cases m lone h).2.1

/-- A header is the word of its row. -/
theorem encode_decodeHeader (m : ChipAddresses) (lone : Bool) (h : Byte) : encodeIn m (decodeHeader m lone h) = h :=
  (decodeHeader_cases m lone h).1

/-- A header's row reads where the header has the read bit. -/
theorem decodeHeader_duplex (m : ChipAddresses) (lone : Bool) (h : Byte) :
    rowDuplex (decodeHeader m lone h) = isRead m.bits h := by
  rw [← isRead_encodeIn m (decodeHeader_not_command m lone h), encode_decodeHeader]

/-- A header without the read bit is a write row or, sent alone, a strobe. -/
theorem decodeHeader_write {m : ChipAddresses} {lone : Bool} {h : Byte} (hr : isRead m.bits h = false) :
    ((decodeHeader m lone h).isWireWrite = true ∨ lone = true) ∧
    (decodeHeader m lone h).isStrobe = (!(decodeHeader m lone h).isWireWrite) ∧
    decodeHeader m lone h ≠ .fifoBurstRead := by
  have hd := decodeHeader_duplex m lone h
  have hs := (decodeHeader_cases m lone h).2.2
  rw [hr] at hd
  revert hd hs
  generalize decodeHeader m lone h = i
  cases i <;> simp [rowDuplex, Instr.isStrobe, Instr.isWireWrite]

/-- The burst read of the FIFO is decoded before any other row. -/
theorem decodeHeader_fifoRead (m : ChipAddresses) (lone : Bool) :
    decodeHeader m lone (fifoReadHeader m) = .fifoBurstRead := by
  have ne : ∀ {r b r' b' : Bool} {a a' : Base}, (r ≠ r' ∨ b ≠ b') →
      (headerByte m.bits r b a == headerByte m.bits r' b' a') = false := by
    intro r b r' b' a a' hne
    refine beq_eq_false_iff_ne.mpr fun he => ?_
    have h1 := congrArg (isRead m.bits) he
    have h2 := congrArg (isBurst m.bits) he
    rw [isRead_headerByte, isRead_headerByte] at h1
    rw [isBurst_headerByte, isBurst_headerByte] at h2
    exact hne.elim (· h1) (· h2)
  have hn : (if lone then (strobeTable m).lookup (fifoReadHeader m) else none) = none := by
    cases lone with
    | false => rfl
    | true => simp [strobeTable, List.lookup, ne]
  have hf : (fifoTable m ++ statusTable m).lookup (fifoReadHeader m) = some .fifoBurstRead := by
    simp [fifoTable, List.lookup, ne]
  unfold decodeHeader
  rw [hn, hf]

/-- A header with the read bit is a read row, the FIFO's burst read where it is that header. -/
theorem decodeHeader_read {m : ChipAddresses} {lone : Bool} {h : Byte} (hr : isRead m.bits h = true) :
    (decodeHeader m lone h).isStrobe = false ∧ (decodeHeader m lone h).isWireWrite = false ∧
    (decodeHeader m lone h = .fifoBurstRead ↔ h = fifoReadHeader m) := by
  have hd := decodeHeader_duplex m lone h
  rw [hr] at hd
  simp only [rowDuplex, Bool.and_eq_true, Bool.not_eq_true'] at hd
  refine ⟨hd.1, hd.2, fun e => ?_, fun e => by rw [e, decodeHeader_fifoRead]⟩
  rw [← encode_decodeHeader m lone h, e]; rfl

/-- A transaction's frame is decoded by its header, sent alone or not. -/
theorem decodeFrame_cons (m : ChipAddresses) (h : Byte) (data : List Byte) :
    decodeFrame m (h :: data) = .ok (decodeHeader m data.isEmpty h) := by
  cases data <;> rfl

/-- The row of a frame without the read bit sends the header and the data by Wr. -/
theorem rowBytes_write {m : ChipAddresses} {t : Txn} (h : isRead m.bits t.hdr = false) :
    rowBytes m (decodeHeader m t.data.isEmpty t.hdr) t = t.hdr :: t.data := by
  obtain ⟨h2, h3, -⟩ := decodeHeader_write (lone := t.data.isEmpty) h
  simp only [rowBytes, encode_decodeHeader, h3]
  cases hw : (decodeHeader m t.data.isEmpty t.hdr).isWireWrite with
  | true => simp
  | false =>
    rw [hw] at h2
    simp only [Bool.false_eq_true, false_or, List.isEmpty_iff] at h2
    simp [h2]

/-- The row of a frame with the read bit sends the header and its dummy bytes by Xfer. -/
theorem rowBytes_read {m : ChipAddresses} {t : Txn} (h : isRead m.bits t.hdr = true)
    (hd : t.hdr = fifoReadHeader m ∨ t.data = [dummyByte]) :
    rowBytes m (decodeHeader m t.data.isEmpty t.hdr) t = t.hdr :: t.data := by
  obtain ⟨h2, h3, h4⟩ := decodeHeader_read (lone := t.data.isEmpty) h
  simp only [rowBytes, encode_decodeHeader, h2, h3, Bool.false_or, beq_iff_eq, h4]
  rcases hd with hd | hd
  · simp [hd]
  · by_cases hf : t.hdr = fifoReadHeader m <;> simp [hf, hd]

end Sys2Proof.Machine
end

