-- ==== Sys2Proof/Laws/Codec.lean ====
section
/-! SUPPORT. The codecs: the ranges of the encoded values, and the register bytes and calls a configuration
command builds from them. -/

namespace Sys2Proof.Machine

/-- What the search of 42_numeric_conversion.md R214 and R216 finds. -/
theorem encSearch_some {x base top : Nat} {l : List Nat} {m e : Nat} (h : encSearch x base top l = some (m, e)) :
    e ∈ l ∧ rnd x (Config.fxoscHz * 2 ^ e) ≤ top ∧ m = rnd x (Config.fxoscHz * 2 ^ e) - base := by
  induction l with
  | nil => simp [encSearch] at h
  | cons a l ih =>
    simp only [encSearch] at h
    split at h
    · rename_i ht; cases h; exact ⟨by simp, ht, rfl⟩
    · have := ih h; exact ⟨by simp [this.1], this.2⟩

theorem encDev_lt (dev : Nat) : (encDev dev).1 < 8 ∧ (encDev dev).2 < 8 := by
  unfold encDev
  cases h : encSearch (dev * 2 ^ 17) 8 15 (List.range 8) with
  | none => simp
  | some me =>
    obtain ⟨m, e⟩ := me
    have h' := encSearch_some h
    simp only [List.mem_range] at h'
    exact ⟨show m < 8 by omega, h'.1⟩

theorem encDrate_lt (baud : Nat) : (encDrate baud).1 < 256 ∧ (encDrate baud).2 < 16 := by
  unfold encDrate
  cases h : encSearch (baud * 2 ^ 28) 256 511 (List.range 16) with
  | none => simp
  | some me =>
    obtain ⟨m, e⟩ := me
    have h' := encSearch_some h
    simp only [List.mem_range] at h'
    exact ⟨show m < 256 by omega, h'.1⟩

theorem chanbwSearch_lt (bw k : Nat) (hk : k ≤ 16) : (chanbwSearch bw k).1 < 4 ∧ (chanbwSearch bw k).2 < 4 := by
  induction k with
  | zero => simp [chanbwSearch]
  | succ k ih =>
    simp only [chanbwSearch]
    split
    · simp only; omega
    · exact ih (by omega)

theorem encChanbw_lt (bw : Nat) : (encChanbw bw).1 < 4 ∧ (encChanbw bw).2 < 4 := chanbwSearch_lt bw 16 (by omega)

/-- No clamp is needed (42_numeric_conversion.md R212). -/
theorem encFreq_lt {hz : Nat} (h : hz < 2 ^ 32) : encFreq hz < 2 ^ 24 := by
  simp only [encFreq, rnd, Config.fxoscHz]; omega

/-- The three bytes of the frequency word (42_numeric_conversion.md R212). -/
theorem freqBytes (n : Nat) :
    (BitVec.ofNat 24 n).extractLsb' 0 8 = BitVec.ofNat 8 n ∧
    (BitVec.ofNat 24 n).extractLsb' 8 8 = BitVec.ofNat 8 (n / 2 ^ 8) ∧
    (BitVec.ofNat 24 n).extractLsb' 16 8 = BitVec.ofNat 8 (n / 2 ^ 16) := by
  refine ⟨?_, ?_, ?_⟩ <;>
    (apply BitVec.eq_of_toNat_eq; simp [BitVec.extractLsb'_toNat, Nat.shiftRight_eq_div_pow]; try omega)

theorem freqWord {n : Nat} (h : n < 2 ^ 24) : (BitVec.ofNat 24 n).setWidth 32 = BitVec.ofNat 32 n := by
  apply BitVec.eq_of_toNat_eq; simp; omega

/-- The DEVIATN byte of SETDEV (43_configuration.md R241). -/
theorem deviatnByte (d : Byte) {m e : Nat} (hm : m < 8) (he : e < 8) :
    fieldBuild d [(fieldDeviationM, m), (fieldDeviationE, e)] = (d &&& 0x88#8) ||| BitVec.ofNat 8 (16 * e + m) := by
  revert d
  simp only [fieldBuild, List.foldl, fieldInsert, fieldDeviationM, fieldDeviationE, fieldMask]
  interval_cases m <;> interval_cases e <;> decide

/-- The MDMCFG3 byte of SETDRATE (43_configuration.md R242). -/
theorem mdmcfg3Byte (d : Byte) (m : Nat) : fieldBuild d [(fieldDrateM, m)] = BitVec.ofNat 8 m := by
  have h : fieldMask fieldDrateM = 0xFF#8 := by decide
  have h0 : ∀ b : Byte, (b &&& 0#8) = 0#8 := by decide
  have h1 : ∀ b : Byte, 0#8 ||| (b &&& 0xFF#8) = b := by decide
  simp only [fieldBuild, List.foldl, fieldInsert, h]
  rw [show ~~~(0xFF#8) = 0#8 by decide, h0, h1]
  simp [fieldDrateM]

/-- The read-modify-write of SETDRATE (43_configuration.md R242). -/
theorem drateCall (a : Base) {e : Nat} (he : e < 16) :
    rmwCall a [(fieldDrateE, e)] = .modifyReg a 0x0F#8 (BitVec.ofNat 8 e) := by
  interval_cases e <;> rfl

/-- The read-modify-write of SETCHANBW (43_configuration.md R243). -/
theorem chanbwCall (a : Base) {m e : Nat} (hm : m < 4) (he : e < 4) :
    rmwCall a [(fieldChanbwE, e), (fieldChanbwM, m)] =
      .modifyReg a 0xF0#8 (BitVec.ofNat 8 (64 * e + 16 * m)) := by
  interval_cases e <;> interval_cases m <;> rfl

/-- The read-modify-write of SETSYNC (43_configuration.md R244, 41_field_codecs.md R185). -/
theorem syncCall (a : Base) : ∀ sel mode, (sel, mode) ∈ [(0#2, 0#8), (1#2, 1#8), (2#2, 3#8), (3#2, 2#8)] →
    rmwCall a [(fieldSyncMode, syncModeCode sel)] = .modifyReg a 0x07#8 mode := by
  intro sel mode h
  simp only [List.mem_cons, Prod.mk.injEq, List.mem_nil_iff, or_false] at h
  rcases h with ⟨rfl, rfl⟩ | ⟨rfl, rfl⟩ | ⟨rfl, rfl⟩ | ⟨rfl, rfl⟩ <;> rfl

/-- The read-modify-write of SETMOD (43_configuration.md R245, 41_field_codecs.md R186). -/
theorem modCall (a : Base) : ∀ sel code,
    (sel, code) ∈ [(0#3, 0x00#8), (1#3, 0x10#8), (2#3, 0x30#8), (3#3, 0x40#8), (4#3, 0x70#8)] →
    ∃ c, modFormatCode sel = some c ∧ rmwCall a [(fieldModFormat, c)] = .modifyReg a 0x70#8 code := by
  intro sel code h
  simp only [List.mem_cons, Prod.mk.injEq, List.mem_nil_iff, or_false] at h
  rcases h with ⟨rfl, rfl⟩ | ⟨rfl, rfl⟩ | ⟨rfl, rfl⟩ | ⟨rfl, rfl⟩ | ⟨rfl, rfl⟩ <;> exact ⟨_, rfl, rfl⟩

/-- The read-modify-write of SETADDRFILT (43_configuration.md R246, 41_field_codecs.md R187). -/
theorem addrCall (a : Base) (sel : BitVec 2) :
    rmwCall a [(fieldAdrChk, adrChkCode sel)] = .modifyReg a 0x03#8 (sel.setWidth 8) := by
  have h : ∀ sel : BitVec 2, rmwMask [(fieldAdrChk, adrChkCode sel)] = 0x03#8 ∧
      rmwValue [(fieldAdrChk, adrChkCode sel)] = sel.setWidth 8 := by decide
  rw [rmwCall, (h sel).1, (h sel).2]

/-- The read-modify-write of SETPKTLEN (43_configuration.md R247, 41_field_codecs.md R188). -/
theorem pktlenCall (a : Base) : ∀ sel : BitVec 2, sel ≠ 3#2 → ∃ c, lengthConfigCode sel = some c ∧
    rmwCall a [(fieldLengthConfig, c)] = .modifyReg a 0x03#8 (sel.setWidth 8) := by
  intro sel h
  have h' : sel = 0#2 ∨ sel = 1#2 ∨ sel = 2#2 := by revert sel; decide
  rcases h' with rfl | rfl | rfl <;> exact ⟨_, rfl, rfl⟩

end Sys2Proof.Machine
end

