-- ==== Sys2Proof/Laws/Run.lean ====
section
/-! SUPPORT. Runs: a step between inputs, whole frames, and the subroutines as one lemma each, from which the
run of a command is chained. -/

namespace Sys2Proof.Machine

/-! Reaches. -/

theorem Reaches.refl (s : State) : Reaches s s := ⟨0, rfl⟩

theorem Reaches.head {s t u : State} (h : step s = .next t) (hr : Reaches t u) : Reaches s u := by
  obtain ⟨n, hn⟩ := hr
  exact ⟨n + 1, by simp [runSteps, h, hn]⟩

theorem runSteps_add {m n : Nat} {s t : State} (h : runSteps m s = some t) :
    runSteps (m + n) s = runSteps n t := by
  induction m generalizing s with
  | zero => simp only [runSteps, Option.some.injEq] at h; subst h; simp
  | succ m ih =>
    rw [Nat.succ_add]
    simp only [runSteps] at h ⊢
    split at h
    · rename_i u hu; exact ih h
    · cases h
    · cases h

theorem Reaches.trans {s t u : State} (h : Reaches s t) (h' : Reaches t u) : Reaches s u := by
  obtain ⟨m, hm⟩ := h
  obtain ⟨n, hn⟩ := h'
  exact ⟨m + n, by rw [runSteps_add hm, hn]⟩

/-! One step with no input to come. -/

/-- A running command between transactions runs as its opcode says. -/
theorem step_command {s : State} {pos : Position} {i : Instr} (hin : s.inputs = [])
    (hp : s.phase = .running pos) (ht : pos.txn = none) (hi : decodeCommand s.cmd = .ok i) :
    step s = exec i s := by
  simp [step, advance, hin, sequencerTurn, hp, fetch, ht, hi]

/-- An open transaction runs as its header says. -/
theorem step_txn {s : State} {pos : Position} {t : Txn} (hin : s.inputs = [])
    (hp : s.phase = .running pos) (ht : pos.txn = some t) :
    step s = exec (decodeHeader s.par.chip t.data.isEmpty t.hdr) s := by
  simp [step, advance, hin, sequencerTurn, hp, fetch, ht, decodeFrame_cons]

/-- A step of a write frame. -/
theorem step_write {s : State} {pos : Position} {t : Txn} (hin : s.inputs = [])
    (hp : s.phase = .running pos) (ht : pos.txn = some t) (h : isRead s.par.chip.bits t.hdr = false) :
    step s = .next (framePrimitive false (t.hdr :: t.data) 0 pos t s) := by
  obtain ⟨-, -, h4⟩ := decodeHeader_write (lone := t.data.isEmpty) h
  rw [step_txn hin hp ht, exec_wire (decodeHeader_not_command _ _ _) hp ht, rowBytes_write h, decodeHeader_duplex, h,
    rowMore, if_neg h4]

/-- A step of a read frame. -/
theorem step_read {s : State} {pos : Position} {t : Txn} (hin : s.inputs = [])
    (hp : s.phase = .running pos) (ht : pos.txn = some t) (h : isRead s.par.chip.bits t.hdr = true)
    (hd : t.hdr = fifoReadHeader s.par.chip ∨ t.data = [dummyByte] ∧ t.more = 0) :
    step s = .next (framePrimitive true (t.hdr :: t.data) t.more pos t s) := by
  obtain ⟨-, -, h4⟩ := decodeHeader_read (lone := t.data.isEmpty) h
  rw [step_txn hin hp ht, exec_wire (decodeHeader_not_command _ _ _) hp ht,
    rowBytes_read h (hd.imp id And.left), decodeHeader_duplex, h, rowMore]
  rcases hd with hd | ⟨-, hd⟩
  · rw [if_pos (h4.mpr hd)]
  · rw [hd, ite_self]

/-! Whole frames. -/

/-- The state in the middle of a frame: some events sent, the line and the position as given. -/
def midFrame (evs : List BusEvent) (c : Cs) (pos : Position) (s : State) : State :=
  setPos pos { afterBus evs s with cs := c }

theorem answerAt_midFrame (evs : List BusEvent) (c : Cs) (pos : Position) (s : State) (j : Nat) :
    answerAt (midFrame evs c pos s) j = answerAt s (evs.length + j) :=
  (answerAt_congr rfl rfl j).trans (answerAt_afterBus evs s j)

theorem clockedBytes_midFrame (evs : List BusEvent) (c : Cs) (pos : Position) (s : State) (j n : Nat) :
    clockedBytes (midFrame evs c pos s) j n = clockedBytes s (evs.length + j) n :=
  (clockedBytes_congr rfl rfl j n).trans (clockedBytes_afterBus evs s j n)

/-- A successful primitive in the middle of a frame: its event joins the others. -/
theorem issued_midFrame (p : Prim) (evs : List BusEvent) (c c' : Cs) (pos pos' : Position) (s : State) :
    setPos pos' { issued p (midFrame evs c pos s) with cs := c' } =
      midFrame (evs ++ [(p, replyTo p (midFrame evs c pos s))]) c' pos' s := by
  simp [midFrame, issued, setPos, afterBus, Nat.add_assoc]

theorem issued_midFrame' (p : Prim) (evs : List BusEvent) (c : Cs) (pos pos' : Position) (s : State) :
    setPos pos' (issued p (midFrame evs c pos s)) =
      midFrame (evs ++ [(p, replyTo p (midFrame evs c pos s))]) c pos' s := by
  simp [midFrame, issued, setPos, afterBus, Nat.add_assoc]

theorem midFrame_deselected (evs : List BusEvent) (pos : Position) (s : State) :
    midFrame evs .deselected pos s = setPos pos (afterBus evs s) := rfl

/-- The first primitive of every frame. -/
theorem step_select {s : State} {pos : Position} {t : Txn} (hs : t.stage = .select)
    (hok : (answerAt s 0).failure = none) (d : Bool) (bytes : List Byte) (m : Nat) :
    framePrimitive d bytes m pos t s =
      midFrame [(.csSelect, .done)] .selected { pos with txn := some { t with stage := .send } } s := by
  simp only [framePrimitive, hs, primitive_ok _ hok]
  simp [midFrame, issued, setPos, afterBus, replyTo_csSelect hok]

/-- The last primitive of every frame. -/
theorem step_deselect {evs : List BusEvent} {s : State} {pos : Position} {t : Txn} (hs : t.stage = .deselect)
    (hok : (answerAt s evs.length).failure = none) (d : Bool) (bytes : List Byte) (m : Nat) (c : Cs)
    (pos0 : Position) :
    framePrimitive d bytes m pos t (midFrame evs c pos0 s) =
      setPos { pos with txn := none } (afterBus (evs ++ [(.csDeselect, .done)]) s) := by
  have h : (answerAt (midFrame evs c pos0 s) 0).failure = none := by rw [answerAt_midFrame]; exact hok
  simp only [framePrimitive, hs, primitive_ok _ h]
  rw [issued_midFrame, replyTo_csDeselect h, midFrame_deselected]

/-- A write frame, whole (30_encoding.md R115). -/
theorem reaches_write {s : State} {pos : Position} {h : Byte} {data : List Byte} {m : Nat} (hin : s.inputs = [])
    (hp : s.phase = .running pos) (ht : pos.txn = some ⟨h, data, m, .select⟩)
    (h7 : isRead s.par.chip.bits h = false)
    (hok : BusOk 3 s) :
    Reaches s (setPos { pos with txn := none } (afterBus (writeEvents (h :: data)) s)) := by
  have h0 : (answerAt s 0).failure = none := hok 0 (by omega)
  refine Reaches.head (step_write hin hp ht h7) ?_
  rw [step_select rfl h0]
  refine Reaches.head (step_write hin rfl rfl h7) ?_
  have h1 : (answerAt (midFrame [(Prim.csSelect, Reply.done)] .selected
      { pos with txn := some ⟨h, data, m, .send⟩ } s) 0).failure = none := by
    rw [answerAt_midFrame]; exact hok 1 (by omega)
  simp only [framePrimitive, Bool.false_eq_true, if_false]
  rw [primitive_ok _ h1, issued_midFrame', replyTo_wr h1]
  refine Reaches.head (step_write hin rfl rfl h7) ?_
  rw [step_deselect rfl (hok 2 (by omega))]
  exact Reaches.refl _

/-- A read frame of one byte, whole (30_encoding.md R115). -/
theorem reaches_read {s : State} {pos : Position} {h : Byte} (hin : s.inputs = [])
    (hp : s.phase = .running pos) (ht : pos.txn = some ⟨h, [dummyByte], 0, .select⟩)
    (h7 : isRead s.par.chip.bits h = true)
    (hok : BusOk 3 s) :
    Reaches s (setPos { pos with txn := none, rx := clockedBytes s 1 2 } (afterBus (readEvents h s) s)) := by
  have h0 : (answerAt s 0).failure = none := hok 0 (by omega)
  refine Reaches.head (step_read hin hp ht h7 (.inr ⟨rfl, rfl⟩)) ?_
  rw [step_select rfl h0]
  refine Reaches.head (step_read hin rfl rfl h7 (.inr ⟨rfl, rfl⟩)) ?_
  have h1 : (answerAt (midFrame [(Prim.csSelect, Reply.done)] .selected
      { pos with txn := some ⟨h, [dummyByte], 0, .send⟩ } s) 0).failure = none := by
    rw [answerAt_midFrame]; exact hok 1 (by omega)
  simp only [framePrimitive, if_true]
  rw [primitive_ok _ h1, issued_midFrame', replyTo_xfer h1, clockedBytes_midFrame]
  refine Reaches.head (step_read hin rfl rfl h7 (.inr ⟨rfl, rfl⟩)) ?_
  rw [step_deselect rfl (hok 2 (by omega))]
  exact Reaches.refl _

/-- The frame of READ_FIFO, whole (30_encoding.md R115). -/
theorem reaches_fifo {s : State} {pos : Position} {n : Nat} (hin : s.inputs = [])
    (hp : s.phase = .running pos)
    (ht : pos.txn = some ⟨fifoReadHeader s.par.chip, [dummyByte, dummyByte], n, .select⟩)
    (hpay : pos.payload = []) (hok : BusOk (if n = 0 then 3 else 4) s) :
    Reaches s (setPos { pos with txn := none, rx := clockedBytes s 1 3, payload := clockedBytes s 2 n }
      (afterBus (fifoReadEvents n s) s)) := by
  have h7 : isRead s.par.chip.bits (fifoReadHeader s.par.chip) = true := isRead_headerByte _ _ _ _
  have hle : 3 ≤ (if n = 0 then 3 else 4) := by split <;> omega
  have h0 : (answerAt s 0).failure = none := hok 0 (by omega)
  refine Reaches.head (step_read hin hp ht h7 (.inl rfl)) ?_
  rw [step_select rfl h0]
  refine Reaches.head (step_read hin rfl rfl h7 (.inl rfl)) ?_
  have h1 : (answerAt (midFrame [(Prim.csSelect, Reply.done)] .selected
      { pos with txn := some ⟨fifoReadHeader s.par.chip, [dummyByte, dummyByte], n, .send⟩ } s) 0).failure =
        none := by
    rw [answerAt_midFrame]; exact hok 1 (by omega)
  simp only [framePrimitive, if_true]
  rw [primitive_ok _ h1, issued_midFrame', replyTo_xfer h1, clockedBytes_midFrame]
  by_cases hn : n = 0
  · subst hn
    refine Reaches.head (step_read hin rfl rfl h7 (.inl rfl)) ?_
    rw [if_pos rfl, step_deselect rfl (hok 2 (by omega))]
    have e : pos.payload = clockedBytes s 2 0 := by rw [hpay]; rfl
    rw [← e]
    exact Reaches.refl _
  · rw [if_neg hn] at hok
    refine Reaches.head (step_read hin rfl rfl h7 (.inl rfl)) ?_
    rw [if_neg hn]
    simp only [framePrimitive, List.cons_append, List.nil_append]
    rw [primitive_ok, issued_midFrame', replyTo_xfer, clockedBytes_midFrame, List.length_replicate]
    · refine Reaches.head (step_read hin rfl rfl h7 (.inl rfl)) ?_
      rw [step_deselect rfl (hok 3 (by omega))]
      simp only [fifoReadEvents, if_neg hn]
      exact Reaches.refl _
    · rw [answerAt_midFrame]; exact hok 2 (by omega)
    · rw [answerAt_midFrame]; exact hok 2 (by omega)

/-! Subroutine calls. A position is written with its nine parts: the block, the calls, the transaction, and the
pseudocode's variables. -/

/-- Nothing comes in, and the command running is `i`. -/
abbrev InRun (i : Instr) (x : State) : Prop := x.inputs = [] ∧ decodeCommand x.cmd = .ok i

/-- A running command makes its next call. -/
theorem step_call {i : Instr} {x : State} (hx : InRun i x) {k : Nat} {c : Call} {rest : List Call}
    {rx pl : List Byte} {o n p q : Byte} :
    step (setPos ⟨k, c :: rest, none, rx, pl, o, n, p, q⟩ x) =
      .next (callStep c ⟨k, rest, none, rx, pl, o, n, p, q⟩ (setPos ⟨k, c :: rest, none, rx, pl, o, n, p, q⟩ x)) :=
  (step_command (s := setPos ⟨k, c :: rest, none, rx, pl, o, n, p, q⟩ x)
    (pos := ⟨k, c :: rest, none, rx, pl, o, n, p, q⟩) hx.1 rfl rfl hx.2).trans
    (exec_call (pos := ⟨k, c :: rest, none, rx, pl, o, n, p, q⟩) (decodeCommand_isCommand hx.2) rfl rfl rfl)

/-- A running command runs its next block. -/
theorem step_block {i : Instr} {x : State} (hx : InRun i x) {k : Nat} {rx pl : List Byte} {o n p q : Byte} :
    step (setPos ⟨k, [], none, rx, pl, o, n, p, q⟩ x) =
      .next (commandBody i ⟨k, [], none, rx, pl, o, n, p, q⟩ (setPos ⟨k, [], none, rx, pl, o, n, p, q⟩ x)) :=
  (step_command (s := setPos ⟨k, [], none, rx, pl, o, n, p, q⟩ x)
    (pos := ⟨k, [], none, rx, pl, o, n, p, q⟩) hx.1 rfl rfl hx.2).trans
    (exec_block (pos := ⟨k, [], none, rx, pl, o, n, p, q⟩) (decodeCommand_isCommand hx.2) rfl rfl rfl)

/-- A write frame from a position written out. -/
theorem txn_write {x : State} (hin : x.inputs = []) {k : Nat} {cs : List Call} {h : Byte} {data : List Byte}
    {m : Nat} {rx pl : List Byte} {o n p q : Byte} (h7 : isRead x.par.chip.bits h = false) (hok : BusOk 3 x) :
    Reaches (setPos ⟨k, cs, some ⟨h, data, m, .select⟩, rx, pl, o, n, p, q⟩ x)
      (setPos ⟨k, cs, none, rx, pl, o, n, p, q⟩ (sentWrite (h :: data) x)) :=
  reaches_write (s := setPos ⟨k, cs, some ⟨h, data, m, .select⟩, rx, pl, o, n, p, q⟩ x)
    (pos := ⟨k, cs, some ⟨h, data, m, .select⟩, rx, pl, o, n, p, q⟩) hin rfl rfl h7 hok

/-- A READ_REG frame from a position written out. -/
theorem txn_read {x : State} (hin : x.inputs = []) {k : Nat} {cs : List Call} {h : Byte} {rx pl : List Byte}
    {o n p q : Byte} (h7 : isRead x.par.chip.bits h = true) (hok : BusOk 3 x) :
    Reaches (setPos ⟨k, cs, some ⟨h, [dummyByte], 0, .select⟩, rx, pl, o, n, p, q⟩ x)
      (setPos ⟨k, cs, none, clockedBytes x 1 2, pl, o, n, p, q⟩ (sentRead h x)) :=
  reaches_read (s := setPos ⟨k, cs, some ⟨h, [dummyByte], 0, .select⟩, rx, pl, o, n, p, q⟩ x)
    (pos := ⟨k, cs, some ⟨h, [dummyByte], 0, .select⟩, rx, pl, o, n, p, q⟩) hin rfl rfl h7 hok

/-- A READ_FIFO frame from a position written out. -/
theorem txn_fifo {x : State} (hin : x.inputs = []) {k m : Nat} {cs : List Call} {rx : List Byte}
    {o n p q : Byte} (hok : BusOk (if m = 0 then 3 else 4) x) :
    Reaches (setPos ⟨k, cs, some ⟨fifoReadHeader x.par.chip, [dummyByte, dummyByte], m, .select⟩, rx, [], o, n, p, q⟩ x)
      (setPos ⟨k, cs, none, clockedBytes x 1 3, clockedBytes x 2 m, o, n, p, q⟩ (sentFifoRead m x)) :=
  reaches_fifo
    (s := setPos
      ⟨k, cs, some ⟨fifoReadHeader x.par.chip, [dummyByte, dummyByte], m, .select⟩, rx, [], o, n, p, q⟩ x)
    (pos := ⟨k, cs, some ⟨fifoReadHeader x.par.chip, [dummyByte, dummyByte], m, .select⟩, rx, [], o, n, p, q⟩)
    hin rfl rfl rfl hok

/-- A run goes on after a block of the command's own pseudocode. -/
theorem reaches_block {i : Instr} {x u t : State} (hx : InRun i x) {k : Nat} {rx pl : List Byte}
    {o n p q : Byte}
    (he : commandBody i ⟨k, [], none, rx, pl, o, n, p, q⟩ (setPos ⟨k, [], none, rx, pl, o, n, p, q⟩ x) = u)
    (h : Reaches u t) : Reaches (setPos ⟨k, [], none, rx, pl, o, n, p, q⟩ x) t :=
  Reaches.head ((step_block hx).trans (congrArg _ he)) h

/-- A run starts at block 0 of the command just accepted. -/
theorem reaches_started {w : Byte} {i : Instr} {s t : State} (h : Started w s) (hd : decodeCommand w = .ok i)
    (hr : InRun i s → Reaches (setPos ⟨0, [], none, [], [], 0#8, 0#8, 0#8, 0#8⟩ s) t) : Reaches s t := by
  have e : setPos Position.start s = s := by
    simp only [setPos]; rw [← h.2.2]
  rw [← e]
  exact hr ⟨h.1, by rw [h.2.1]; exact hd⟩

/-- WRITE_REG (40_bus_transactions.md R143). -/
theorem call_writeReg {i : Instr} {x : State} (hx : InRun i x) {k : Nat} {a : Base} {v : Byte} {rest : List Call}
    {rx pl : List Byte} {o n p q : Byte} (hok : BusOk 3 x) :
    Reaches (setPos ⟨k, .writeReg a v :: rest, none, rx, pl, o, n, p, q⟩ x)
      (setPos ⟨k, rest, none, rx, pl, o, n, p, q⟩ (sentWriteReg a v x)) := by
  refine Reaches.head (step_call hx) ((txn_write hx.1 (isRead_headerByte _ _ _ a) hok).trans ?_)
  rw [← hdrWriteOf, hdrWriteOf_eq]; exact Reaches.refl _

/-- STROBE (40_bus_transactions.md R144). -/
theorem call_strobe {i : Instr} {x : State} (hx : InRun i x) {k : Nat} {a : Base} {rest : List Call}
    {rx pl : List Byte} {o n p q : Byte} (hok : BusOk 3 x) :
    Reaches (setPos ⟨k, .strobe a :: rest, none, rx, pl, o, n, p, q⟩ x)
      (setPos ⟨k, rest, none, rx, pl, o, n, p, q⟩ (sentStrobe a x)) := by
  refine Reaches.head (step_call hx) ((txn_write hx.1 (isRead_headerByte _ _ _ a) hok).trans ?_)
  rw [← hdrWriteOf, hdrWriteOf_eq]; exact Reaches.refl _

/-- WRITE_BURST (40_bus_transactions.md R146). -/
theorem call_writeBurst {i : Instr} {x : State} (hx : InRun i x) {k : Nat} {a : Base} {bytes : List Byte}
    {rest : List Call} {rx pl : List Byte} {o n p q : Byte} (hok : BusOk 3 x) :
    Reaches (setPos ⟨k, .writeBurst a bytes :: rest, none, rx, pl, o, n, p, q⟩ x)
      (setPos ⟨k, rest, none, rx, pl, o, n, p, q⟩ (sentWrite (burstWriteHeader a x :: bytes) x)) := by
  refine Reaches.head (step_call hx) ((txn_write hx.1 (isRead_headerByte _ _ _ a) hok).trans ?_)
  rw [← hdrBurstWriteOf, hdrBurstWriteOf_eq]; exact Reaches.refl _

/-- READ_REG (40_bus_transactions.md R142). -/
theorem call_readReg {i : Instr} {x : State} (hx : InRun i x) {k : Nat} {id : BitVec 7} {rest : List Call}
    {rx pl : List Byte} {o n p q : Byte} (hok : BusOk 3 x) :
    Reaches (setPos ⟨k, .readReg id :: rest, none, rx, pl, o, n, p, q⟩ x)
      (setPos ⟨k, rest, none, clockedBytes x 1 2, pl, o, n, p, q⟩ (sentRead (hdrReadOf x.par.chip.bits id) x)) :=
  Reaches.head (step_call hx) (txn_read hx.1 (isRead_headerByte _ _ _ _) hok)

/-- READ_REG of a status register (40_bus_transactions.md R142, 30_encoding.md R111). -/
theorem call_readStatus {i : Instr} {x : State} (hx : InRun i x) {k : Nat} {a : Base} {rest : List Call}
    {rx pl : List Byte} {o n p q : Byte} (hok : BusOk 3 x) :
    Reaches (setPos ⟨k, .readReg (statusId a) :: rest, none, rx, pl, o, n, p, q⟩ x)
      (setPos ⟨k, rest, none, clockedBytes x 1 2, pl, o, n, p, q⟩ (sentStatusRead a x)) := by
  have h := call_readReg hx (k := k) (id := statusId a) (rest := rest) (rx := rx) (pl := pl) (o := o) (n := n)
    (p := p) (q := q) hok
  rwa [hdrReadOf_statusId] at h

/-- READ_FIFO (40_bus_transactions.md R145). -/
theorem call_readFifo {i : Instr} {x : State} (hx : InRun i x) {k m : Nat} {rest : List Call}
    {rx pl : List Byte} {o n p q : Byte} (hok : BusOk (if m = 0 then 3 else 4) x) :
    Reaches (setPos ⟨k, .readFifo m :: rest, none, rx, pl, o, n, p, q⟩ x)
      (setPos ⟨k, rest, none, clockedBytes x 1 3, clockedBytes x 2 m, o, n, p, q⟩ (sentFifoRead m x)) :=
  Reaches.head (step_call hx) (txn_fifo hx.1 hok)

/-- What READ_REG returned is what `readByte` says. -/
theorem readValue_clocked {k : Nat} {x : State} {cs : List Call} {t : Option Txn} {pl : List Byte}
    {o n p q : Byte} : readValue ⟨k, cs, t, clockedBytes x 1 2, pl, o, n, p, q⟩ = readByte x := rfl

theorem fifoLen_clocked {k : Nat} {x : State} {cs : List Call} {t : Option Txn} {pl : List Byte}
    {o n p q : Byte} : fifoLen ⟨k, cs, t, clockedBytes x 1 3, pl, o, n, p, q⟩ = chipByte x 1 1 := rfl

theorem fifoAddr_clocked {k : Nat} {x : State} {cs : List Call} {t : Option Txn} {pl : List Byte}
    {o n p q : Byte} : fifoAddr ⟨k, cs, t, clockedBytes x 1 3, pl, o, n, p, q⟩ = chipByte x 1 2 := rfl

theorem inRun_sentRead {i : Instr} {x : State} (hx : InRun i x) (h : Byte) : InRun i (sentRead h x) := hx

theorem inRun_sentStatusRead {i : Instr} {x : State} (hx : InRun i x) (a : Base) : InRun i (sentStatusRead a x) := hx

theorem inRun_sentStrobe {i : Instr} {x : State} (hx : InRun i x) (c : Base) : InRun i (sentStrobe c x) := hx

theorem inRun_sentWrite {i : Instr} {x : State} (hx : InRun i x) (bs : List Byte) : InRun i (sentWrite bs x) := hx

/-- The premise on the answers, after the frames of the first ones. -/
theorem BusOk.drop {evs : List BusEvent} {n m : Nat} {x : State} (h : BusOk n x) (hm : evs.length + m ≤ n) :
    BusOk m (afterBus evs x) := fun i hi => by
  rw [answerAt_afterBus]; exact h _ (by omega)

theorem BusOk.afterRead {hdr : Byte} {n : Nat} {x : State} (h : BusOk (3 + n) x) : BusOk n (sentRead hdr x) :=
  h.drop (Nat.le_refl _)

theorem BusOk.afterWrite {bs : List Byte} {n : Nat} {x : State} (h : BusOk (3 + n) x) : BusOk n (sentWrite bs x) :=
  h.drop (Nat.le_refl _)

theorem BusOk.le {n m : Nat} {x : State} (h : BusOk n x) (hm : m ≤ n) : BusOk m x :=
  fun i hi => h i (by omega)

/-- MODIFY_REG (40_bus_transactions.md R147). -/
theorem call_modifyReg {i : Instr} {x : State} (hx : InRun i x) {k : Nat} {a : Base} {mask value : Byte}
    {rest : List Call} {rx pl : List Byte} {o n p q : Byte} (hok : BusOk 6 x) :
    Reaches (setPos ⟨k, .modifyReg a mask value :: rest, none, rx, pl, o, n, p, q⟩ x)
      (setPos ⟨k, rest, none, clockedBytes x 1 2, pl, readByte x,
        (readByte x &&& ~~~mask) ||| (value &&& mask), p, q⟩ (sentModify a mask value x)) := by
  refine Reaches.head (step_call hx) (.trans (call_readReg hx (hok.le (by omega))) ?_)
  rw [hdrReadOf_configId]
  exact Reaches.head (step_call (inRun_sentRead hx _)) (call_writeReg (inRun_sentRead hx _) (BusOk.afterRead hok))

/-- The register writes of a list, in its order (43_configuration.md R248). -/
theorem call_writeRegs {i : Instr} {rest : List Call} {k : Nat} {rx pl : List Byte} {o n p q : Byte}
    (pairs : List (Base × Byte)) {x : State} (hx : InRun i x) (hok : BusOk (3 * pairs.length) x) :
    Reaches (setPos ⟨k, pairs.map (fun bv => .writeReg bv.1 bv.2) ++ rest, none, rx, pl, o, n, p, q⟩ x)
      (setPos ⟨k, rest, none, rx, pl, o, n, p, q⟩ (sentWrites pairs x)) := by
  induction pairs generalizing x with
  | nil => exact Reaches.refl _
  | cons c pairs ih =>
    simp only [List.length_cons] at hok
    refine .trans (call_writeReg hx (hok.le (by omega))) ?_
    exact ih (inRun_sentWrite hx _) (BusOk.afterWrite (hok.le (by omega)))


/-- AWAIT_STATE that ends at its read number `m` (44_radio_state_machine.md R271). -/
theorem call_awaitState {i : Instr} {rest : List Call} {k : Nat} {pl : List Byte} {o n p q : Byte}
    {code : BitVec 5} (m : Nat) {rx : List Byte} {x : State} (hx : InRun i x) (h : AwaitEnds code m x) :
    ∃ rx', Reaches (setPos ⟨k, .awaitState code :: rest, none, rx, pl, o, n, p, q⟩ x)
      (setPos ⟨k, rest, none, rx', pl, o, n, p, q⟩ (awaited m x)) := by
  induction m generalizing x rx with
  | zero =>
    refine ⟨clockedBytes x 1 2, Reaches.head (step_call hx) (.trans (call_readStatus hx h.1) ?_)⟩
    refine Reaches.head ((step_call (inRun_sentStatusRead hx _)).trans (congrArg _ (if_pos ?_))) (Reaches.refl _)
    exact h.2
  | succ m ih =>
    obtain ⟨rx', hr⟩ := ih (rx := clockedBytes x 1 2) (inRun_sentStatusRead hx _) h.2.2
    refine ⟨rx', Reaches.head (step_call hx) (.trans (call_readStatus hx h.1) ?_)⟩
    refine Reaches.head ((step_call (inRun_sentStatusRead hx _)).trans (congrArg _ (if_neg ?_))) hr
    exact h.2.1

theorem inRun_polls {i : Instr} (a : Base) (m : Nat) {x : State} (hx : InRun i x) : InRun i (sentPolls a m x) := by
  induction m generalizing x with
  | zero => exact hx
  | succ m ih => exact ih (inRun_sentStatusRead hx a)

theorem par_polls (a : Base) (m : Nat) (x : State) : (sentPolls a m x).par = x.par := by
  induction m generalizing x with
  | zero => rfl
  | succ m ih => exact ih (sentStatusRead a x)

theorem inRun_wentIdle {i : Instr} (m : Nat) {x : State} (hx : InRun i x) : InRun i (wentIdle m x) :=
  inRun_polls _ _ (inRun_sentWrite hx _)

@[simp] theorem par_wentIdle (m : Nat) (x : State) : (wentIdle m x).par = x.par := par_polls _ _ _

theorem inRun_wentTo {i : Instr} (c : Base) (n m : Nat) {x : State} (hx : InRun i x) : InRun i (wentTo c n m x) :=
  inRun_polls _ _ (inRun_sentWrite (inRun_wentIdle n hx) _)

/-- GOTO(IDLE) (44_radio_state_machine.md R272). -/
theorem call_goIdle {i : Instr} {rest : List Call} {k : Nat} {rx pl : List Byte} {o n p q : Byte}
    (m : Nat) {x : State} (hx : InRun i x) (h : IdleEnds m x) :
    ∃ rx', Reaches (setPos ⟨k, .goTo .idle :: rest, none, rx, pl, o, n, p, q⟩ x)
      (setPos ⟨k, rest, none, rx', pl, o, n, p, q⟩ (wentIdle m x)) := by
  obtain ⟨rx', hr⟩ := call_awaitState (rest := rest) (k := k) (rx := rx) (pl := pl) (o := o) (n := n) (p := p)
    (q := q) m (inRun_sentStrobe hx x.par.chip.strobes.sidle) h.2
  exact ⟨rx', Reaches.head (step_call hx) (.trans (call_strobe hx h.1) hr)⟩

/-- GOTO(RX) and GOTO(TX) (44_radio_state_machine.md R272). -/
theorem call_goTo {i : Instr} {rest : List Call} {k : Nat} {rx pl : List Byte} {o n p q : Byte}
    {target : Radio} {strobe : Base} {code : BitVec 5} (m m' : Nat) {x : State} (hx : InRun i x)
    (ht : goToCalls x.par target = [.goTo .idle, .strobe strobe, .awaitState code])
    (h : GotoEnds strobe code m m' x) :
    ∃ rx', Reaches (setPos ⟨k, .goTo target :: rest, none, rx, pl, o, n, p, q⟩ x)
      (setPos ⟨k, rest, none, rx', pl, o, n, p, q⟩ (wentTo strobe m m' x)) := by
  obtain ⟨rx1, hr1⟩ := call_goIdle (rest := [.strobe strobe, .awaitState code] ++ rest) (k := k) (rx := rx)
    (pl := pl) (o := o) (n := n) (p := p) (q := q) m hx h.1
  obtain ⟨rx2, hr2⟩ := call_awaitState (rest := rest) (k := k) (rx := rx1) (pl := pl) (o := o) (n := n) (p := p)
    (q := q) m' (inRun_sentStrobe (inRun_wentIdle m hx) strobe) h.2.2
  refine ⟨rx2, Reaches.head (step_call hx) ?_⟩
  change Reaches (setPos (pushCalls (goToCalls x.par target) _) x) _
  rw [ht]
  exact hr1.trans (.trans (call_strobe (inRun_wentIdle m hx) h.2.1) hr2)

theorem rx_overflow_bit : ∀ v : Byte, rxOverflowFlag v = v.getLsbD 7 := by decide

theorem rx_count_bits : ∀ v : Byte, rxCount v = v.extractLsb' 0 7 := by decide

theorem countAfter_lastCount (m : Nat) (last : BitVec 7) (c : BitVec 7) (x : State) :
    countAfter m last { x with lastCount := c } = countAfter m last x := by
  induction m generalizing last x with
  | zero => rfl
  | succ m ih => exact ih _ (polledRx x)

/-- The polls of WAIT_RX_BYTES up to its return (45_packet_protocol.md R292). -/
theorem call_rxTest {i : Instr} {rest : List Call} {k : Nat} {pl : List Byte} {o n p q : Byte}
    (m : Nat) {rx : List Byte} {last : BitVec 7} {x : State} (hx : InRun i x)
    (h : RxWaitEnds m last x) :
    ∃ rx', Reaches
      (setPos ⟨k, .readReg (statusId x.par.chip.status.rxbytes) :: .rxTest :: rest, none, rx, pl, o, n, p, q⟩
        { x with lastCount := last })
      (setPos ⟨k, rest, none, rx', pl, o, n, p, q⟩
        { sentPolls x.par.chip.status.rxbytes (m + 1) x with lastCount := countAfter m last x }) := by
  induction m generalizing x rx last with
  | zero =>
    refine ⟨clockedBytes x 1 2, .trans (call_readStatus (x := { x with lastCount := last }) hx h.1) ?_⟩
    refine Reaches.head (step_call (x := sentStatusRead x.par.chip.status.rxbytes { x with lastCount := last }) hx) ?_
    have h2 := h.2
    simp only [callStep]
    rw [readValue_clocked, rx_overflow_bit, rx_count_bits, if_neg, if_pos]
    · exact Reaches.refl _
    · exact h2.2
    · have := h2.1; simp only [Bool.not_eq_true]; exact this
  | succ m ih =>
    obtain ⟨rx', hr⟩ := ih (rx := clockedBytes x 1 2) (inRun_sentStatusRead hx _) h.2.2.2
    refine ⟨rx', .trans (call_readStatus (x := { x with lastCount := last }) hx h.1) ?_⟩
    refine Reaches.head (step_call (x := sentStatusRead x.par.chip.status.rxbytes { x with lastCount := last }) hx) ?_
    have h2 := h.2
    simp only [callStep]
    rw [readValue_clocked, rx_overflow_bit, rx_count_bits, if_neg, if_neg]
    · exact hr
    · exact h2.2.1
    · have := h2.1; simp only [Bool.not_eq_true]; exact this

/-- WAIT_RX_BYTES that returns (45_packet_protocol.md R292). -/
theorem call_waitRxBytes {i : Instr} {rest : List Call} {k : Nat} {rx pl : List Byte} {o n p q : Byte}
    (m : Nat) {x : State} (hx : InRun i x) (h : RxWaitEnds m 0#7 x) :
    ∃ rx', Reaches (setPos ⟨k, .waitRxBytes :: rest, none, rx, pl, o, n, p, q⟩ x)
      (setPos ⟨k, rest, none, rx', pl, o, n, p, q⟩
        { sentPolls x.par.chip.status.rxbytes (m + 1) x with lastCount := countAfter m 0#7 x }) := by
  obtain ⟨rx', hr⟩ := call_rxTest (rest := rest) (k := k) (rx := rx) (pl := pl) (o := o) (n := n) (p := p)
    (q := q) m hx h
  exact ⟨rx', Reaches.head (step_call hx) hr⟩

/-- The polls of WAIT_RX_BYTES up to the overflow, the SFRX strobe and the raise (45_packet_protocol.md R293). -/
theorem call_rxOverflow {i : Instr} {rest : List Call} {k : Nat} {pl : List Byte} {o n p q : Byte}
    (m : Nat) {rx : List Byte} {last : BitVec 7} {x : State} (hx : InRun i x)
    (h : RxWaitOverflows m last x) (hs : BusOk 3 (sentPolls x.par.chip.status.rxbytes (m + 1) x)) :
    Reaches
      (setPos ⟨k, .readReg (statusId x.par.chip.status.rxbytes) :: .rxTest :: rest, none, rx, pl, o, n, p, q⟩
        { x with lastCount := last })
      (ended .rxOverflow
        { sentStrobe x.par.chip.strobes.sfrx (sentPolls x.par.chip.status.rxbytes (m + 1) x) with
          lastCount := countAfter m last x }) := by
  induction m generalizing x rx last with
  | zero =>
    refine .trans (call_readStatus (x := { x with lastCount := last }) hx h.1) ?_
    refine Reaches.head (step_call (x := sentStatusRead x.par.chip.status.rxbytes { x with lastCount := last }) hx) ?_
    have h2 := h.2
    simp only [callStep]
    rw [readValue_clocked, rx_overflow_bit, if_pos]
    · refine .trans (call_strobe (x := sentStatusRead x.par.chip.status.rxbytes { x with lastCount := last }) hx hs) ?_
      exact Reaches.head
        (step_call (x := sentStrobe x.par.chip.strobes.sfrx
          (sentStatusRead x.par.chip.status.rxbytes { x with lastCount := last })) hx)
        (Reaches.refl _)
    · exact h2
  | succ m ih =>
    have hr := ih (rx := clockedBytes x 1 2) (inRun_sentStatusRead hx _) h.2.2.2 hs
    refine .trans (call_readStatus (x := { x with lastCount := last }) hx h.1) ?_
    refine Reaches.head (step_call (x := sentStatusRead x.par.chip.status.rxbytes { x with lastCount := last }) hx) ?_
    have h2 := h.2
    simp only [callStep]
    rw [readValue_clocked, rx_overflow_bit, rx_count_bits, if_neg, if_neg]
    · exact hr
    · exact h2.2.1
    · have := h2.1; simp only [Bool.not_eq_true]; exact this

/-- A line wait that ends at its read number `m` (45_packet_protocol.md R301). -/
theorem call_lineWait {i : Instr} {rest : List Call} {k : Nat} {rx pl : List Byte} {o n p q : Byte}
    {level : Bool} (m : Nat) {x : State} (hx : InRun i x) (h : LineEnds level m x) :
    Reaches (setPos ⟨k, .lineWait level :: rest, none, rx, pl, o, n, p, q⟩ x)
      (setPos ⟨k, rest, none, rx, pl, o, n, p, q⟩ (lineReads (m + 1) x)) := by
  induction m generalizing x with
  | zero =>
    refine Reaches.head (step_call hx) ?_
    have h1 : (answerAt (setPos ⟨k, .lineWait level :: rest, none, rx, pl, o, n, p, q⟩ x) 0).failure = none := h.1
    have h2 : (answerAt (setPos ⟨k, .lineWait level :: rest, none, rx, pl, o, n, p, q⟩ x) 0).level = level := h.2
    simp only [callStep]
    rw [primitive_ok _ h1, replyTo_lineRead h1, h2, if_pos rfl]
    exact Reaches.refl _
  | succ m ih =>
    refine Reaches.head (step_call hx) ?_
    have h1 : (answerAt (setPos ⟨k, .lineWait level :: rest, none, rx, pl, o, n, p, q⟩ x) 0).failure = none := h.1
    have h2 : (answerAt (setPos ⟨k, .lineWait level :: rest, none, rx, pl, o, n, p, q⟩ x) 0).level = !level := h.2.1
    simp only [callStep]
    rw [primitive_ok _ h1, replyTo_lineRead h1, h2, if_neg]
    · exact ih (x := issued .lineRead x) hx h.2.2
    · simp

end Sys2Proof.Machine
end

