-- ==== Sys2Proof/Laws/Frame.lean ====
section
/-! SUPPORT. What polls, line reads and whole frames leave alone, and that a write to FRAME commutes with all of
them: the run of TRANSMIT writes FRAME before its first primitive. -/

namespace Sys2Proof.Machine

/-- A result that is no fault writes RESULT and DONE and ends the command (60_exceptions.md R335). -/
theorem raise_eq_ended {r : Result} (hr : resultIsFault r = false) (s : State) : raise r s = ended r s := by
  simp [raise, complete, hr, ended]

/-- The CRC-ok flag is bit 7 (41_field_codecs.md R190). -/
theorem crc_ok_bit : ∀ q : Byte, crcOk q = q.getLsbD 7 := by decide

theorem polls_same (a : Base) (m : Nat) (x : State) :
    (sentPolls a m x).buf = x.buf ∧ (sentPolls a m x).arg0 = x.arg0 ∧ (sentPolls a m x).par = x.par := by
  induction m generalizing x with
  | zero => exact ⟨rfl, rfl, rfl⟩
  | succ m ih => exact ih (sentStatusRead a x)

theorem inRun_lineReads {i : Instr} (m : Nat) {x : State} (hx : InRun i x) : InRun i (lineReads m x) := by
  induction m generalizing x with
  | zero => exact hx
  | succ m ih => exact ih (x := issued .lineRead x) hx

/-- The state with FRAME and the count of memory reads replaced. -/
def withFrame (m : Memory) (d : Nat) (x : State) : State := { x with frame := m, memDraws := d }

theorem sentPolls_withFrame (a : Base) (m : Nat) (x : State) (f : Memory) (d : Nat) :
    sentPolls a m (withFrame f d x) = withFrame f d (sentPolls a m x) := by
  induction m generalizing x with
  | zero => rfl
  | succ m ih => exact ih (sentStatusRead a x)

theorem lineReads_withFrame (m : Nat) (x : State) (f : Memory) (d : Nat) :
    lineReads m (withFrame f d x) = withFrame f d (lineReads m x) := by
  induction m generalizing x with
  | zero => rfl
  | succ m ih => exact ih (issued .lineRead x)

theorem AwaitEnds.withFrame {c : BitVec 5} {m : Nat} {x : State} (f : Memory) (d : Nat) (h : AwaitEnds c m x) :
    AwaitEnds c m (withFrame f d x) := by
  induction m generalizing x with
  | zero => exact h
  | succ m ih => exact ⟨h.1, h.2.1, ih h.2.2⟩

theorem LineEnds.withFrame {l : Bool} {m : Nat} {x : State} (f : Memory) (d : Nat) (h : LineEnds l m x) :
    LineEnds l m (withFrame f d x) := by
  induction m generalizing x with
  | zero => exact h
  | succ m ih => exact ⟨h.1, h.2.1, ih h.2.2⟩

theorem wentIdle_withFrame (m : Nat) (x : State) (f : Memory) (d : Nat) :
    wentIdle m (withFrame f d x) = withFrame f d (wentIdle m x) :=
  sentPolls_withFrame _ _ (sentStrobe _ x) _ _

theorem wentTo_withFrame (c : Base) (n m : Nat) (x : State) (f : Memory) (d : Nat) :
    wentTo c n m (withFrame f d x) = withFrame f d (wentTo c n m x) := by
  unfold wentTo awaited
  rw [wentIdle_withFrame]
  exact sentPolls_withFrame _ _ (sentStrobe _ (wentIdle n x)) _ _

theorem IdleEnds.withFrame {m : Nat} {x : State} (f : Memory) (d : Nat) (h : IdleEnds m x) :
    IdleEnds m (withFrame f d x) :=
  ⟨h.1, AwaitEnds.withFrame f d h.2⟩

theorem GotoEnds.withFrame {c : Base} {code : BitVec 5} {n m : Nat} {x : State} (f : Memory) (d : Nat)
    (h : GotoEnds c code n m x) : GotoEnds c code n m (withFrame f d x) := by
  refine ⟨IdleEnds.withFrame f d h.1, ?_, ?_⟩
  · rw [wentIdle_withFrame]; exact h.2.1
  · rw [wentIdle_withFrame]; exact AwaitEnds.withFrame f d h.2.2

/-- A read of what is listed is the list (00_scope.md R12). -/
theorem memBytes_of_read {m : Memory} {d a n : Nat} {bs : List Byte} (hl : bs.length = n)
    (h : ∀ j < n, memRead m (a + j) = bs[j]?) : memBytes m d a n = bs := by
  apply List.ext_getElem
  · simp [hl]
  · intro j h1 h2
    simp only [memBytes, List.getElem_map, List.getElem_range, memGet]
    rw [h j (by simpa using h1), List.getElem?_eq_getElem h2]; rfl

/-- Reading back what was just written (00_scope.md R12). -/
theorem memBytes_memWriteList (m : Memory) (d : Nat) (bs : List Byte) (h : bs.length ≤ Config.bufSize) :
    memBytes (memWriteList m 0 bs) d 0 bs.length = bs := by
  apply memBytes_of_read rfl
  intro j hj
  rw [memRead_memWriteList _ _ _ _ (by simpa using h), if_pos (by omega)]; simp

end Sys2Proof.Machine
end

