-- ==== Sys2Proof/Laws/PerInstr.lean ====
section
/-! SUPPORT. What holds of each instruction as syntax, one lemma per constructor. -/

namespace Sys2Proof.Laws.HeaderBits

/-- Bit 7 of an instruction's word is the read bit: set in the words of the rows that read from the chip, clear in
every other header and in every opcode (30_encoding.md R102, R110 to R113). -/
def Statement (i : Instr) : Prop :=
  (encode i).getLsbD 7 = (!i.isCommand && !i.isStrobe && !i.isWireWrite)

theorem rdreg : Statement .rdreg := by unfold Statement; decide
theorem wrreg : Statement .wrreg := by unfold Statement; decide
theorem strobe : Statement .strobe := by unfold Statement; decide
theorem rdfifo : Statement .rdfifo := by unfold Statement; decide
theorem wrburst : Statement .wrburst := by unfold Statement; decide
theorem modreg : Statement .modreg := by unfold Statement; decide
theorem setfreq : Statement .setfreq := by unfold Statement; decide
theorem setdev : Statement .setdev := by unfold Statement; decide
theorem setdrate : Statement .setdrate := by unfold Statement; decide
theorem setchanbw : Statement .setchanbw := by unfold Statement; decide
theorem setsync : Statement .setsync := by unfold Statement; decide
theorem setmod : Statement .setmod := by unfold Statement; decide
theorem setaddrfilt : Statement .setaddrfilt := by unfold Statement; decide
theorem setpktlen : Statement .setpktlen := by unfold Statement; decide
theorem setdefaults : Statement .setdefaults := by unfold Statement; decide
theorem goidle : Statement .goidle := by unfold Statement; decide
theorem gorx : Statement .gorx := by unfold Statement; decide
theorem gotx : Statement .gotx := by unfold Statement; decide
theorem receive : Statement .receive := by unfold Statement; decide
theorem transmit : Statement .transmit := by unfold Statement; decide
theorem hwinfo : Statement .hwinfo := by unfold Statement; decide
theorem rssi : Statement .rssi := by unfold Statement; decide
theorem lqi : Statement .lqi := by unfold Statement; decide
theorem hdrRead : ∀ a, Statement (.hdrRead a) := by unfold Statement; decide
theorem hdrReadBurst : ∀ a, Statement (.hdrReadBurst a) := by unfold Statement; decide
theorem hdrWrite : ∀ a, Statement (.hdrWrite a) := by unfold Statement; decide
theorem hdrBurstWrite : ∀ a, Statement (.hdrBurstWrite a) := by unfold Statement; decide
theorem fifoSingleRead : Statement .fifoSingleRead := by unfold Statement; decide
theorem fifoSingleWrite : Statement .fifoSingleWrite := by unfold Statement; decide
theorem fifoBurstRead : Statement .fifoBurstRead := by unfold Statement; decide
theorem fifoBurstWrite : Statement .fifoBurstWrite := by unfold Statement; decide
theorem sres : Statement .sres := by unfold Statement; decide
theorem sfstxon : Statement .sfstxon := by unfold Statement; decide
theorem sxoff : Statement .sxoff := by unfold Statement; decide
theorem scal : Statement .scal := by unfold Statement; decide
theorem srx : Statement .srx := by unfold Statement; decide
theorem stx : Statement .stx := by unfold Statement; decide
theorem sidle : Statement .sidle := by unfold Statement; decide
theorem swor : Statement .swor := by unfold Statement; decide
theorem spwd : Statement .spwd := by unfold Statement; decide
theorem sfrx : Statement .sfrx := by unfold Statement; decide
theorem sftx : Statement .sftx := by unfold Statement; decide
theorem sworrst : Statement .sworrst := by unfold Statement; decide
theorem snop : Statement .snop := by unfold Statement; decide
theorem rdPartnum : Statement .rdPartnum := by unfold Statement; decide
theorem rdVersion : Statement .rdVersion := by unfold Statement; decide
theorem rdFreqest : Statement .rdFreqest := by unfold Statement; decide
theorem rdLqiReg : Statement .rdLqiReg := by unfold Statement; decide
theorem rdRssiReg : Statement .rdRssiReg := by unfold Statement; decide
theorem rdMarcstate : Statement .rdMarcstate := by unfold Statement; decide
theorem rdWortime1 : Statement .rdWortime1 := by unfold Statement; decide
theorem rdWortime0 : Statement .rdWortime0 := by unfold Statement; decide
theorem rdPktstatus : Statement .rdPktstatus := by unfold Statement; decide
theorem rdVcoVcDac : Statement .rdVcoVcDac := by unfold Statement; decide
theorem rdTxbytes : Statement .rdTxbytes := by unfold Statement; decide
theorem rdRxbytes : Statement .rdRxbytes := by unfold Statement; decide
theorem rdRcctrl1Status : Statement .rdRcctrl1Status := by unfold Statement; decide
theorem rdRcctrl0Status : Statement .rdRcctrl0Status := by unfold Statement; decide

end Sys2Proof.Laws.HeaderBits
end

