-- ==== Sys2Proof/Laws/Step.lean ====
section
/-! SUPPORT. What a step can do, said once: the primitive of a wire row, a subroutine call, a block of a command's
pseudocode, and the step of the machine with its inputs. -/

namespace Sys2Proof.Machine

/-- The primitive a frame issues at its stage. -/
def stagePrim (duplex : Bool) (tx : List Byte) (more : Nat) (t : Txn) : Prim :=
  match t.stage with
  | .select => .csSelect
  | .send => if duplex then .xfer tx else .wr tx
  | .more => .xfer (List.replicate more dummyByte)
  | .deselect => .csDeselect

/-- The position after the primitive of a stage succeeded with this reply. -/
def stagePos (duplex : Bool) (more : Nat) (pos : Position) (t : Txn) (r : Reply) : Position :=
  match t.stage with
  | .select => { pos with txn := some { t with stage := .send } }
  | .send =>
    if duplex then
      { pos with rx := replyBytes r, txn := some { t with stage := if more = 0 then .deselect else .more } }
    else { pos with txn := some { t with stage := .deselect } }
  | .more => { pos with payload := replyBytes r, txn := some { t with stage := .deselect } }
  | .deselect => { pos with txn := none }

/-- The record of the line after the primitive of a stage succeeded (10_state.md R40). -/
def stageCs (t : Txn) (c : Cs) : Cs :=
  match t.stage with
  | .select => .selected
  | .send | .more => c
  | .deselect => .deselected

/-- The two outcomes of a frame's primitive. -/
theorem framePrimitive_cases (d : Bool) (tx : List Byte) (m : Nat) (pos : Position) (t : Txn) (s : State) :
    (∃ e, (answerAt s 0).failure = some e ∧
      framePrimitive d tx m pos t s = failPrim (stagePrim d tx m t) e (issued (stagePrim d tx m t) s)) ∨
    ((answerAt s 0).failure = none ∧
      framePrimitive d tx m pos t s =
        setPos (stagePos d m pos t (replyTo (stagePrim d tx m t) s))
          { issued (stagePrim d tx m t) s with cs := stageCs t s.cs }) := by
  cases hf : (answerAt s 0).failure with
  | some e =>
    refine .inl ⟨e, rfl, ?_⟩
    cases h : t.stage <;> cases d <;> simp [framePrimitive, stagePrim, h, primitive_fail _ hf]
  | none =>
    refine .inr ⟨rfl, ?_⟩
    cases h : t.stage <;> cases d <;>
      simp [framePrimitive, stagePrim, stagePos, stageCs, h, primitive_ok _ hf] <;> rfl

/-- What a subroutine call can do in one step: move the position and, in WAIT_RX_BYTES, `lastCount`; raise
RxOverflow; or read the line. -/
theorem callStep_cases (c : Call) (pos : Position) (s : State) :
    (∃ pos' n, callStep c pos s = setPos pos' { s with lastCount := n } ∧ pos'.rx = pos.rx ∧ pos'.k = pos.k ∧
      (pos'.txn = pos.txn ∨ ∃ t, pos'.txn = some t ∧ t.stage = .select ∧
        (isRead s.par.chip.bits t.hdr = true → t.data ≠ []) ∧ (t.more ≠ 0 → t.hdr = fifoReadHeader s.par.chip))) ∨
    (c = .rxOverflow ∧ callStep c pos s = raise .rxOverflow s) ∨
    (∃ level, c = .lineWait level ∧
      ((∃ e, (answerAt s 0).failure = some e ∧ callStep c pos s = failPrim .lineRead e (issued .lineRead s)) ∨
       ((answerAt s 0).failure = none ∧ ∃ pos', callStep c pos s = setPos pos' (issued .lineRead s) ∧
          pos'.rx = pos.rx ∧ pos'.txn = pos.txn ∧ pos'.k = pos.k))) := by
  have hb : ∀ a : Base, isRead s.par.chip.bits (hdrWriteOf s.par.chip.bits a) = false ∧
      isRead s.par.chip.bits (hdrBurstWriteOf s.par.chip.bits a) = false :=
    fun a => ⟨isRead_headerByte _ _ _ _, isRead_headerByte _ _ _ _⟩
  cases c with
  | readReg id => exact .inl ⟨_, s.lastCount, rfl, rfl, rfl, .inr ⟨_, rfl, rfl, by simp, by simp⟩⟩
  | writeReg a v => exact .inl ⟨_, s.lastCount, rfl, rfl, rfl, .inr ⟨_, rfl, rfl, by simp, by simp⟩⟩
  | strobe a =>
    refine .inl ⟨_, s.lastCount, rfl, rfl, rfl, .inr ⟨_, rfl, rfl, ?_, by simp⟩⟩
    rw [(hb a).1]; simp
  | readFifo n => exact .inl ⟨_, s.lastCount, rfl, rfl, rfl, .inr ⟨_, rfl, rfl, by simp, by simp⟩⟩
  | writeBurst a bytes =>
    refine .inl ⟨_, s.lastCount, rfl, rfl, rfl, .inr ⟨_, rfl, rfl, ?_, by simp⟩⟩
    rw [(hb a).2]; simp
  | modifyReg a m v => exact .inl ⟨_, s.lastCount, rfl, rfl, rfl, .inl rfl⟩
  | modifyWrite a m v => exact .inl ⟨_, s.lastCount, rfl, rfl, rfl, .inl rfl⟩
  | awaitState code => exact .inl ⟨_, s.lastCount, rfl, rfl, rfl, .inl rfl⟩
  | awaitTest code =>
    simp only [callStep]
    split
    · exact .inl ⟨pos, s.lastCount, rfl, rfl, rfl, .inl rfl⟩
    · exact .inl ⟨_, s.lastCount, rfl, rfl, rfl, .inl rfl⟩
  | goTo r => exact .inl ⟨_, s.lastCount, rfl, rfl, rfl, .inl rfl⟩
  | waitRxBytes => exact .inl ⟨_, _, rfl, rfl, rfl, .inl rfl⟩
  | rxTest =>
    simp only [callStep]
    split
    · exact .inl ⟨_, s.lastCount, rfl, rfl, rfl, .inl rfl⟩
    · split
      · exact .inl ⟨pos, s.lastCount, rfl, rfl, rfl, .inl rfl⟩
      · exact .inl ⟨_, _, rfl, rfl, rfl, .inl rfl⟩
  | rxOverflow => exact .inr (.inl ⟨rfl, rfl⟩)
  | lineWait level =>
    refine .inr (.inr ⟨level, rfl, ?_⟩)
    cases hf : (answerAt s 0).failure with
    | some e => exact .inl ⟨e, rfl, by simp only [callStep]; exact primitive_fail _ hf⟩
    | none =>
      refine .inr ⟨rfl, ?_⟩
      simp only [callStep, primitive_ok _ hf]
      split
      · exact ⟨pos, rfl, rfl, rfl, rfl⟩
      · exact ⟨_, rfl, rfl, rfl, rfl⟩

/-- What a block of a command's pseudocode may write: results, BUF and FRAME by lists, and the count of memory
reads. -/
structure BlockWrites (i : Instr) (s u : State) : Prop where
  same : ∃ r0 r1 r2 buf frame d,
    u = { s with res0 := r0, res1 := r1, res2 := r2, buf := buf, frame := frame, memDraws := d }
  res0 : i ∉ [Instr.rdreg, .rdfifo, .modreg, .setfreq, .setdev, .setdrate, .setchanbw, .receive, .hwinfo, .rssi,
    .lqi] → u.res0 = s.res0
  res1 : i ∉ [Instr.rdfifo, .modreg, .setdev, .setdrate, .setchanbw, .receive, .hwinfo, .rssi, .lqi] →
    u.res1 = s.res1
  res2 : i ≠ .receive → u.res2 = s.res2
  buf : u.buf = s.buf ∨
    ((i = .rdfifo ∨ i = .receive) ∧ ∃ bs, u.buf = memWriteList s.buf 0 bs ∧ bs.length ≤ argReadLen s)
  frame : u.frame = s.frame ∨
    (i = .transmit ∧ ∃ bs, u.frame = memWriteList s.frame 0 bs ∧ bs.length = argTxLen s + 1)

/-- A block that writes nothing. -/
theorem BlockWrites.refl (i : Instr) (s : State) : BlockWrites i s s :=
  ⟨⟨_, _, _, _, _, _, rfl⟩, fun _ => rfl, fun _ => rfl, fun _ => rfl, .inl rfl, .inl rfl⟩

/-- What a block of a command's pseudocode can do: go on with calls, or end with a result that is no fault. -/
theorem commandBody_cases (i : Instr) (hi : i.isCommand = true) (pos : Position) (s : State) :
    ∃ u, ((∃ pos', commandBody i pos s = setPos pos' u ∧ pos'.rx = pos.rx ∧ pos'.txn = pos.txn) ∨
       ∃ r, commandBody i pos s = raise r u ∧ resultIsFault r = false) ∧ BlockWrites i s u := by
  have none : BlockWrites i s s := BlockWrites.refl i s
  cases i with
  | rdreg =>
    simp only [commandBody, bodyRdreg]
    split
    · exact ⟨s, .inl ⟨_, rfl, rfl, rfl⟩, none⟩
    · exact ⟨_, .inr ⟨_, rfl, rfl⟩, ⟨⟨_, _, _, _, _, _, rfl⟩, by simp, fun _ => rfl, fun _ => rfl, .inl rfl, .inl rfl⟩⟩
  | wrreg =>
    simp only [commandBody, bodyWrreg]
    split
    · exact ⟨s, .inl ⟨_, rfl, rfl, rfl⟩, none⟩
    · exact ⟨s, .inr ⟨_, rfl, rfl⟩, none⟩
  | strobe =>
    simp only [commandBody, bodyStrobe]
    split
    · exact ⟨s, .inl ⟨_, rfl, rfl, rfl⟩, none⟩
    · exact ⟨s, .inr ⟨_, rfl, rfl⟩, none⟩
  | rdfifo =>
    simp only [commandBody, bodyRdfifo]
    split
    · split
      · exact ⟨s, .inr ⟨_, rfl, rfl⟩, none⟩
      · exact ⟨s, .inl ⟨_, rfl, rfl, rfl⟩, none⟩
    · exact ⟨_, .inr ⟨_, rfl, rfl⟩, ⟨⟨_, _, _, _, _, _, rfl⟩, by simp, by simp, fun _ => rfl,
        .inr ⟨.inl rfl, _, rfl, List.length_take_le _ _⟩, .inl rfl⟩⟩
  | wrburst =>
    simp only [commandBody, bodyWrburst]
    split
    · split
      · exact ⟨s, .inr ⟨_, rfl, rfl⟩, none⟩
      · exact ⟨_, .inl ⟨_, rfl, rfl, rfl⟩, ⟨⟨_, _, _, _, _, _, rfl⟩, fun _ => rfl, fun _ => rfl, fun _ => rfl, .inl rfl, .inl rfl⟩⟩
    · exact ⟨s, .inr ⟨_, rfl, rfl⟩, none⟩
  | modreg =>
    simp only [commandBody, bodyModreg]
    split
    · exact ⟨s, .inl ⟨_, rfl, rfl, rfl⟩, none⟩
    · exact ⟨_, .inr ⟨_, rfl, rfl⟩, ⟨⟨_, _, _, _, _, _, rfl⟩, by simp, by simp, fun _ => rfl, .inl rfl, .inl rfl⟩⟩
  | setfreq =>
    simp only [commandBody, bodySetfreq]
    split
    · exact ⟨s, .inl ⟨_, rfl, rfl, rfl⟩, none⟩
    · exact ⟨_, .inr ⟨_, rfl, rfl⟩, ⟨⟨_, _, _, _, _, _, rfl⟩, by simp, fun _ => rfl, fun _ => rfl, .inl rfl, .inl rfl⟩⟩
  | setdev =>
    simp only [commandBody, bodySetdev]
    split
    · exact ⟨s, .inl ⟨_, rfl, rfl, rfl⟩, none⟩
    · exact ⟨_, .inr ⟨_, rfl, rfl⟩, ⟨⟨_, _, _, _, _, _, rfl⟩, by simp, by simp, fun _ => rfl, .inl rfl, .inl rfl⟩⟩
  | setdrate =>
    simp only [commandBody, bodySetdrate]
    split
    · exact ⟨s, .inl ⟨_, rfl, rfl, rfl⟩, none⟩
    · exact ⟨_, .inr ⟨_, rfl, rfl⟩, ⟨⟨_, _, _, _, _, _, rfl⟩, by simp, by simp, fun _ => rfl, .inl rfl, .inl rfl⟩⟩
  | setchanbw =>
    simp only [commandBody, bodySetchanbw]
    split
    · exact ⟨s, .inl ⟨_, rfl, rfl, rfl⟩, none⟩
    · exact ⟨_, .inr ⟨_, rfl, rfl⟩, ⟨⟨_, _, _, _, _, _, rfl⟩, by simp, by simp, fun _ => rfl, .inl rfl, .inl rfl⟩⟩
  | setsync =>
    simp only [commandBody, bodySetsync]
    split
    · exact ⟨s, .inl ⟨_, rfl, rfl, rfl⟩, none⟩
    · exact ⟨s, .inr ⟨_, rfl, rfl⟩, none⟩
  | setmod =>
    simp only [commandBody, bodySetmod]
    split
    · split
      · exact ⟨s, .inr ⟨_, rfl, rfl⟩, none⟩
      · exact ⟨s, .inl ⟨_, rfl, rfl, rfl⟩, none⟩
    · exact ⟨s, .inr ⟨_, rfl, rfl⟩, none⟩
  | setaddrfilt =>
    simp only [commandBody, bodySetaddrfilt]
    split
    · exact ⟨s, .inl ⟨_, rfl, rfl, rfl⟩, none⟩
    · exact ⟨s, .inr ⟨_, rfl, rfl⟩, none⟩
  | setpktlen =>
    simp only [commandBody, bodySetpktlen]
    split
    · split
      · exact ⟨s, .inr ⟨_, rfl, rfl⟩, none⟩
      · exact ⟨s, .inl ⟨_, rfl, rfl, rfl⟩, none⟩
    · exact ⟨s, .inr ⟨_, rfl, rfl⟩, none⟩
  | setdefaults =>
    simp only [commandBody, bodySetdefaults]
    split
    · exact ⟨s, .inl ⟨_, rfl, rfl, rfl⟩, none⟩
    · exact ⟨s, .inr ⟨_, rfl, rfl⟩, none⟩
  | goidle =>
    simp only [commandBody, bodyGoidle]
    split
    · exact ⟨s, .inl ⟨_, rfl, rfl, rfl⟩, none⟩
    · exact ⟨s, .inr ⟨_, rfl, rfl⟩, none⟩
  | gorx =>
    simp only [commandBody, bodyGorx]
    split
    · exact ⟨s, .inl ⟨_, rfl, rfl, rfl⟩, none⟩
    · exact ⟨s, .inr ⟨_, rfl, rfl⟩, none⟩
  | gotx =>
    simp only [commandBody, bodyGotx]
    split
    · exact ⟨s, .inl ⟨_, rfl, rfl, rfl⟩, none⟩
    · exact ⟨s, .inr ⟨_, rfl, rfl⟩, none⟩
  | receive =>
    simp only [commandBody, bodyReceive]
    split
    · split
      · exact ⟨s, .inr ⟨_, rfl, rfl⟩, none⟩
      · exact ⟨s, .inl ⟨_, rfl, rfl, rfl⟩, none⟩
    · exact ⟨_, .inl ⟨_, rfl, rfl, rfl⟩, ⟨⟨_, _, _, _, _, _, rfl⟩, by simp, by simp, fun _ => rfl,
        .inr ⟨.inr rfl, _, rfl, List.length_take_le _ _⟩, .inl rfl⟩⟩
    · exact ⟨_, .inl ⟨_, rfl, rfl, rfl⟩, ⟨⟨_, _, _, _, _, _, rfl⟩, fun _ => rfl, fun _ => rfl, by simp, .inl rfl, .inl rfl⟩⟩
    · split
      · exact ⟨s, .inr ⟨_, rfl, rfl⟩, none⟩
      · exact ⟨s, .inr ⟨_, rfl, rfl⟩, none⟩
  | transmit =>
    simp only [commandBody, bodyTransmit]
    split
    · split
      · split
        · exact ⟨s, .inr ⟨_, rfl, rfl⟩, none⟩
        · exact ⟨s, .inr ⟨_, rfl, rfl⟩, none⟩
      · refine ⟨_, .inl ⟨_, rfl, rfl, rfl⟩, ⟨⟨_, _, _, _, _, _, rfl⟩, fun _ => rfl, fun _ => rfl, fun _ => rfl, .inl rfl,
          .inr ⟨rfl, BitVec.ofNat 8 (argTxLen s) :: memBytes s.buf s.memDraws 0 (argTxLen s), rfl, by simp⟩⟩⟩
    · exact ⟨_, .inl ⟨_, rfl, rfl, rfl⟩, ⟨⟨_, _, _, _, _, _, rfl⟩, fun _ => rfl, fun _ => rfl, fun _ => rfl, .inl rfl, .inl rfl⟩⟩
    · exact ⟨s, .inr ⟨_, rfl, rfl⟩, none⟩
  | hwinfo =>
    simp only [commandBody, bodyHwinfo]
    split
    · exact ⟨s, .inl ⟨_, rfl, rfl, rfl⟩, none⟩
    · exact ⟨s, .inl ⟨_, rfl, rfl, rfl⟩, none⟩
    · exact ⟨_, .inr ⟨_, rfl, rfl⟩, ⟨⟨_, _, _, _, _, _, rfl⟩, by simp, by simp, fun _ => rfl, .inl rfl, .inl rfl⟩⟩
  | rssi =>
    simp only [commandBody, bodyRssi]
    split
    · exact ⟨s, .inl ⟨_, rfl, rfl, rfl⟩, none⟩
    · exact ⟨_, .inr ⟨_, rfl, rfl⟩, ⟨⟨_, _, _, _, _, _, rfl⟩, by simp, by simp, fun _ => rfl, .inl rfl, .inl rfl⟩⟩
  | lqi =>
    simp only [commandBody, bodyLqi]
    split
    · exact ⟨s, .inl ⟨_, rfl, rfl, rfl⟩, none⟩
    · exact ⟨_, .inr ⟨_, rfl, rfl⟩, ⟨⟨_, _, _, _, _, _, rfl⟩, by simp, by simp, fun _ => rfl, .inl rfl, .inl rfl⟩⟩
  | _ => exact absurd hi Bool.false_ne_true

/-- What the sequencer's turn can do: nothing when Ready; raise IllegalCommand; the next primitive of the open
transaction; a subroutine call; a block of the pseudocode. It never stops. -/
theorem sequencerTurn_cases (s : State) :
    (s.phase = .ready ∧ sequencerTurn s = .next s) ∨
    ∃ pos, s.phase = .running pos ∧
      ((pos.txn = none ∧ (∃ e, decodeCommand s.cmd = .error e) ∧
          sequencerTurn s = .next (raise .illegalCommand s)) ∨
       (∃ t i, pos.txn = some t ∧ i = decodeHeader s.par.chip t.data.isEmpty t.hdr ∧
          sequencerTurn s = .next (framePrimitive (rowDuplex i) (rowBytes s.par.chip i t) (rowMore i t) pos t s)) ∨
       (∃ i c rest, pos.txn = none ∧ decodeCommand s.cmd = .ok i ∧ i.isCommand = true ∧ pos.calls = c :: rest ∧
          sequencerTurn s = .next (callStep c { pos with calls := rest } s)) ∨
       (∃ i, pos.txn = none ∧ decodeCommand s.cmd = .ok i ∧ i.isCommand = true ∧ pos.calls = [] ∧
          sequencerTurn s = .next (commandBody i pos s))) := by
  cases hp : s.phase with
  | ready => exact .inl ⟨rfl, by simp [sequencerTurn, hp]⟩
  | running pos =>
    refine .inr ⟨pos, rfl, ?_⟩
    cases ht : pos.txn with
    | some t =>
      refine .inr (.inl ⟨t, _, rfl, rfl, ?_⟩)
      rw [← exec_wire (decodeHeader_not_command _ _ _) hp ht]
      simp [sequencerTurn, hp, fetch, ht, decodeFrame_cons]
    | none =>
      cases hd : decodeCommand s.cmd with
      | error e => exact .inl ⟨rfl, ⟨e, rfl⟩, by simp [sequencerTurn, hp, fetch, ht, hd]⟩
      | ok i =>
        have hi := decodeCommand_isCommand hd
        have hs : sequencerTurn s = exec i s := by simp [sequencerTurn, hp, fetch, ht, hd]
        cases hc : pos.calls with
        | cons c rest =>
          exact .inr (.inr (.inl ⟨i, c, rest, rfl, rfl, hi, rfl, by rw [hs, exec_call hi hp ht hc, ht]⟩))
        | nil => exact .inr (.inr (.inr ⟨i, rfl, rfl, hi, rfl, by rw [hs, exec_block hi hp ht hc]⟩))

/-- A primitive that succeeds is not answered with a failure. -/
theorem replyTo_ne_fail {s : State} (h : (answerAt s 0).failure = none) (p : Prim) (e : Nat) :
    replyTo p s ≠ .fail e := by
  cases p <;> simp [replyTo, h]

/-- What the sequencer's turn leaves alone, and how RESULT, DONE, ERRINFO, FAULT_SEEN and the trace go together: no
primitive and either the command goes on or it ends; or one primitive, and either it fails and the command ends or
the command goes on. -/
theorem sequencerTurn_effects {s t : State} (h : sequencerTurn s = .next t) :
    t.cmd = s.cmd ∧ t.arg0 = s.arg0 ∧ t.arg1 = s.arg1 ∧ t.par = s.par ∧ t.drop = s.drop ∧ t.inputs = s.inputs ∧
    t.hostReads = s.hostReads ∧ (s.faultSeen = true → t.faultSeen = true) ∧ (busy s = false → t = s) ∧
    ((t.trace = s.trace ∧ t.answers = s.answers ∧ t.draws = s.draws ∧ t.errinfo = s.errinfo ∧
        t.faultSeen = s.faultSeen ∧
        (t.result = s.result ∧ t.done = s.done ∧ busy t = busy s ∨
          busy s = true ∧ t.phase = .ready ∧ t.done = true)) ∨
     (busy s = true ∧ ∃ p, t.trace = s.trace ++ [(p, replyTo p s)] ∧ t.answers = s.answers.tail ∧
        t.draws = s.draws + 1 ∧
        ((∃ e, replyTo p s = .fail e ∧ t.errinfo = BitVec.ofNat 32 e ∧ t.faultSeen = true ∧ t.done = true ∧
            t.phase = .ready ∧ t.result = primFault p) ∨
         ((∀ e, replyTo p s ≠ .fail e) ∧ t.errinfo = s.errinfo ∧ t.faultSeen = s.faultSeen ∧
            t.result = s.result ∧ t.done = s.done ∧ busy t = true)))) := by
  rcases sequencerTurn_cases s with ⟨hp, h'⟩ | ⟨pos, hp, hc⟩
  · rw [h'] at h; cases h
    refine ⟨rfl, rfl, rfl, rfl, rfl, rfl, rfl, id, fun _ => rfl, .inl ⟨rfl, rfl, rfl, rfl, rfl, .inl ⟨rfl, rfl, rfl⟩⟩⟩
  · have hb : busy s = true := by simp [busy, hp]
    rcases hc with ⟨_, _, h'⟩ | ⟨t, i, _, _, h'⟩ | ⟨i, c, r, _, _, _, _, h'⟩ | ⟨i, _, _, hi, _, h'⟩
    all_goals rw [h'] at h; cases h
    · simp [raise, complete, resultIsFault, hb]
    · rcases framePrimitive_cases (rowDuplex i) (rowBytes s.par.chip i t) (rowMore i t) pos t s with ⟨e, hf, h⟩ | ⟨hf, h⟩
      · rw [h]; simp [hb]; exact .inl ⟨e, replyTo_fail hf, rfl⟩
      · rw [h]; simp [hb]; exact ⟨fun e => replyTo_ne_fail hf _ e, by simp [busy]⟩
    · rcases callStep_cases c { pos with calls := r } s with ⟨pos', n, h, _⟩ | ⟨_, h⟩ | ⟨l, _, ⟨e, hf, h⟩ | ⟨hf, pos', h, _⟩⟩
      · rw [h]; simp [hb]; simp [busy]
      · rw [h]; simp [hb, raise, complete, resultIsFault]
      · rw [h]; simp [hb]; exact .inl ⟨e, replyTo_fail hf, rfl⟩
      · rw [h]; simp [hb]; exact ⟨fun e => replyTo_ne_fail hf _ e, by simp [busy]⟩
    · obtain ⟨u, h, hw⟩ := commandBody_cases i hi pos s
      obtain ⟨r0, r1, r2, b, f, d, hu⟩ := hw.same
      rcases h with ⟨pos', h, _⟩ | ⟨r, h, hr⟩
      · rw [h]; subst hu; simp [hb]; simp [busy]
      · rw [h]; subst hu; simp [hb, raise, complete, hr]

/-- The inputs after a step took its own, if it took one. -/
def afterInput (s : State) : State := { s with inputs := s.inputs.tail }

/-- What a step that goes on can do: a host access, block reset, or the sequencer's turn. -/
theorem step_cases {s t : State} (h : step s = .next t) :
    (∃ o rest, s.inputs = .hostRead o 32 :: rest ∧ hostAccessOk o 32 = true ∧
      t = { s with inputs := rest, hostReads := s.hostReads ++ [hostWord s o], memDraws := s.memDraws + 1 }) ∨
    (∃ o v rest, s.inputs = .hostWrite o 32 v :: rest ∧ hostAccessOk o 32 = true ∧
      t = hostWriteDefined o v { s with inputs := rest }) ∨
    (∃ rest, s.inputs = .blockReset :: rest ∧ t = blockReset { s with inputs := rest }) ∨
    ((s.inputs = [] ∨ ∃ rest, s.inputs = .turn :: rest) ∧ sequencerTurn (afterInput s) = .next t) := by
  have ok : ∀ o w, hostAccessOk o w = true → w = 32 := by
    intro o w h; simp only [hostAccessOk, Bool.and_eq_true, beq_iff_eq] at h; exact h.1.1
  simp only [step, advance] at h
  cases hi : s.inputs with
  | nil =>
    rw [hi] at h
    refine .inr (.inr (.inr ⟨.inl rfl, ?_⟩))
    have : afterInput s = s := by simp only [afterInput, hi, List.tail_nil]; rw [← hi]
    rw [this]; exact h
  | cons i rest =>
    rw [hi] at h
    cases i with
    | turn => exact .inr (.inr (.inr ⟨.inr ⟨rest, rfl⟩, by simpa [afterInput, hi] using h⟩))
    | hostRead o w =>
      simp only [hostRead] at h
      split at h
      · rename_i ha; have hw := ok o w ha; subst hw; cases h; exact .inl ⟨o, rest, rfl, ha, rfl⟩
      · cases h
    | hostWrite o w v =>
      simp only [hostWrite] at h
      split at h
      · rename_i ha; have hw := ok o w ha; subst hw; cases h; exact .inr (.inl ⟨o, v, rest, rfl, ha, rfl⟩)
      · cases h
    | blockReset => cases h; exact .inr (.inr (.inl ⟨rest, rfl, rfl⟩))

/-- What a defined host write can do. -/
theorem hostWriteDefined_cases (o : Nat) (v : Word) (s : State) (ha : hostAccessOk o 32 = true) :
    (busy s = true ∧ hostWriteDefined o v s = { s with drop := true }) ∨
    (busy s = false ∧ o = 0 ∧ hostWriteDefined o v s = accept (v.extractLsb' 0 8) s) ∨
    (busy s = false ∧ o = 0x18 ∧ hostWriteDefined o v s = statusWrite v s) ∨
    (busy s = false ∧ o ≠ 0 ∧ o ≠ 0x18 ∧ ∃ a0 a1 b, hostWriteDefined o v s = { s with arg0 := a0, arg1 := a1, buf := b } ∧
      (b = s.buf ∨ ∃ k, b = bufWithWord s.buf k v)) := by
  simp only [hostAccessOk, Bool.and_eq_true, beq_iff_eq, decide_eq_true_eq] at ha
  obtain ⟨⟨-, h4⟩, hlt⟩ := ha
  cases hb : busy s with
  | true => exact .inl ⟨rfl, by simp [hostWriteDefined, hb]⟩
  | false =>
    refine .inr ?_
    have e : hostWriteDefined o v s = hostWriteReady o v s := by simp [hostWriteDefined, hb]
    rw [e]
    obtain ⟨k, rfl⟩ : ∃ k, o = 4 * k := ⟨o / 4, by omega⟩
    have hk : 4 * k / 4 = k := by omega
    simp only [hostWriteReady, hk]
    split
    · exact .inl ⟨trivial, by omega, rfl⟩
    · exact .inr (.inr ⟨trivial, by omega, by omega, _, s.arg1, s.buf, rfl, .inl rfl⟩)
    · exact .inr (.inr ⟨trivial, by omega, by omega, s.arg0, _, s.buf, rfl, .inl rfl⟩)
    · exact .inr (.inr ⟨trivial, by omega, by omega, s.arg0, s.arg1, s.buf, rfl, .inl rfl⟩)
    · exact .inr (.inr ⟨trivial, by omega, by omega, s.arg0, s.arg1, s.buf, rfl, .inl rfl⟩)
    · exact .inr (.inr ⟨trivial, by omega, by omega, s.arg0, s.arg1, s.buf, rfl, .inl rfl⟩)
    · exact .inr (.inl ⟨trivial, by omega, rfl⟩)
    · exact .inr (.inr ⟨trivial, by omega, by omega, s.arg0, s.arg1, s.buf, rfl, .inl rfl⟩)
    · rename_i h0 _ _ _ _ _ h6 _
      refine .inr (.inr ⟨trivial, fun h => h0 (by omega), fun h => h6 (by omega), ?_⟩)
      split
      · exact ⟨s.arg0, s.arg1, _, rfl, .inr ⟨_, rfl⟩⟩
      · exact ⟨s.arg0, s.arg1, s.buf, rfl, .inl rfl⟩

/-- A host word written to BUF keeps the canonical form. -/
theorem memWf_bufWithWord (m : Memory) (k : Nat) (v : Word) (h : memWf m = true) : memWf (bufWithWord m k v) = true :=
  memWf_memWriteList _ _ _ h

/-- Every operation that writes BUF or FRAME keeps the canonical form, and reset's memories have it. -/
theorem memWf_blockWrites {i : Instr} {s u : State} (hw : BlockWrites i s u) (hb : memWf s.buf = true)
    (hf : memWf s.frame = true) : memWf u.buf = true ∧ memWf u.frame = true := by
  constructor
  · rcases hw.buf with h | ⟨-, bs, h, -⟩
    · rw [h]; exact hb
    · rw [h]; exact memWf_memWriteList _ _ _ hb
  · rcases hw.frame with h | ⟨-, bs, h, -⟩
    · rw [h]; exact hf
    · rw [h]; exact memWf_memWriteList _ _ _ hf

theorem memWf_reset : memWf State.reset.buf = true ∧ memWf State.reset.frame = true := ⟨rfl, rfl⟩

end Sys2Proof.Machine
end

