-- ==== Sys2Proof/Tests/Slice0.lean ====
section
/-! SUPPORT. The model's own tests. Expected values are those of spec/95_test_vectors.md and of the encoding tables
of spec/30_encoding.md and spec/20_memory.md, or are worked out by hand from the rule a test names. -/

namespace Sys2Proof.Tests

open Sys2Proof.Machine

/-! The states the tests and witnesses stand on. -/

/-- A primitive that succeeds and gives nothing back. -/
def okA : Answer := ⟨none, [], false⟩

/-- An Xfer that clocks these bytes back. -/
def got (bs : List Byte) : Answer := ⟨none, bs, false⟩

/-- A LineRead that returns this level. -/
def lineAt (b : Bool) : Answer := ⟨none, [], b⟩

/-- A primitive that fails. -/
def failA (e : Nat) : Answer := ⟨some e, [], false⟩

/-- The answers of a write frame. -/
def wr3 : List Answer := [okA, okA, okA]

/-- The answers of a READ_REG frame that reads `b`. -/
def rd3 (b : Byte) : List Answer := [okA, got [0x0F#8, b], okA]

/-- The answers of GOTO(IDLE) confirmed at its second poll. -/
def idleAnswers : List Answer := wr3 ++ rd3 0x0D#8 ++ rd3 0x01#8

/-- A command just accepted. -/
def begun (w : Byte) (a0 a1 : Word) (as : List Answer) : State :=
  { State.reset with cmd := w, arg0 := a0, arg1 := a1, phase := .running Position.start, answers := as }

/-- A command at a position. -/
def standing (w : Byte) (a0 a1 : Word) (pos : Position) (as : List Answer) : State :=
  { State.reset with cmd := w, arg0 := a0, arg1 := a1, phase := .running pos, answers := as }

/-- A position before block `k`, two or three bytes read. -/
def blockPos (k : Nat) (rx payload : List Byte) : Position :=
  { Position.start with k := k, rx := rx, payload := payload, old := 0x12#8, new := 0x34#8, p := 0x56#8, q := 0x85#8 }

/-- A position before a call. -/
def callPos (c : Call) (rx : List Byte) : Position := { Position.start with k := 1, calls := [c], rx := rx }

/-- A position in a transaction. -/
def txnPos (t : Txn) : Position := { Position.start with k := 1, txn := some t }

/-- The next state, where there is one. -/
def after (o : Out) : Option State :=
  match o with
  | .next t => some t
  | .fault _ => none
  | .refused _ => none

/-- The calls a step leaves to make. -/
def stepCalls (s : State) : Option (List Call) :=
  match step s with
  | .next t =>
    match t.phase with
    | .running pos => some pos.calls
    | .ready => none
  | .fault _ => none
  | .refused _ => none

/-- The primitive and answer a step adds to an empty trace, and where it leaves the transaction. -/
def wireTrace (i : Instr) (t : Txn) (as : List Answer) : Option (List BusEvent) :=
  (after (exec i (standing 0x01#8 0#32 0#32 (txnPos t) as))).map (·.trace)

/-- STATUS, RES0, RES1 and RES2 after a step. -/
def stepResults (s : State) : Option (Word × Word × Word × Word) :=
  (after (step s)).map fun t => (statusWord t, t.res0, t.res1, t.res2)

/-! WellFormed: each check has a term it refuses and its neighbour it takes. -/

theorem test_wf_fifo_single_read : (Instr.hdrRead 0x3F#6).wf = false ∧ (Instr.hdrRead 0x3E#6).wf = true := by decide
theorem test_wf_fifo_burst_read :
    (Instr.hdrReadBurst 0x3F#6).wf = false ∧ (Instr.hdrReadBurst 0x3E#6).wf = true := by decide
theorem test_wf_status_read : (Instr.hdrReadBurst 0x30#6).wf = false ∧ (Instr.hdrReadBurst 0x3D#6).wf = false ∧
    (Instr.hdrReadBurst 0x2F#6).wf = true := by decide
theorem test_wf_fifo_single_write :
    (Instr.hdrWrite 0x3F#6).wf = false ∧ (Instr.hdrWrite 0x36#6).wf = true := by decide
theorem test_wf_fifo_burst_write :
    (Instr.hdrBurstWrite 0x3F#6).wf = false ∧ (Instr.hdrBurstWrite 0x3E#6).wf = true := by decide

/-! Decoding: a word of every constructor, written out from the tables. -/

/-- 30_encoding.md R102. -/
theorem test_decode_commands :
    decode .command 0b00000001#8 = .ok .rdreg ∧ decode .command 0b00000010#8 = .ok .wrreg ∧
    decode .command 0b00000011#8 = .ok .strobe ∧ decode .command 0b00000100#8 = .ok .rdfifo ∧
    decode .command 0b00000101#8 = .ok .wrburst ∧ decode .command 0b00000110#8 = .ok .modreg ∧
    decode .command 0b00010000#8 = .ok .setfreq ∧ decode .command 0b00010001#8 = .ok .setdev ∧
    decode .command 0b00010010#8 = .ok .setdrate ∧ decode .command 0b00010011#8 = .ok .setchanbw ∧
    decode .command 0b00010100#8 = .ok .setsync ∧ decode .command 0b00010101#8 = .ok .setmod ∧
    decode .command 0b00010110#8 = .ok .setaddrfilt ∧ decode .command 0b00010111#8 = .ok .setpktlen ∧
    decode .command 0b00011000#8 = .ok .setdefaults ∧ decode .command 0b00100000#8 = .ok .goidle ∧
    decode .command 0b00100001#8 = .ok .gorx ∧ decode .command 0b00100010#8 = .ok .gotx ∧
    decode .command 0b00110000#8 = .ok .receive ∧ decode .command 0b00110001#8 = .ok .transmit ∧
    decode .command 0b01000000#8 = .ok .hwinfo ∧ decode .command 0b01000001#8 = .ok .rssi ∧
    decode .command 0b01000010#8 = .ok .lqi := by decide

/-- 30_encoding.md R104, at the edges of its ranges. -/
theorem test_decode_illegal : ∀ w ∈ [0x00#8, 0x07#8, 0x0F#8, 0x19#8, 0x1F#8, 0x23#8, 0x2F#8, 0x32#8, 0x3F#8, 0x43#8,
    0xFF#8], decode .command w = .error (.illegalOpcode w) := by decide

/-- 30_encoding.md R111: the register forms, and the PATABLE burst write. -/
theorem test_decode_headers :
    decode .frame 0b10010000#8 = .ok (.hdrRead 0x10#6) ∧ decode .frame 0b11000101#8 = .ok (.hdrReadBurst 0x05#6) ∧
    decode .frame 0b00001101#8 = .ok (.hdrWrite 0x0D#6) ∧
    decode .frame 0b01111110#8 = .ok (.hdrBurstWrite 0x3E#6) ∧
    decode .frame 0b10110101#8 = .ok (.hdrRead 0x35#6) := by decide

/-- 30_encoding.md R112. -/
theorem test_decode_fifo :
    decode .frame 0b10111111#8 = .ok .fifoSingleRead ∧ decode .frame 0b00111111#8 = .ok .fifoSingleWrite ∧
    decode .frame 0b11111111#8 = .ok .fifoBurstRead ∧ decode .frame 0b01111111#8 = .ok .fifoBurstWrite := by decide

/-- 20_memory.md R77; 0x37 is no strobe. -/
theorem test_decode_strobes :
    decode .lone 0b00110000#8 = .ok .sres ∧ decode .lone 0b00110001#8 = .ok .sfstxon ∧
    decode .lone 0b00110010#8 = .ok .sxoff ∧ decode .lone 0b00110011#8 = .ok .scal ∧
    decode .lone 0b00110100#8 = .ok .srx ∧ decode .lone 0b00110101#8 = .ok .stx ∧
    decode .lone 0b00110110#8 = .ok .sidle ∧ decode .lone 0b00110111#8 = .ok (.hdrWrite 0x37#6) ∧
    decode .lone 0b00111000#8 = .ok .swor ∧ decode .lone 0b00111001#8 = .ok .spwd ∧
    decode .lone 0b00111010#8 = .ok .sfrx ∧ decode .lone 0b00111011#8 = .ok .sftx ∧
    decode .lone 0b00111100#8 = .ok .sworrst ∧ decode .lone 0b00111101#8 = .ok .snop := by decide

/-- 20_memory.md R78. -/
theorem test_decode_status :
    decode .frame 0b11110000#8 = .ok .rdPartnum ∧ decode .frame 0b11110001#8 = .ok .rdVersion ∧
    decode .frame 0b11110010#8 = .ok .rdFreqest ∧ decode .frame 0b11110011#8 = .ok .rdLqiReg ∧
    decode .frame 0b11110100#8 = .ok .rdRssiReg ∧ decode .frame 0b11110101#8 = .ok .rdMarcstate ∧
    decode .frame 0b11110110#8 = .ok .rdWortime1 ∧ decode .frame 0b11110111#8 = .ok .rdWortime0 ∧
    decode .frame 0b11111000#8 = .ok .rdPktstatus ∧ decode .frame 0b11111001#8 = .ok .rdVcoVcDac ∧
    decode .frame 0b11111010#8 = .ok .rdTxbytes ∧ decode .frame 0b11111011#8 = .ok .rdRxbytes ∧
    decode .frame 0b11111100#8 = .ok .rdRcctrl1Status ∧ decode .frame 0b11111101#8 = .ok .rdRcctrl0Status := by decide

/-- A table word is decoded at its port, whichever that is. -/
theorem test_decode_table_word :
    decodeTableWord 8 0x22 = some .gotx ∧ decodeTableWord 8 0x36 = some .sidle ∧
    decodeTableWord 8 0xFF = some .fifoBurstRead ∧ decodeTableWord 8 0x92 = some (.hdrRead 0x12#6) ∧
    decodeTableWord 8 0x100 = none ∧ decodeTableWord 16 0x22 = none := by decide

/-- 20_memory.md R76: the configuration registers stand at 0x00 to 0x2E, in the order of the table. -/
theorem test_config_bases : (configRegisters defaultChip).map Prod.snd = (List.range 47).map (BitVec.ofNat 6) ∧
    (configRegisters defaultChip)[0x0D]? = some ("FREQ2", 0x0D#6) ∧
    (configRegisters defaultChip)[0x18]? = some ("MCSM0", 0x18#6) ∧
    (configRegisters defaultChip)[0x29]? = some ("FSTEST", 0x29#6) := by decide

/-- 20_memory.md R75, at the edges of its ranges. -/
theorem test_chip_category :
    chipCategory defaultChip 0x2E#8 = .configuration ∧ chipCategory defaultChip 0x2F#8 = .unused ∧
    chipCategory defaultChip 0xF0#8 = .status ∧ chipCategory defaultChip 0xB0#8 = .strobe ∧
    chipCategory defaultChip 0x3D#8 = .strobe ∧ chipCategory defaultChip 0x37#8 = .strobe ∧
    chipCategory defaultChip 0x7E#8 = .patable := by decide

/-- 20_memory.md R75: the write forms 0x3F and 0x7F reach the TX FIFO, the read forms 0xBF and 0xFF the RX FIFO. -/
theorem test_fifo_side :
    chipCategory defaultChip 0x3F#8 = .fifo .tx ∧ chipCategory defaultChip 0x7F#8 = .fifo .tx ∧
    chipCategory defaultChip 0xBF#8 = .fifo .rx ∧ chipCategory defaultChip 0xFF#8 = .fifo .rx := by decide

/-- A chip with the read bit in bit 6 and SIDLE at 0x37 (00_scope.md R9: both are parameters). -/
def otherChip : ChipAddresses :=
  { defaultChip with bits := .read6Burst7, strobes := { defaultStrobeCodes with sidle := 0x37#6 } }

/-- 30_encoding.md R110, R111 with the bits exchanged: 0x50 reads base 0x10, 0xF5 still reads MARCSTATE. -/
theorem test_other_chip :
    decodeHeader otherChip false 0b01010000#8 = .hdrRead 0x10#6 ∧ decodeHeader otherChip false 0xF5#8 = .rdMarcstate ∧
    decodeHeader otherChip true 0x37#8 = .sidle ∧ decodeHeader otherChip true 0x36#8 = .hdrWrite 0x36#6 ∧
    stepCalls { standing 0x20#8 0#32 0#32 (callPos (.goTo .idle) []) [] with
      par := { defaultParams with chip := otherChip } } = some [.strobe 0x37#6, .awaitState 0x01#5] := by decide

/-! The codecs: rows of 95_test_vectors.md, sections 2.2 to 2.7. -/

theorem test_field_vectors :
    fieldMask ⟨4, 2⟩ = 0x30#8 ∧ fieldExtract 0x8C#8 ⟨6, 2⟩ = 0x02#8 ∧ fieldInsert 0x8C#8 ⟨0, 4⟩ 10 = 0x8A#8 ∧
    fieldInsert (fieldInsert 0x8A#8 ⟨6, 2⟩ 3) ⟨4, 2⟩ 0 = 0xCA#8 ∧ fieldInsert 0x00#8 ⟨0, 3⟩ 0xFF = 0x07#8 ∧
    fieldInsert 0xFF#8 ⟨4, 3⟩ 0 = 0x8F#8 ∧ fieldBuild 0x47#8 [(⟨0, 3⟩, 5), (⟨4, 3⟩, 3)] = 0x35#8 ∧
    modifyByte 0xAB#8 0xFF#8 0x5C#8 = 0x5C#8 ∧ modifyByte 0x02#8 0x70#8 0x30#8 = 0x32#8 := by decide

theorem test_frequency_vectors :
    encFreq 198 = 0 ∧ encFreq 199 = 1 ∧ encFreq 433920000 = 0x10B071 ∧ encFreq 4294967295 = 0xA530E9 ∧
    decFreq 0x10B071 = 433919830 ∧ decFreq 0xA530E9 = 4294967437 := by decide

theorem test_drate_vectors :
    encDrate 24 = (0, 0) ∧ encDrate 25 = (2, 0) ∧ encDrate 792 = (255, 4) ∧ encDrate 793 = (0, 5) ∧
    encDrate 38400 = (131, 10) ∧ encDrate 1621826 = (255, 15) ∧ encDrate 1621827 = (255, 15) ∧
    decDrate 131 10 = 38383 := by decide

theorem test_deviation_vectors :
    encDev 0 = (0, 0) ∧ encDev 14282 = (1, 3) ∧ encDev 47607 = (7, 4) ∧ encDev 50000 = (0, 5) ∧
    encDev 380860 = (7, 7) ∧ decDev 5 3 = 20629 := by decide

theorem test_chanbw_vectors :
    encChanbw 0 = (3, 3) ∧ encChanbw 58035 = (3, 3) ∧ encChanbw 58036 = (2, 3) ∧ encChanbw 101563 = (3, 2) ∧
    encChanbw 812500 = (0, 0) ∧ encChanbw 812501 = (0, 0) ∧ decChanbw 2 3 = 67708 := by decide

theorem test_rssi_vectors :
    rssiToDbm 74 0x00#8 = -74 ∧ rssiToDbm 74 0x03#8 = -73 ∧ rssiToDbm 74 0x7F#8 = -11 ∧
    rssiToDbm 74 0x80#8 = -138 ∧ rssiToDbm 74 0xFD#8 = -75 ∧ rssiToDbm 74 0xFF#8 = -74 := by decide

/-- 45_packet_protocol.md R294, 41_field_codecs.md R190: the rows of section 2.2. -/
theorem test_chip_flags :
    crcOk 0x85#8 = true ∧ crcOk 0x7F#8 = false ∧ rxOverflowFlag 0xC5#8 = true ∧ rxCount 0xC5#8 = 0x45#7 ∧
    rxOverflowFlag 0x7F#8 = false ∧ rxCount 0x7F#8 = 127#7 := by decide

/-! The commands: the first step, and the last. -/

/-- Section 2.1: ARG0 = 0xF5 reads id 0x75. -/
theorem test_rdreg_first : stepCalls (begun 0x01#8 0xF5#32 0#32 []) = some [.readReg 0x75#7] := by decide
theorem test_rdreg_last : stepResults (standing 0x01#8 0x75#32 0#32 (blockPos 1 [0x0F#8, 0x9A#8] []) []) =
    some (0x002#32, 0x9A#32, 0#32, 0#32) := by decide
/-- Section 2.1: ARG0 = 0x4D writes base 0x0D. -/
theorem test_wrreg_first : stepCalls (begun 0x02#8 0x4D#32 0x1AB#32 []) = some [.writeReg 0x0D#6 0xAB#8] := by decide
/-- Section 2.1: ARG0 = 0x76 is the code 0x36. -/
theorem test_strobe_first : stepCalls (begun 0x03#8 0x76#32 0#32 []) = some [.strobe 0x36#6] := by decide
/-- Vectors V4 and V6. -/
theorem test_rdfifo_first : stepResults (begun 0x04#8 65#32 0#32 []) = some (0x062#32, 0#32, 0#32, 0#32) ∧
    stepCalls (begun 0x04#8 0x80#32 0#32 []) = some [.readFifo 0] := by decide
theorem test_rdfifo_last :
    (after (step (standing 0x04#8 2#32 0#32 (blockPos 1 [0x0F#8, 0x11#8, 0x22#8] [0xC1#8, 0xC2#8]) []))).map
      (fun t => (t.buf, t.res0, t.res1)) = some ([(0, 0xC1#8), (1, 0xC2#8)], 0x11#32, 0x22#32) := by decide
/-- Vectors V7 and V8. -/
theorem test_wrburst_first : stepResults (begun 0x05#8 0x3F#32 65#32 []) = some (0x062#32, 0#32, 0#32, 0#32) ∧
    stepCalls (begun 0x05#8 0x3E#32 0#32 []) = some [.writeBurst 0x3E#6 []] := by decide
theorem test_modreg_first :
    stepCalls (begun 0x06#8 0x12#32 0x3070#32 []) = some [.modifyReg 0x12#6 0x70#8 0x30#8] := by decide
theorem test_modreg_last : stepResults (standing 0x06#8 0x12#32 0#32 (blockPos 1 [] []) []) =
    some (0x002#32, 0x12#32, 0x34#32, 0#32) := by decide
/-- Section 2.3. -/
theorem test_setfreq_first : stepCalls (begun 0x10#8 433920000#32 0#32 []) =
    some [.writeReg 0x0F#6 0x71#8, .writeReg 0x0E#6 0xB0#8, .writeReg 0x0D#6 0x10#8] := by decide
theorem test_setfreq_last : stepResults (standing 0x10#8 4294967295#32 0#32 (blockPos 1 [] []) []) =
    some (0x002#32, 0xA530E9#32, 0#32, 0#32) := by decide
/-- Section 2.5: 20 000 Hz builds 0x35. -/
theorem test_setdev_first : stepCalls (begun 0x11#8 20000#32 0#32 []) = some [.writeReg 0x15#6 0x35#8] := by decide
theorem test_setdev_last : stepResults (standing 0x11#8 20000#32 0#32 (blockPos 1 [] []) []) =
    some (0x002#32, 5#32, 3#32, 0#32) := by decide
/-- Section 2.4. -/
theorem test_setdrate_first : stepCalls (begun 0x12#8 38400#32 0#32 []) =
    some [.modifyReg 0x10#6 0x0F#8 0x0A#8, .writeReg 0x11#6 0x83#8] := by decide
theorem test_setdrate_last : stepResults (standing 0x12#8 38400#32 0#32 (blockPos 1 [] []) []) =
    some (0x002#32, 131#32, 10#32, 0#32) := by decide
/-- Section 2.6. -/
theorem test_setchanbw_first : stepCalls (begun 0x13#8 100000#32 0#32 []) =
    some [.modifyReg 0x10#6 0xF0#8 0xC0#8] := by decide
/-- Vector V13. -/
theorem test_setsync_first : stepCalls (begun 0x14#8 0#32 0x1234#32 []) =
      some [.modifyReg 0x12#6 0x07#8 0x00#8, .writeReg 0x04#6 0xD3#8, .writeReg 0x05#6 0x91#8] ∧
    stepCalls (begun 0x14#8 3#32 0x1234#32 []) =
      some [.modifyReg 0x12#6 0x07#8 0x02#8, .writeReg 0x04#6 0x12#8, .writeReg 0x05#6 0x34#8] := by decide
/-- Vectors V9 and V10. -/
theorem test_setmod_first : stepResults (begun 0x15#8 5#32 0#32 []) = some (0x062#32, 0#32, 0#32, 0#32) ∧
    stepCalls (begun 0x15#8 8#32 0#32 []) = some [.modifyReg 0x12#6 0x70#8 0x00#8] := by decide
/-- Vector V14. -/
theorem test_setaddrfilt_first : stepCalls (begun 0x16#8 0#32 0x5A#32 []) =
      some [.modifyReg 0x07#6 0x03#8 0x00#8, .writeReg 0x09#6 0x00#8] ∧
    stepCalls (begun 0x16#8 1#32 0x5A#32 []) =
      some [.modifyReg 0x07#6 0x03#8 0x01#8, .writeReg 0x09#6 0x5A#8] := by decide
/-- Vectors V11 and V12. -/
theorem test_setpktlen_first : stepResults (begun 0x17#8 3#32 0#32 []) = some (0x062#32, 0#32, 0#32, 0#32) ∧
    stepCalls (begun 0x17#8 2#32 0x20#32 []) =
      some [.modifyReg 0x08#6 0x03#8 0x02#8, .writeReg 0x06#6 0xFF#8] := by decide
/-- 43_configuration.md R248, with two pairs. -/
theorem test_setdefaults_first :
    stepCalls { begun 0x18#8 0#32 0#32 [] with par := { defaultParams with baseline := [(0x0B#6, 6#8), (0x2E#6, 9#8)] } } =
      some [.writeReg 0x0B#6 6#8, .writeReg 0x2E#6 9#8] := by decide
theorem test_goidle_first : stepCalls (begun 0x20#8 0#32 0#32 []) = some [.goTo .idle] := by decide
theorem test_gorx_first : stepCalls (begun 0x21#8 0#32 0#32 []) = some [.goTo .rx] := by decide
theorem test_gotx_first : stepCalls (begun 0x22#8 0#32 0#32 []) = some [.goTo .tx] := by decide
/-- 44_radio_state_machine.md R272: TX goes by IDLE first. -/
theorem test_gotx_call : stepCalls (standing 0x22#8 0#32 0#32 (callPos (.goTo .tx) []) []) =
    some [.goTo .idle, .strobe 0x35#6, .awaitState 0x13#5] := by decide
theorem test_receive_first : stepCalls (begun 0x30#8 64#32 0#32 []) = some [.waitRxBytes, .readFifo 64] := by decide
/-- Section 2.7: LQI 0x05 is a CRC mismatch, 0x85 is not. -/
theorem test_receive_last :
    stepResults (standing 0x30#8 0#32 0#32 { blockPos 3 [] [] with q := 0x05#8 } []) =
      some (0x022#32, 0#32, 0#32, 0#32) ∧
    stepResults (standing 0x30#8 0#32 0#32 (blockPos 3 [] []) []) = some (0x002#32, 0#32, 0#32, 0#32) := by decide
/-- Vectors V15 to V18. -/
theorem test_transmit_gate :
    stepResults (begun 0x31#8 0x100#32 0#32 []) = some (0x002#32, 0#32, 0#32, 0#32) ∧
    stepResults (begun 0x31#8 62#32 0#32 []) = some (0x002#32, 0#32, 0#32, 0#32) ∧
    stepResults { begun 0x31#8 62#32 0#32 [] with par := { defaultParams with reportLengthError := true } } =
      some (0x072#32, 0#32, 0#32, 0#32) := by decide
/-- 45_packet_protocol.md R300: the length byte, then the payload. -/
theorem test_transmit_first :
    (after (step { begun 0x31#8 2#32 0#32 [] with buf := [(0, 0xA1#8), (1, 0xA2#8)] })).map (·.frame) =
      some [(0, 2#8), (1, 0xA1#8), (2, 0xA2#8)] ∧
    stepCalls { begun 0x31#8 2#32 0#32 [] with buf := [(0, 0xA1#8), (1, 0xA2#8)] } =
      some [.writeReg 0x02#6 0x06#8, .goTo .idle, .strobe 0x3B#6, .goTo .rx] := by decide
/-- Section 2.7. -/
theorem test_hwinfo_last : stepResults (standing 0x40#8 0#32 0#32 { blockPos 2 [0x0F#8, 0x14#8] [] with p := 0#8 } []) =
    some (0x002#32, 0#32, 0x14#32, 0#32) := by decide
theorem test_rssi_last : stepResults (standing 0x41#8 0#32 0#32 (blockPos 1 [0x0F#8, 0xFD#8] []) []) =
    some (0x002#32, 0xFFFFFFB5#32, 0xFD#32, 0#32) := by decide
theorem test_lqi_last : stepResults (standing 0x42#8 0#32 0#32 (blockPos 1 [0x0F#8, 0x85#8] []) []) =
    some (0x002#32, 0x05#32, 0x85#32, 0#32) := by decide

/-! The wire rows: one primitive each. -/

theorem test_hdr_read : wireTrace (.hdrRead 0x10#6) ⟨0x90#8, [0#8], 0, .send⟩ [got [0x0F#8, 0x8C#8]] =
    some [(.xfer [0x90#8, 0x00#8], .bytes [0x0F#8, 0x8C#8])] := by decide
theorem test_hdr_read_burst : wireTrace (.hdrReadBurst 0x05#6) ⟨0xC5#8, [0#8], 0, .send⟩ [got [0x0F#8, 0x91#8]] =
    some [(.xfer [0xC5#8, 0x00#8], .bytes [0x0F#8, 0x91#8])] := by decide
theorem test_hdr_write : wireTrace (.hdrWrite 0x0D#6) ⟨0x0D#8, [0x10#8], 0, .send⟩ [okA] =
    some [(.wr [0x0D#8, 0x10#8], .done)] := by decide
theorem test_hdr_burst_write : wireTrace (.hdrBurstWrite 0x3E#6) ⟨0x7E#8, [1#8, 2#8], 0, .send⟩ [okA] =
    some [(.wr [0x7E#8, 1#8, 2#8], .done)] := by decide
theorem test_fifo_single : wireTrace .fifoSingleRead ⟨0xBF#8, [0#8], 0, .send⟩ [got [0x0F#8, 7#8]] =
      some [(.xfer [0xBF#8, 0x00#8], .bytes [0x0F#8, 7#8])] ∧
    wireTrace .fifoSingleWrite ⟨0x3F#8, [9#8], 0, .send⟩ [okA] = some [(.wr [0x3F#8, 9#8], .done)] := by decide
theorem test_fifo_burst_read :
    wireTrace .fifoBurstRead ⟨0xFF#8, [0#8, 0#8], 3, .send⟩ [got [0x0F#8, 3#8, 0x5A#8]] =
      some [(.xfer [0xFF#8, 0#8, 0#8], .bytes [0x0F#8, 3#8, 0x5A#8])] ∧
    wireTrace .fifoBurstRead ⟨0xFF#8, [0#8, 0#8], 3, .more⟩ [got [1#8, 2#8, 3#8]] =
      some [(.xfer [0#8, 0#8, 0#8], .bytes [1#8, 2#8, 3#8])] := by decide
theorem test_fifo_burst_write : wireTrace .fifoBurstWrite ⟨0x7F#8, [2#8, 0xA1#8, 0xA2#8], 0, .send⟩ [okA] =
    some [(.wr [0x7F#8, 2#8, 0xA1#8, 0xA2#8], .done)] := by decide
/-- 20_memory.md R77: a strobe is one byte. -/
theorem test_strobe_rows : ∀ ic ∈ [(Instr.sres, 0x30#8), (.sfstxon, 0x31#8), (.sxoff, 0x32#8), (.scal, 0x33#8),
      (.srx, 0x34#8), (.stx, 0x35#8), (.sidle, 0x36#8), (.swor, 0x38#8), (.spwd, 0x39#8), (.sfrx, 0x3A#8),
      (.sftx, 0x3B#8), (.sworrst, 0x3C#8), (.snop, 0x3D#8)],
    wireTrace ic.1 ⟨ic.2, [], 0, .send⟩ [okA] = some [(.wr [ic.2], .done)] := by decide
/-- 20_memory.md R78: a status read is the header and one dummy byte. -/
theorem test_status_rows : ∀ ic ∈ [(Instr.rdPartnum, 0xF0#8), (.rdVersion, 0xF1#8), (.rdFreqest, 0xF2#8),
      (.rdLqiReg, 0xF3#8), (.rdRssiReg, 0xF4#8), (.rdMarcstate, 0xF5#8), (.rdWortime1, 0xF6#8),
      (.rdWortime0, 0xF7#8), (.rdPktstatus, 0xF8#8), (.rdVcoVcDac, 0xF9#8), (.rdTxbytes, 0xFA#8),
      (.rdRxbytes, 0xFB#8), (.rdRcctrl1Status, 0xFC#8), (.rdRcctrl0Status, 0xFD#8)],
    wireTrace ic.1 ⟨ic.2, [0#8], 0, .send⟩ [got [0x0F#8, 0x77#8]] =
      some [(.xfer [ic.2, 0x00#8], .bytes [0x0F#8, 0x77#8])] := by decide
/-- Vector V21: a failed Xfer ends with STATUS 0x532 and the payload in ERRINFO. -/
theorem test_xfer_fault :
    (after (step { standing 0x01#8 0x75#32 0#32 (txnPos ⟨0xF5#8, [0#8], 0, .send⟩) [failA 0xBEEF] with
      cs := .selected })).map (fun t => (statusWord t, t.errinfo)) = some (0x532#32, 0xBEEF#32) := by decide
/-- A failed CsDeselect ends with STATUS 0x942. -/
theorem test_line_fault :
    (after (step { standing 0x01#8 0x75#32 0#32 (txnPos ⟨0xF5#8, [0#8], 0, .deselect⟩) [failA 1] with
      cs := .selected })).map (fun t => (statusWord t, t.errinfo)) = some (0x942#32, 1#32) := by decide

/-! The host port. -/

/-- Vector V3: CMD[31:8] is ignored. -/
theorem test_cmd_write : (after (step { State.reset with inputs := [.hostWrite 0x00 32 0x120#32] })).map
    (fun t => (hostWord t 0x00, statusWord t)) = some (0x20#32, 0x001#32) := by decide
/-- 20_memory.md R72. -/
theorem test_buf_write : (after (step { State.reset with inputs := [.hostWrite 0x7C 32 0x04030201#32] })).map
    (fun t => (t.buf, hostWord t 0x7C)) = some ([(60, 1#8), (61, 2#8), (62, 3#8), (63, 4#8)], 0x04030201#32) := by
  decide
/-- Log entry 14: a table word is run by the very next step. -/
theorem test_with_fetch_word :
    stepCalls (State.reset.withFetchWord 8 0x22) = some [.goTo .tx] ∧
    stepCalls (State.reset.withFetchWord 8 0x42) = some [.readReg 0x73#7] := by decide

/-! Witnesses: states and operands that meet the hypotheses of each statement, clause by clause, at the edges of
their ranges. -/

/-- A running state with no transaction open, for the statements about BUSY. -/
def busyState (ins : List Input) : State := { begun 0x20#8 0#32 0#32 [] with inputs := ins }

/-- A ready state with something to do. -/
def readyState (ins : List Input) : State := { State.reset with inputs := ins, faultSeen := true, drop := true }

theorem witness_block_reset : (busyState [.blockReset]).inputs = .blockReset :: [] := rfl

theorem witness_nothing_happens :
    hostAccessOk 0x00 32 = true ∧ hostAccessOk 0x3C 32 = true ∧
    (readyState [.turn, .hostWrite 0x04 32 9#32]).phase = .ready ∧
    (readyState [.turn, .hostWrite 0x04 32 9#32]).cs = .deselected ∧
    (∀ i ∈ (readyState [.turn, .hostWrite 0x04 32 9#32]).inputs, ¬CmdWrite i) ∧
    (runSteps 3 (readyState [.turn, .hostWrite 0x04 32 9#32])).isSome = true := by
  refine ⟨by decide, by decide, rfl, rfl, ?_, by decide⟩
  intro i hi
  simp only [readyState, List.mem_cons, List.mem_nil_iff, or_false] at hi
  rcases hi with rfl | rfl <;> simp [CmdWrite]

theorem witness_cmd_write :
    busy (readyState [.hostWrite 0x00 32 0x120#32]) = false ∧ busy (busyState [.hostWrite 0x00 32 0#32]) = true := by
  decide

theorem witness_busy_drops : busy (busyState [.hostWrite 0x7C 32 1#32]) = true ∧ hostAccessOk 0x7C 32 = true ∧
    busy (busyState [.hostRead 0x00 32]) = true ∧ hostAccessOk 0x00 32 = true := by decide

theorem witness_host_reads : (∀ o ∈ [0x00, 0x04, 0x08, 0x0C, 0x10, 0x14, 0x18, 0x1C, 0x20, 0x3C, 0x40, 0x7C],
      hostAccessOk o 32 = true) ∧
    memRead { readyState [.hostRead 0x7C 32] with buf := [(63, 5#8)] }.buf (0x7C - 0x40 + 3) = some 5#8 := by decide

theorem witness_host_writes : busy (readyState [.hostWrite 0x18 32 0x300#32]) = false ∧
    (∀ o ∈ [0x04, 0x08, 0x0C, 0x10, 0x14, 0x18, 0x1C, 0x20, 0x3C], hostAccessOk o 32 = true) := by decide

theorem witness_undefined_access : 0x7F < 0x80 ∧ 0x7D % 4 ≠ 0 ∧ (8 : Nat) ≠ 32 ∧
    (readyState [.hostRead 0x80 32]).inputs = .hostRead 0x80 32 :: [] := by decide

theorem witness_buf_words : busy (readyState [.hostWrite (0x40 + 4 * 15) 32 1#32]) = false ∧
    busy (readyState [.hostWrite (0x40 + 4 * 0) 32 1#32]) = false := by decide

theorem witness_sticky_flags :
    (∃ t, step (readyState [.hostWrite 0x18 32 0x300#32]) = .next t ∧ t.faultSeen = false ∧ t.drop = false) ∧
    ∃ t, step (readyState [.blockReset]) = .next t ∧ t.faultSeen = false ∧ t.drop = false :=
  ⟨⟨_, rfl, by decide, by decide⟩, ⟨_, rfl, by decide, by decide⟩⟩

theorem witness_step_runs :
    decode .command (busyState []).cmd = .ok .goidle ∧ (busyState []).phase = .running Position.start ∧
    decode .lone 0x36#8 = .ok .sidle ∧
    InTxn ⟨0x36#8, [], 0, .select⟩ (txnPos ⟨0x36#8, [], 0, .select⟩)
      (standing 0x20#8 0#32 0#32 (txnPos ⟨0x36#8, [], 0, .select⟩) [okA]) ∧
    decode .frame 0xF5#8 = .ok .rdMarcstate ∧
    InTxn ⟨0xF5#8, [0#8], 0, .send⟩ (txnPos ⟨0xF5#8, [0#8], 0, .send⟩)
      { standing 0x20#8 0#32 0#32 (txnPos ⟨0xF5#8, [0#8], 0, .send⟩) [okA] with inputs := [.turn] } := by decide

theorem witness_illegal_opcodes : decode .command 0x43#8 = .error (.illegalOpcode 0x43#8) ∧
    Started 0x43#8 (begun 0x43#8 0#32 0#32 []) := by decide

/-- A state in a read transaction, its line selected. -/
def inRead : State := { standing 0x20#8 0#32 0#32 (txnPos ⟨0xF5#8, [0#8], 0, .send⟩) [got [0x0F#8, 1#8]] with
  cs := .selected, buf := [(0, 1#8), (63, 2#8)] }

theorem witness_keeps_invariant : Invariant inRead = true ∧ (after (step inRead)).isSome = true ∧
    Invariant { inRead with cs := .unknown } = false ∧ Invariant { inRead with buf := [(64, 1#8)] } = false := by
  decide

theorem witness_one_primitive : ∃ t, step inRead = .next t ∧
    t.trace = inRead.trace ++ [(.xfer [0xF5#8, 0#8], .bytes [0x0F#8, 1#8])] := ⟨_, rfl, by decide⟩

theorem witness_errinfo : ∃ t, step { inRead with answers := [failA 0x1BEEFCAFE] } = .next t ∧
    t.trace = inRead.trace ++ [(.xfer [0xF5#8, 0#8], .fail 0x1BEEFCAFE)] ∧ t.errinfo = 0xBEEFCAFE#32 :=
  ⟨_, rfl, by decide, by decide⟩

theorem witness_result : (∃ t, step (begun 0x00#8 0#32 0#32 []) = .next t ∧ t.result = .illegalCommand) ∧
    ∃ t, step (readyState [.hostWrite 0x00 32 0x20#32]) = .next t ∧ busy t = true ∧ t.done = false :=
  ⟨⟨_, rfl, by decide⟩, ⟨_, rfl, by decide, by decide⟩⟩

theorem witness_operands_frozen : busy inRead = true ∧ inRead.inputs ≠ [.blockReset] ∧
    (after (step inRead)).isSome = true := by decide

theorem witness_decode_of_encode : (Instr.hdrReadBurst 0x3E#6).wf = true ∧ (Instr.hdrWrite 0x00#6).wf = true ∧
    Instr.sidle.isCommand = false ∧ (Instr.sidle.isStrobe = true ↔ ([] : List Byte) = []) ∧
    ((Instr.hdrWrite 0x00#6).isStrobe = true ↔ [0#8] = []) := by decide

theorem witness_encode_of_decode : decode .lone 0x37#8 = .ok (.hdrWrite 0x37#6) ∧
    decode .command 0x42#8 = .ok .lqi ∧ decode .frame 0x80#8 = .ok (.hdrRead 0x00#6) := by decide

/-- The whole byte (DRATE_M of MDMCFG3) is a field with no other beside it. -/
theorem witness_whole_field : fieldOk ⟨0, 8⟩ := by decide

theorem witness_fields : fieldOk ⟨0, 3⟩ ∧ fieldOk ⟨3, 5⟩ ∧ fieldsDisjoint ⟨0, 3⟩ ⟨3, 5⟩ ∧ fieldOk ⟨7, 1⟩ := by decide

theorem witness_field_list : (∀ fv ∈ [((⟨6, 2⟩ : Field), 3), (⟨4, 2⟩, 9)], fieldOk fv.1) ∧
    [((⟨6, 2⟩ : Field), 3), (⟨4, 2⟩, 9)].Pairwise (fun a b => fieldsDisjoint a.1 b.1) := by decide

theorem witness_deviation : encDev 1587 = (0, 0) ∧ encDev 380859 = (7, 7) := by decide
theorem witness_chanbw : encChanbw 812500 = (0, 0) ∧ encChanbw 0 = (3, 3) ∧ encChanbw 812501 = (0, 0) := by decide
theorem witness_drate : encDrate 25 = (2, 0) ∧ encDrate 1621826 = (255, 15) ∧ encDrate 24 = (0, 0) ∧
    encDrate 793 = (0, 5) ∧ encDrate 4294967295 = (255, 15) := by decide

/-- A wire row at a stage of its transaction. -/
def wireState (t : Txn) (as : List Answer) : State := standing 0x20#8 0#32 0#32 (txnPos t) as

theorem witness_wire_rows :
    (InTxn ⟨0x36#8, [], 0, .select⟩ (txnPos ⟨0x36#8, [], 0, .select⟩) (wireState ⟨0x36#8, [], 0, .select⟩ [okA]) ∧
      BusOk 1 (wireState ⟨0x36#8, [], 0, .select⟩ [okA])) ∧
    (InTxn ⟨0x0D#8, [1#8], 0, .deselect⟩ (txnPos ⟨0x0D#8, [1#8], 0, .deselect⟩)
        (wireState ⟨0x0D#8, [1#8], 0, .deselect⟩ [okA]) ∧
      BusOk 1 (wireState ⟨0x0D#8, [1#8], 0, .deselect⟩ [okA])) ∧
    BusOk 1 (wireState ⟨0x36#8, [], 0, .send⟩ [okA]) ∧ BusOk 1 (wireState ⟨0xF5#8, [0#8], 0, .send⟩ [okA]) ∧
    BusOk 1 (wireState ⟨0xFF#8, [0#8, 0#8], 2, .more⟩ [okA]) ∧
    BusOk 1 (wireState ⟨0xFF#8, [0#8, 0#8], 0, .send⟩ [okA]) ∧
    (answerAt (wireState ⟨0x0D#8, [1#8], 0, .select⟩ [failA 7]) 0).failure = some 7 := by decide

theorem witness_failed_cs : Invariant inRead = true ∧ InTxn ⟨0xF5#8, [0#8], 0, .send⟩ (txnPos ⟨0xF5#8, [0#8], 0, .send⟩)
      inRead ∧
    Invariant (standing 0x31#8 0#32 0#32 (callPos (.lineWait true) [0x0F#8, 1#8]) []) = true ∧
    (callPos (.lineWait true) [0x0F#8, 1#8]).rx ≠ [] := by decide

theorem witness_failed_line_wait :
    AtCall (.lineWait true) [] (callPos (.lineWait true) [])
      (standing 0x31#8 0#32 0#32 (callPos (.lineWait true) []) [failA 7]) ∧
    (answerAt (standing 0x31#8 0#32 0#32 (callPos (.lineWait true) []) [failA 7]) 0).failure = some 7 := by decide

theorem witness_wire_frame : (after (exec .sidle (wireState ⟨0x36#8, [], 0, .send⟩ [okA]))).isSome = true := by decide

/-- A state before block `k` with the given operands. -/
def blockState (k : Nat) (a0 a1 : Word) (rx payload : List Byte) : State :=
  standing 0x01#8 a0 a1 (blockPos k rx payload) []

theorem witness_raw_blocks :
    AtBlock 0 (blockPos 0 [] []) (blockState 0 64#32 64#32 [] []) ∧
    ((blockState 0 64#32 64#32 [] []).arg0.extractLsb' 0 7).toNat ≤ 64 ∧
    ((blockState 0 64#32 64#32 [] []).arg1.extractLsb' 0 7).toNat ≤ 64 ∧
    AtBlock 1 (blockPos 1 [1#8, 2#8] []) (blockState 1 0#32 0#32 [1#8, 2#8] []) ∧
    AtBlock 1 (blockPos 1 [1#8, 2#8, 3#8] [4#8]) (blockState 1 1#32 0#32 [1#8, 2#8, 3#8] [4#8]) ∧
    (blockPos 1 [1#8, 2#8, 3#8] [4#8]).payload.length =
      ((blockState 1 1#32 0#32 [1#8, 2#8, 3#8] [4#8]).arg0.extractLsb' 0 7).toNat := by decide

theorem witness_configuration_blocks :
    AtBlock 0 (blockPos 0 [] []) (blockState 0 4#32 0#32 [] []) ∧
    ((blockState 0 2#32 0#32 [] []).arg0.extractLsb' 0 2, 3#8) ∈
      [(0#2, 0#8), (1#2, 1#8), (2#2, 3#8), (3#2, 2#8)] ∧
    ((blockState 0 4#32 0#32 [] []).arg0.extractLsb' 0 3, 0x70#8) ∈
      [(0#3, 0x00#8), (1#3, 0x10#8), (2#3, 0x30#8), (3#3, 0x40#8), (4#3, 0x70#8)] ∧
    (blockState 0 2#32 0#32 [] []).arg0.extractLsb' 0 2 ≠ 3#2 := by decide

theorem witness_radio_packet_readout_blocks :
    AtBlock 2 (blockPos 2 [1#8, 2#8] []) (blockState 2 0#32 0#32 [1#8, 2#8] []) ∧
    AtBlock 3 (blockPos 3 [] []) (blockState 3 0#32 0#32 [] []) := by decide

theorem witness_subroutine_calls :
    (∀ c ∈ [Call.readReg 0x75#7, .writeReg 0x3F#6 1#8, .strobe 0x36#6, .readFifo 64, .writeBurst 0x3F#6 [1#8],
        .modifyReg 0x12#6 0x07#8 1#8, .modifyWrite 0x12#6 0x07#8 1#8, .awaitState 1#5, .awaitTest 1#5, .goTo .idle,
        .goTo .rx, .goTo .tx, .waitRxBytes, .rxTest, .rxOverflow, .lineWait true],
      AtCall c [] (callPos c [0x0F#8, 0x04#8]) (standing 0x31#8 0#32 0#32 (callPos c [0x0F#8, 0x04#8]) [lineAt true])) ∧
    BusOk 1 (standing 0x31#8 0#32 0#32 (callPos (.lineWait true) []) [lineAt true]) ∧
    (0x80#8).getLsbD 7 = true ∧ (0x04#8).getLsbD 7 = false ∧ (0x04#8).extractLsb' 0 7 ≠ 0#7 ∧
    (0x04#8).extractLsb' 0 7 = { State.reset with lastCount := 4#7 }.lastCount ∧ (0x00#8).extractLsb' 0 7 = 0#7 := by
  decide

theorem witness_operand_checks :
    AtBlock 0 (blockPos 0 [] []) (blockState 0 65#32 65#32 [] []) ∧
    64 < ((blockState 0 65#32 65#32 [] []).arg0.extractLsb' 0 7).toNat ∧
    64 < ((blockState 0 65#32 65#32 [] []).arg1.extractLsb' 0 7).toNat ∧
    5#3 ≤ (blockState 0 5#32 0#32 [] []).arg0.extractLsb' 0 3 ∧
    (blockState 0 3#32 0#32 [] []).arg0.extractLsb' 0 2 = 3#2 := by decide

theorem witness_transmit_gate : ∀ n ∈ [0, 1, 61, 62, 255],
    AtBlock 0 (blockPos 0 [] []) (blockState 0 (BitVec.ofNat 32 n) 0#32 [] []) ∧
    n = ((blockState 0 (BitVec.ofNat 32 n) 0#32 [] []).arg0.extractLsb' 0 8).toNat := by decide

theorem witness_commands_frame :
    (after (exec .rdfifo (blockState 1 1#32 0#32 [1#8, 2#8, 3#8] [4#8]))).isSome = true ∧
    (∀ pos level rest, ¬AtCall (.lineWait level) rest pos (blockState 1 1#32 0#32 [1#8, 2#8, 3#8] [4#8])) := by
  refine ⟨by decide, ?_⟩
  rintro pos level rest ⟨hp, -, hc⟩
  cases hp
  cases hc

/-! Runs: a command just accepted and answers that let it complete. -/

theorem witness_raw_write_runs : ∀ w ∈ [0x02#8, 0x03#8, 0x05#8],
    Started w (begun w 0x3F#32 64#32 wr3) ∧ BusOk 3 (begun w 0x3F#32 64#32 wr3) ∧
    ((begun w 0x3F#32 64#32 wr3).arg1.extractLsb' 0 7).toNat ≤ 64 := by decide

theorem witness_raw_read_runs :
    BusOk 3 (begun 0x01#8 0x75#32 0#32 (rd3 0x01#8)) ∧
    (0 = ((begun 0x04#8 0x80#32 0#32 wr3).arg0.extractLsb' 0 7).toNat ∧
      BusOk (if 0 = 0 then 3 else 4) (begun 0x04#8 0x80#32 0#32 wr3)) ∧
    (64 = ((begun 0x04#8 64#32 0#32 (wr3 ++ [okA])).arg0.extractLsb' 0 7).toNat ∧
      BusOk (if 64 = 0 then 3 else 4) (begun 0x04#8 64#32 0#32 (wr3 ++ [okA]))) ∧
    Started 0x06#8 (begun 0x06#8 0x12#32 0x3070#32 (rd3 0x02#8 ++ wr3)) ∧
    BusOk 6 (begun 0x06#8 0x12#32 0x3070#32 (rd3 0x02#8 ++ wr3)) := by decide

theorem witness_configuration_runs : ∀ w ∈ [0x10#8, 0x11#8, 0x12#8, 0x13#8, 0x14#8, 0x15#8, 0x16#8, 0x17#8],
    Started w (begun w 2#32 0x1234#32 (rd3 0x02#8 ++ wr3 ++ wr3 ++ wr3)) ∧
    BusOk 12 (begun w 2#32 0x1234#32 (rd3 0x02#8 ++ wr3 ++ wr3 ++ wr3)) := by decide

theorem witness_configuration_values : encDev 2 = (0, 0) ∧ encDrate 2 = (0, 0) ∧ encChanbw 2 = (3, 3) ∧
    (begun 0x15#8 2#32 0#32 []).arg0.extractLsb' 0 3 = 2#3 ∧
    (begun 0x17#8 2#32 0#32 []).arg0.extractLsb' 0 2 ≠ 3#2 := by decide

/-- A command with a BASELINE of one pair. -/
def defaultsState (as : List Answer) : State :=
  { begun 0x18#8 0#32 0#32 as with par := { defaultParams with baseline := [(0x0B#6, 6#8)] } }

theorem witness_setdefaults_run : Started 0x18#8 (defaultsState wr3) ∧
    BusOk (3 * (defaultsState wr3).par.baseline.length) (defaultsState wr3) := by decide

theorem witness_readout_runs : ∀ w ∈ [0x40#8, 0x41#8, 0x42#8],
    Started w (begun w 0#32 0#32 (rd3 0x00#8 ++ rd3 0x14#8)) ∧
    BusOk 6 (begun w 0#32 0#32 (rd3 0x00#8 ++ rd3 0x14#8)) := by decide

theorem witness_goidle_run : Started 0x20#8 (begun 0x20#8 0#32 0#32 idleAnswers) ∧
    IdleEnds 1 (begun 0x20#8 0#32 0#32 idleAnswers) := by
  simp only [IdleEnds, AwaitEnds]; decide

theorem witness_gorx_run :
    Started 0x21#8 (begun 0x21#8 0#32 0#32 (idleAnswers ++ wr3 ++ rd3 0x0D#8)) ∧
    GotoEnds 0x34#6 (begun 0x21#8 0#32 0#32 (idleAnswers ++ wr3 ++ rd3 0x0D#8)).par.marcRx 1 0
      (begun 0x21#8 0#32 0#32 (idleAnswers ++ wr3 ++ rd3 0x0D#8)) := by
  simp only [GotoEnds, IdleEnds, AwaitEnds]; decide

theorem witness_gotx_run :
    Started 0x22#8 (begun 0x22#8 0#32 0#32 (idleAnswers ++ wr3 ++ rd3 0x13#8)) ∧
    GotoEnds 0x35#6 (begun 0x22#8 0#32 0#32 (idleAnswers ++ wr3 ++ rd3 0x13#8)).par.marcTx 1 0
      (begun 0x22#8 0#32 0#32 (idleAnswers ++ wr3 ++ rd3 0x13#8)) := by
  simp only [GotoEnds, IdleEnds, AwaitEnds]; decide

/-- RECEIVE of two bytes: the counts 0, 4, 4 of the source's scenario S2. -/
def receiveState : State := begun 0x30#8 2#32 0#32
  (rd3 0x00#8 ++ rd3 0x04#8 ++ rd3 0x04#8 ++ [okA, got [0x0F#8, 2#8, 0x5A#8], got [0xC1#8, 0xC2#8], okA] ++
    rd3 0x85#8 ++ idleAnswers ++ wr3)

theorem witness_receive_run : ∃ s1 s2 s3 s4 : State,
    Started 0x30#8 receiveState ∧ 2 = (receiveState.arg0.extractLsb' 0 7).toNat ∧ RxWaitEnds 2 0#7 receiveState ∧
    s1 = { sentPolls 0x3B#6 3 receiveState with lastCount := countAfter 2 0#7 receiveState } ∧
    BusOk (if 2 = 0 then 3 else 4) s1 ∧
    s2 = { sentFifoRead 2 s1 with buf := memWriteList receiveState.buf 0 (clockedBytes s1 2 2),
                                  res0 := (chipByte s1 1 1).setWidth 32, res1 := (chipByte s1 1 2).setWidth 32 } ∧
    BusOk 3 s2 ∧ s3 = { sentStatusRead 0x33#6 s2 with res2 := (readByte s2).setWidth 32 } ∧
    IdleEnds 1 s3 ∧ s4 = wentIdle 1 s3 ∧ BusOk 3 s4 := by
  refine ⟨_, _, _, _, by decide, by decide, ?_, rfl, by decide, rfl, by decide, rfl, ?_, rfl, by decide⟩
  · simp only [RxWaitEnds]; decide
  · simp only [IdleEnds, AwaitEnds]; decide

theorem witness_receive_overflow_run :
    Started 0x30#8 (begun 0x30#8 64#32 0#32 (rd3 0x04#8 ++ rd3 0x80#8 ++ wr3)) ∧
    ((begun 0x30#8 64#32 0#32 (rd3 0x04#8 ++ rd3 0x80#8 ++ wr3)).arg0.extractLsb' 0 7).toNat ≤ 64 ∧
    RxWaitOverflows 1 0#7 (begun 0x30#8 64#32 0#32 (rd3 0x04#8 ++ rd3 0x80#8 ++ wr3)) ∧
    BusOk 3 (sentPolls 0x3B#6 2 (begun 0x30#8 64#32 0#32 (rd3 0x04#8 ++ rd3 0x80#8 ++ wr3))) := by
  simp only [RxWaitOverflows]; decide

/-- TRANSMIT of one byte, every poll confirmed at once but the first. -/
def transmitState : State :=
  { begun 0x31#8 1#32 0#32 (wr3 ++ idleAnswers ++ wr3 ++ (wr3 ++ rd3 0x01#8 ++ wr3 ++ rd3 0x0D#8) ++ wr3 ++ wr3 ++
      (wr3 ++ rd3 0x01#8 ++ wr3 ++ rd3 0x13#8) ++ [lineAt false, lineAt true] ++ [lineAt false] ++ wr3 ++ rd3 0x01#8) with
    buf := [(0, 0xA1#8)] }

theorem witness_transmit_run : ∃ s1 s2 s3 s4 s5 s6 s7 s8 : State,
    Started 0x31#8 transmitState ∧ 1 = (transmitState.arg0.extractLsb' 0 8).toNat ∧ BusOk 3 transmitState ∧
    s1 = sentWriteReg transmitState.par.gdoIocfg (transmitState.par.gdoCfgSync.setWidth 8) transmitState ∧
    IdleEnds 1 s1 ∧ s2 = wentIdle 1 s1 ∧ BusOk 3 s2 ∧ s3 = sentStrobe 0x3B#6 s2 ∧
    GotoEnds 0x34#6 transmitState.par.marcRx 0 0 s3 ∧ s4 = wentTo 0x34#6 0 0 s3 ∧ BusOk 6 s4 ∧
    s5 = sentWriteReg transmitState.par.gdoIocfg (transmitState.par.gdoCfgEop.setWidth 8)
      (sentWrite (0x7F#8 :: BitVec.ofNat 8 1 :: memBytes transmitState.buf transmitState.memDraws 0 1) s4) ∧
    GotoEnds 0x35#6 transmitState.par.marcTx 0 0 s5 ∧ s6 = wentTo 0x35#6 0 0 s5 ∧
    LineEnds true 1 s6 ∧ s7 = lineReads 2 s6 ∧ LineEnds false 0 s7 ∧ s8 = lineReads 1 s7 ∧ IdleEnds 0 s8 := by
  refine ⟨_, _, _, _, _, _, _, _, by decide, by decide, by decide, rfl, ?_, rfl, by decide, rfl, ?_, rfl, by decide,
    rfl, ?_, rfl, ?_, rfl, ?_, rfl, ?_⟩ <;>
    simp only [GotoEnds, IdleEnds, AwaitEnds, LineEnds] <;> decide

/-- GOIDLE before AWAIT_STATE, two reads that do not confirm to come. -/
def awaitingState : State :=
  standing 0x20#8 0#32 0#32 (callPos (.awaitState 1#5) []) (rd3 0x0D#8 ++ rd3 0x13#8)

theorem witness_await_state : awaitingState.inputs = [] ∧ decode .command awaitingState.cmd = .ok .goidle ∧
    AtCall (.awaitState 1#5) [] (callPos (.awaitState 1#5) []) awaitingState ∧ AwaitFails 1#5 2 awaitingState := by
  simp only [AwaitFails]; decide

/-- RECEIVE before WAIT_RX_BYTES, two counts that differ to come. -/
def waitingState : State :=
  standing 0x30#8 2#32 0#32 (callPos .waitRxBytes []) (rd3 0x00#8 ++ rd3 0x04#8)

theorem witness_wait_rx : waitingState.inputs = [] ∧ decode .command waitingState.cmd = .ok .receive ∧
    AtCall .waitRxBytes [] (callPos .waitRxBytes []) waitingState ∧ RxWaitFails 2 0#7 waitingState := by
  simp only [RxWaitFails]; decide

/-- TRANSMIT before its first line wait, two reads at the other level to come. -/
def lineState : State :=
  standing 0x31#8 1#32 0#32 (callPos (.lineWait true) []) [lineAt false, lineAt false]

theorem witness_line_wait : lineState.inputs = [] ∧ decode .command lineState.cmd = .ok .transmit ∧
    AtCall (.lineWait true) [] (callPos (.lineWait true) []) lineState ∧ LineFails true 2 lineState := by
  simp only [LineFails]; decide

end Sys2Proof.Tests
end

section
/-! PROOFS. 00_scope.md: what one step does on the bus, who starts a command, and the addresses and words that
00_scope.md R9 gives after reset. -/

namespace Sys2Proof.Machine

/-- A defined host write is no bus access: it issues no primitive and takes no answer. -/
theorem hostWriteDefined_bus {o : Nat} (v : Word) (s : State) (ha : hostAccessOk o 32 = true) :
    (hostWriteDefined o v s).trace = s.trace ∧ (hostWriteDefined o v s).answers = s.answers ∧
      (hostWriteDefined o v s).draws = s.draws := by
  rcases hostWriteDefined_cases o v s ha with ⟨-, h⟩ | ⟨-, -, h⟩ | ⟨-, -, h⟩ | ⟨-, -, -, a0, a1, b, h, -⟩ <;>
    rw [h] <;> exact ⟨rfl, rfl, rfl⟩

/-- A defined host write makes the block BUSY only as the acceptance of a command (30_encoding.md R101). -/
theorem hostWriteDefined_starts {o : Nat} {v : Word} {s : State} (ha : hostAccessOk o 32 = true)
    (hs : busy s = false) (ht : busy (hostWriteDefined o v s) = true) :
    o = 0 ∧ hostWriteDefined o v s = accept (v.extractLsb' 0 8) s := by
  rcases hostWriteDefined_cases o v s ha with ⟨hb, -⟩ | ⟨-, ho, h⟩ | ⟨-, -, h⟩ | ⟨-, -, -, a0, a1, b, h, -⟩
  · cases hs.symm.trans hb
  · exact ⟨ho, h⟩
  · rw [h] at ht
    cases hs.symm.trans ht
  · rw [h] at ht
    cases hs.symm.trans ht

/-- The sequencer's turn of a block that is not BUSY changes nothing (70_reset_and_hazards.md R361). -/
theorem sequencerTurn_of_not_busy {s t : State} (hb : busy s = false) (h : sequencerTurn s = .next t) : t = s := by
  obtain ⟨-, -, -, -, -, -, -, -, hidle, -⟩ := sequencerTurn_effects h
  exact hidle hb

/-- The sequencer's turn issues at most one primitive, and only for a running command. -/
theorem sequencerTurn_bus {s t : State} (h : sequencerTurn s = .next t) :
    (t.trace = s.trace ∧ t.answers = s.answers ∧ t.draws = s.draws) ∨
    ∃ p, t.trace = s.trace ++ [(p, replyTo p s)] ∧ t.answers = s.answers.tail ∧ t.draws = s.draws + 1 ∧
      busy s = true := by
  obtain ⟨-, -, -, -, -, -, -, -, -, ⟨htr, han, hdr, -⟩ | ⟨hb, p, htr, han, hdr, -⟩⟩ := sequencerTurn_effects h
  · exact .inl ⟨htr, han, hdr⟩
  · exact .inr ⟨p, htr, han, hdr, hb⟩

/-- For the chip of the spec's tables, the word of every instruction is that of spec/opcode_table.json. -/
theorem encodeIn_defaultChip (i : Instr) : encodeIn defaultChip i = encode i := by
  cases i with
  | hdrRead a | hdrReadBurst a | hdrWrite a | hdrBurstWrite a =>
    simp [encodeIn, encode, headerByte, defaultChip, hdrReadBit, hdrBurstBit]
  | _ => rfl

/-- Settles O16: host accesses and block reset leave the bus alone, and the sequencer's turn issues at most one
primitive. -/
theorem oneStepIssuesAtMostOnePrimitive : Obligations.OneStepIssuesAtMostOnePrimitive := by
  intro s t h
  rcases step_cases h with ⟨o, rest, -, -, rfl⟩ | ⟨o, v, rest, -, ha, rfl⟩ | ⟨rest, -, rfl⟩ | ⟨-, hturn⟩
  · exact .inl ⟨rfl, rfl, rfl⟩
  · exact .inl (hostWriteDefined_bus v { s with inputs := rest } ha)
  · exact .inl ⟨rfl, rfl, rfl⟩
  · exact sequencerTurn_bus (s := afterInput s) hturn

/-- Settles O20: of the kinds of step only a defined host write can leave Ready, and only one to CMD does. -/
theorem onlyTheHostStartsCommands : Obligations.OnlyTheHostStartsCommands := by
  intro s t h hs ht
  rcases step_cases h with ⟨o, rest, -, -, rfl⟩ | ⟨o, v, rest, hin, ha, rfl⟩ | ⟨rest, -, rfl⟩ | ⟨-, hturn⟩
  · cases hs.symm.trans ht
  · obtain ⟨rfl, haccept⟩ := hostWriteDefined_starts (s := { s with inputs := rest }) ha hs ht
    rw [haccept]
    exact ⟨v, rest, hin, rfl, rfl⟩
  · cases ht
  · rw [sequencerTurn_of_not_busy (s := afterInput s) hs hturn] at ht
    cases hs.symm.trans ht

/-- Settles O23: after reset the chip is the default one, whose words are those of the table; the addresses and the
twelve words are read off the tables. -/
theorem specWordsDecode : Obligations.SpecWordsDecode := by
  refine ⟨encodeIn_defaultChip, ?_, ?_⟩
  · rintro c rfl
    decide
  · decide

end Sys2Proof.Machine
end

section
/-! PROOFS. 10_state.md: the invariant (R38 to R40; 40_bus_transactions.md R142, R145). It is taken apart once into the
conditions on an open transaction and on what has been read; then each operation keeps it, and with them every step. -/

namespace Sys2Proof.Machine

/-- What the invariant says of an open transaction, for the chip's addresses and the record of the line. -/
structure TxnInv (m : ChipAddresses) (t : Txn) (c : Cs) : Prop where
  selected : t.stage = .select ∨ c = .selected
  dummy : isRead m.bits t.hdr = true → t.data ≠ []
  second : t.more ≠ 0 → t.hdr = fifoReadHeader m
  more : t.stage = .more → t.more ≠ 0

/-- A transaction at a transfer has the line selected. -/
theorem TxnInv.selected_of_sending {m : ChipAddresses} {t : Txn} {c : Cs} (h : TxnInv m t c)
    (hst : t.stage = .send ∨ t.stage = .more) : c = .selected := by
  refine h.selected.resolve_left fun hsel => ?_
  simp [hsel] at hst

/-- What the invariant says of the bytes last read: none, or at least the status byte and a value byte. -/
def RxInv (pos : Position) : Prop := pos.rx = [] ∨ 2 ≤ pos.rx.length

theorem positionInv_between {pos : Position} (s : State) (ht : pos.txn = none) :
    positionInv pos s = true ↔ RxInv pos ∧ (pos.rx = [] ∨ s.cs = .deselected) := by
  simp [positionInv, RxInv, ht]

theorem positionInv_within {pos : Position} {t : Txn} (s : State) (ht : pos.txn = some t) :
    positionInv pos s = true ↔ RxInv pos ∧ TxnInv s.par.chip t s.cs := by
  simp only [positionInv, ht, Bool.and_eq_true, Bool.or_eq_true, List.isEmpty_iff, decide_eq_true_eq, beq_iff_eq,
    bne_iff_ne, Bool.not_eq_true', List.isEmpty_eq_false_iff]
  constructor
  · rintro ⟨hrx, ⟨⟨hsel, hdummy⟩, hsecond⟩, hmore⟩
    exact ⟨hrx, hsel, fun hr => hdummy.resolve_left (by simp [hr]), hsecond.resolve_left,
      fun hs => hmore.resolve_left (· hs)⟩
  · rintro ⟨hrx, hsel, hdummy, hsecond, hmore⟩
    refine ⟨hrx, ⟨⟨hsel, ?_⟩, or_iff_not_imp_left.mpr hsecond⟩,
      or_iff_not_imp_left.mpr fun hs => hmore (not_not.mp hs)⟩
    cases hr : isRead s.par.chip.bits t.hdr with
    | false => exact .inl rfl
    | true => exact .inr (hdummy hr)

theorem invariant_iff_of_running {s : State} {pos : Position} (hp : s.phase = .running pos) :
    Invariant s = true ↔ (memWf s.buf = true ∧ memWf s.frame = true) ∧ positionInv pos s = true := by
  simp [Invariant, hp]

theorem invariant_iff_of_ready {s : State} (hp : s.phase = .ready) :
    Invariant s = true ↔ memWf s.buf = true ∧ memWf s.frame = true := by
  simp [Invariant, hp]

theorem memWf_of_invariant {s : State} (h : Invariant s = true) : memWf s.buf = true ∧ memWf s.frame = true := by
  simp only [Invariant, Bool.and_eq_true] at h
  exact h.1

/-- A read row's first transfer sends its header and at least one byte more, where the frame has one. -/
theorem two_le_rowBytes_length {m : ChipAddresses} {i : Instr} {t : Txn} (hread : rowDuplex i = true)
    (hdata : t.data ≠ []) : 2 ≤ (rowBytes m i t).length := by
  have hlen : 0 < t.data.length := List.length_pos_iff.mpr hdata
  simp only [rowDuplex, Bool.and_eq_true, Bool.not_eq_true'] at hread
  unfold rowBytes
  rw [if_neg (by simp [hread])]
  split
  · simp only [List.length_cons]
    omega
  · simp

/-- A successful primitive moves the position of an open transaction to one of which the invariant holds. -/
theorem positionInv_stagePos {pos : Position} {t : Txn} {s u : State} {i : Instr} (ht : pos.txn = some t)
    (h : positionInv pos s = true) (hi : rowDuplex i = isRead s.par.chip.bits t.hdr)
    (hok : (answerAt s 0).failure = none) (hcs : u.cs = stageCs t s.cs) (hpar : u.par = s.par) :
    positionInv (stagePos (rowDuplex i) (rowMore i t) pos t
      (replyTo (stagePrim (rowDuplex i) (rowBytes s.par.chip i t) (rowMore i t) t) s)) u = true := by
  obtain ⟨hrx, htxn⟩ := (positionInv_within s ht).mp h
  have hdummy := htxn.dummy
  have hsecond := htxn.second
  cases hst : t.stage with
  | select =>
    simp only [stageCs, hst] at hcs
    simp only [stagePos, hst]
    exact (positionInv_within u rfl).mpr ⟨hrx, .inr hcs, hpar ▸ hdummy, hpar ▸ hsecond, nofun⟩
  | send =>
    simp only [stageCs, hst] at hcs
    have hsel : u.cs = .selected := hcs.trans (htxn.selected_of_sending (.inl hst))
    cases hread : rowDuplex i with
    | false =>
      simp only [stagePos, hst, Bool.false_eq_true, if_false]
      exact (positionInv_within u rfl).mpr ⟨hrx, .inr hsel, hpar ▸ hdummy, hpar ▸ hsecond, nofun⟩
    | true =>
      have hlen : 2 ≤ (rowBytes s.par.chip i t).length := two_le_rowBytes_length hread (hdummy (hi ▸ hread))
      simp only [stagePos, stagePrim, hst, if_true, replyTo_xfer hok, replyBytes]
      refine (positionInv_within u rfl).mpr ⟨.inr (by simpa using hlen), .inr hsel, hpar ▸ hdummy, hpar ▸ hsecond, ?_⟩
      intro hstage hzero
      simp [rowMore, show t.more = 0 from hzero] at hstage
  | more =>
    simp only [stageCs, hst] at hcs
    have hsel : u.cs = .selected := hcs.trans (htxn.selected_of_sending (.inr hst))
    simp only [stagePos, hst]
    exact (positionInv_within u rfl).mpr ⟨hrx, .inr hsel, hpar ▸ hdummy, hpar ▸ hsecond, nofun⟩
  | deselect =>
    simp only [stageCs, hst] at hcs
    simp only [stagePos, hst]
    exact (positionInv_between u rfl).mpr ⟨hrx, .inr hcs⟩

/-- The next primitive of an open transaction keeps the invariant. -/
theorem invariant_framePrimitive {pos : Position} {t : Txn} {s : State} {i : Instr} (hp : s.phase = .running pos)
    (ht : pos.txn = some t) (hi : rowDuplex i = isRead s.par.chip.bits t.hdr) (h : Invariant s = true) :
    Invariant (framePrimitive (rowDuplex i) (rowBytes s.par.chip i t) (rowMore i t) pos t s) = true := by
  obtain ⟨hmem, hpos⟩ := (invariant_iff_of_running hp).mp h
  rcases framePrimitive_cases (rowDuplex i) (rowBytes s.par.chip i t) (rowMore i t) pos t s with
    ⟨e, -, h'⟩ | ⟨hok, h'⟩ <;> rw [h']
  · exact (invariant_iff_of_ready (failPrim_phase _ _ _)).mpr (by simpa using hmem)
  · exact (invariant_iff_of_running (setPos_phase _ _)).mpr ⟨hmem, positionInv_stagePos ht hpos hi hok rfl rfl⟩

/-- A subroutine call made between transactions keeps the invariant. -/
theorem invariant_callStep {pos : Position} {s : State} {rest : List Call} (c : Call) (hp : s.phase = .running pos)
    (ht : pos.txn = none) (h : Invariant s = true) : Invariant (callStep c { pos with calls := rest } s) = true := by
  obtain ⟨hmem, hpos⟩ := (invariant_iff_of_running hp).mp h
  obtain ⟨hrx, hdes⟩ := (positionInv_between s ht).mp hpos
  rcases callStep_cases c { pos with calls := rest } s with
    ⟨pos', n, h', hrx', -, htxn⟩ | ⟨-, h'⟩ | ⟨-, -, ⟨e, -, h'⟩ | ⟨-, pos', h', hrx', htxn, -⟩⟩ <;> rw [h']
  · refine (invariant_iff_of_running (setPos_phase _ _)).mpr ⟨hmem, ?_⟩
    have hrxInv : RxInv pos' := by unfold RxInv; rw [hrx']; exact hrx
    rcases htxn with htxn | ⟨t, htxn, hsel, hdummy, hsecond⟩
    · exact (positionInv_between _ (htxn.trans ht)).mpr ⟨hrxInv, by rw [hrx']; exact hdes⟩
    · exact (positionInv_within _ htxn).mpr ⟨hrxInv, .inl hsel, hdummy, hsecond, by simp [hsel]⟩
  · exact (invariant_iff_of_ready (raise_phase _ _)).mpr (by simpa using hmem)
  · exact (invariant_iff_of_ready (failPrim_phase _ _ _)).mpr (by simpa using hmem)
  · refine (invariant_iff_of_running (setPos_phase _ _)).mpr ⟨hmem, (positionInv_between _ (htxn.trans ht)).mpr ?_⟩
    rw [RxInv, hrx']
    exact ⟨hrx, hdes⟩

/-- A block of a command's pseudocode keeps the invariant. -/
theorem invariant_commandBody {i : Instr} {pos : Position} {s : State} (hi : i.isCommand = true)
    (hp : s.phase = .running pos) (ht : pos.txn = none) (h : Invariant s = true) :
    Invariant (commandBody i pos s) = true := by
  obtain ⟨⟨hbuf, hframe⟩, hpos⟩ := (invariant_iff_of_running hp).mp h
  obtain ⟨hrx, hdes⟩ := (positionInv_between s ht).mp hpos
  obtain ⟨u, hbody, hw⟩ := commandBody_cases i hi pos s
  have hmem := memWf_blockWrites hw hbuf hframe
  obtain ⟨r0, r1, r2, buf, frame, d, rfl⟩ := hw.same
  rcases hbody with ⟨pos', h', hrx', htxn⟩ | ⟨r, h', -⟩ <;> rw [h']
  · refine (invariant_iff_of_running (setPos_phase _ _)).mpr ⟨hmem, (positionInv_between _ (htxn.trans ht)).mpr ?_⟩
    rw [RxInv, hrx']
    exact ⟨hrx, hdes⟩
  · exact (invariant_iff_of_ready (raise_phase _ _)).mpr (by simpa using hmem)

/-- The sequencer's turn keeps the invariant. -/
theorem invariant_sequencerTurn {s t : State} (h : Invariant s = true) (hturn : sequencerTurn s = .next t) :
    Invariant t = true := by
  rcases sequencerTurn_cases s with
    ⟨-, h'⟩ | ⟨pos, hp, ⟨-, -, h'⟩ | ⟨x, i, ht, rfl, h'⟩ | ⟨i, c, rest, ht, -, -, -, h'⟩ | ⟨i, ht, -, hi, -, h'⟩⟩ <;>
    rw [h'] at hturn <;> cases hturn
  · exact h
  · exact (invariant_iff_of_ready (raise_phase _ _)).mpr (by simpa using memWf_of_invariant h)
  · exact invariant_framePrimitive hp ht (decodeHeader_duplex _ _ _) h
  · exact invariant_callStep c hp ht h
  · exact invariant_commandBody hi hp ht h

/-- A defined host write keeps the invariant: acceptance starts with nothing read and no transaction, and BUF takes
whole words. -/
theorem invariant_hostWriteDefined {o : Nat} {s : State} (v : Word) (ha : hostAccessOk o 32 = true)
    (h : Invariant s = true) : Invariant (hostWriteDefined o v s) = true := by
  obtain ⟨hbuf, hframe⟩ := memWf_of_invariant h
  rcases hostWriteDefined_cases o v s ha with ⟨-, h'⟩ | ⟨-, -, h'⟩ | ⟨-, -, h'⟩ | ⟨hidle, -, -, a0, a1, b, h', hb⟩ <;>
    rw [h']
  · exact h
  · exact (invariant_iff_of_running (accept_phase _ _)).mpr
      ⟨⟨hbuf, hframe⟩, (positionInv_between _ rfl).mpr ⟨.inl rfl, .inl rfl⟩⟩
  · exact h
  · have hready : s.phase = .ready := by simpa [busy] using hidle
    refine (invariant_iff_of_ready (s := { s with arg0 := a0, arg1 := a1, buf := b }) hready).mpr ⟨?_, hframe⟩
    rcases hb with rfl | ⟨k, rfl⟩
    · exact hbuf
    · exact memWf_bufWithWord _ _ _ hbuf

/-- Settles O14: a Ready block with empty memories. -/
theorem invariantHoldsAtReset : Obligations.InvariantHoldsAtReset :=
  (invariant_iff_of_ready rfl).mpr memWf_reset

/-- Settles O15: each kind of step keeps the invariant. -/
theorem everyStepKeepsInvariant : Obligations.EveryStepKeepsInvariant := by
  intro s t hinv h
  rcases step_cases h with ⟨o, rest, -, -, rfl⟩ | ⟨o, v, rest, -, ha, rfl⟩ | ⟨rest, -, rfl⟩ | ⟨-, hturn⟩
  · exact hinv
  · exact invariant_hostWriteDefined (s := { s with inputs := rest }) v ha hinv
  · exact (invariant_iff_of_ready rfl).mpr ⟨rfl, rfl⟩
  · exact invariant_sequencerTurn (s := afterInput s) hinv hturn

end Sys2Proof.Machine
end

section
/-! PROOFS. 10_state.md: the host registers. What a defined host write leaves alone is said once; what the sequencer's
turn leaves alone is `sequencerTurn_effects`. -/

namespace Sys2Proof.Machine

/-- No primitive is issued by a step that leaves the trace alone. -/
theorem trace_ne_append {s t : State} (h : t.trace = s.trace) (p : Prim) (r : Reply) :
    t.trace ≠ s.trace ++ [(p, r)] := by
  simp [h]

/-- A defined host write leaves RESULT, ERRINFO and the parameters alone. -/
theorem hostWriteDefined_frame {o : Nat} (v : Word) (s : State) (ha : hostAccessOk o 32 = true) :
    (hostWriteDefined o v s).result = s.result ∧ (hostWriteDefined o v s).errinfo = s.errinfo ∧
      (hostWriteDefined o v s).par = s.par := by
  rcases hostWriteDefined_cases o v s ha with ⟨-, h⟩ | ⟨-, -, h⟩ | ⟨-, -, h⟩ | ⟨-, -, -, a0, a1, b, h, -⟩ <;>
    rw [h] <;> exact ⟨rfl, rfl, rfl⟩

/-- While BUSY a host write sets DROP and does nothing else (10_state.md R37). -/
theorem hostWriteDefined_of_busy {s : State} (hb : busy s = true) (o : Nat) (v : Word) :
    hostWriteDefined o v s = { s with drop := true } := by
  simp [hostWriteDefined, hb]

/-- A defined host write is an acceptance, or leaves BUSY and DONE alone. -/
theorem hostWriteDefined_busy_done {o : Nat} (v : Word) (s : State) (ha : hostAccessOk o 32 = true) :
    (busy (hostWriteDefined o v s) = busy s ∧ (hostWriteDefined o v s).done = s.done) ∨
    (busy s = false ∧ busy (hostWriteDefined o v s) = true ∧ (hostWriteDefined o v s).done = false) := by
  rcases hostWriteDefined_cases o v s ha with ⟨-, h⟩ | ⟨hb, -, h⟩ | ⟨-, -, h⟩ | ⟨-, -, -, a0, a1, b, h, -⟩ <;> rw [h]
  · exact .inl ⟨rfl, rfl⟩
  · exact .inr ⟨hb, rfl, rfl⟩
  · exact .inl ⟨rfl, rfl⟩
  · exact .inl ⟨rfl, rfl⟩

/-- A defined host write clears FAULT_SEEN or DROP only as a write to STATUS, while not BUSY, with a 1 in the flag's
bit (10_state.md R34). -/
theorem hostWriteDefined_sticky {o : Nat} (v : Word) (s : State) (ha : hostAccessOk o 32 = true) :
    (s.faultSeen = true → (hostWriteDefined o v s).faultSeen = false →
      o = 0x18 ∧ v.getLsbD 8 = true ∧ busy s = false) ∧
    (s.drop = true → (hostWriteDefined o v s).drop = false → o = 0x18 ∧ v.getLsbD 9 = true ∧ busy s = false) := by
  rcases hostWriteDefined_cases o v s ha with ⟨-, h⟩ | ⟨-, -, h⟩ | ⟨hb, rfl, h⟩ | ⟨-, -, -, a0, a1, b, h, -⟩ <;> rw [h]
  · simp +contextual
  · simp +contextual
  · simp +contextual [statusWrite, hb]
  · simp +contextual

/-- Which field of STATUS each bit shows (10_state.md R34). -/
theorem statusWord_getLsbD (s : State) (i : Nat) : (statusWord s).getLsbD i =
    if i < 1 then busy s else if i < 2 then s.done else if i < 4 then false
    else if i < 8 then (resultCode s.result).getLsbD (i - 4) else if i < 9 then s.faultSeen
    else if i < 10 then s.drop else (csCode s.cs).getLsbD (i - 10) := by
  simp only [statusWord, BitVec.getLsbD_append, BitVec.getLsbD_zero, BitVec.getLsbD_ofBool]
  grind

theorem statusWord_result (s : State) : (statusWord s).extractLsb' 4 4 = resultCode s.result := by
  ext i hi
  simp only [BitVec.getElem_extractLsb', statusWord_getLsbD]
  grind

theorem statusWord_cs (s : State) : (statusWord s).extractLsb' 10 2 = csCode s.cs := by
  ext i hi
  simp only [BitVec.getElem_extractLsb', statusWord_getLsbD]
  grind

/-- The reserved bits of STATUS read as 0. -/
theorem statusWord_reserved (s : State) :
    (statusWord s).extractLsb' 2 2 = 0#2 ∧ (statusWord s).extractLsb' 12 20 = 0#20 := by
  constructor <;> ext i hi <;> simp only [BitVec.getElem_extractLsb', statusWord_getLsbD] <;> grind

/-- Settles O10: the sequencer's turn keeps both flags, so only block reset and the write to STATUS are left. -/
theorem stickyFlagsStaySet : Obligations.StickyFlagsStaySet := by
  intro s t h
  rcases step_cases h with ⟨o, rest, -, -, rfl⟩ | ⟨o, v, rest, hin, ha, rfl⟩ | ⟨rest, hin, -⟩ | ⟨-, hturn⟩
  · exact ⟨fun hs ht => absurd ht (by simp [hs]), fun hs ht => absurd ht (by simp [hs])⟩
  · obtain ⟨hfault, hdrop⟩ := hostWriteDefined_sticky v { s with inputs := rest } ha
    constructor
    · intro hs ht
      obtain ⟨rfl, hbit, hb⟩ := hfault hs ht
      exact .inr ⟨v, rest, hin, hbit, hb⟩
    · intro hs ht
      obtain ⟨rfl, hbit, hb⟩ := hdrop hs ht
      exact .inr ⟨v, rest, hin, hbit, hb⟩
  · exact ⟨fun _ _ => .inl ⟨rest, hin⟩, fun _ _ => .inl ⟨rest, hin⟩⟩
  · obtain ⟨-, -, -, -, hdrop, -, -, hfault, -⟩ := sequencerTurn_effects hturn
    exact ⟨fun hs ht => absurd (hfault hs) (by simp [ht]), fun hs ht => absurd (hdrop.trans hs) (by simp [ht])⟩

/-- Settles O17: only the sequencer's turn issues primitives, and it writes ERRINFO exactly where one fails. -/
theorem errinfoIsWrittenByFaultsOnly : Obligations.ErrinfoIsWrittenByFaultsOnly := by
  refine ⟨?_, fun _ => rfl, rfl⟩
  intro s t h hreset
  rcases step_cases h with ⟨o, rest, -, -, rfl⟩ | ⟨o, v, rest, -, ha, rfl⟩ | ⟨rest, hin, -⟩ | ⟨-, hturn⟩
  · exact .inr ⟨rfl, fun p e => trace_ne_append rfl p _⟩
  · obtain ⟨htrace, -⟩ := hostWriteDefined_bus v { s with inputs := rest } ha
    obtain ⟨-, herr, -⟩ := hostWriteDefined_frame v { s with inputs := rest } ha
    exact .inr ⟨herr, fun p e => trace_ne_append htrace p _⟩
  · exact absurd hin (hreset rest)
  · obtain ⟨-, -, -, -, -, -, -, -, -, hbus⟩ := sequencerTurn_effects hturn
    rcases hbus with ⟨htrace, -, -, herr, -⟩ |
      ⟨-, p, htrace, -, -, ⟨e, hr, herr, hfault, hdone, hphase, hres⟩ | ⟨hok, herr, -⟩⟩
    · exact .inr ⟨herr, fun p e => trace_ne_append htrace p _⟩
    · exact .inl ⟨p, e, by rw [htrace, hr]; rfl, herr, hfault, hdone, hphase, by rw [hres]; cases p <;> rfl⟩
    · refine .inr ⟨herr, fun q e hq => hok e ?_⟩
      have hlast := List.append_cancel_left (htrace.symm.trans hq)
      simpa using congrArg (List.map Prod.snd) hlast

/-- Settles O18: a host write accepts or leaves BUSY and DONE alone, and the sequencer's turn changes RESULT and DONE
only as it ends the command. -/
theorem resultIsWrittenAtCompletionOnly : Obligations.ResultIsWrittenAtCompletionOnly := by
  intro s t h hreset
  have ready : ∀ {u : State}, u.phase = .ready → busy u = false := fun hu => by simp [busy, hu]
  rcases step_cases h with ⟨o, rest, -, -, rfl⟩ | ⟨o, v, rest, -, ha, rfl⟩ | ⟨rest, hin, -⟩ | ⟨-, hturn⟩
  · exact .inr (.inl ⟨rfl, rfl, rfl⟩)
  · obtain ⟨hres, -⟩ := hostWriteDefined_frame v { s with inputs := rest } ha
    rcases hostWriteDefined_busy_done v { s with inputs := rest } ha with ⟨hb, hd⟩ | ⟨hs, hb, hd⟩
    · exact .inr (.inl ⟨hb, hres, hd⟩)
    · exact .inr (.inr ⟨hs, hb, hres, hd⟩)
  · exact absurd hin (hreset rest)
  · obtain ⟨-, -, -, -, -, -, -, -, -, hbus⟩ := sequencerTurn_effects hturn
    rcases hbus with ⟨-, -, -, -, -, ⟨hres, hd, hb⟩ | ⟨hs, hphase, hd⟩⟩ |
      ⟨hs, p, -, -, -, ⟨e, -, -, -, hd, hphase, -⟩ | ⟨-, -, -, hres, hd, hb⟩⟩
    · exact .inr (.inl ⟨hb, hres, hd⟩)
    · exact .inl ⟨hs, ready hphase, hd⟩
    · exact .inl ⟨hs, ready hphase, hd⟩
    · exact .inr (.inl ⟨hb.trans hs.symm, hres, hd⟩)

/-- Settles O19: while BUSY a host write sets DROP alone, and the sequencer's turn writes no operand. -/
theorem operandsDoNotChangeWhileBusy : Obligations.OperandsDoNotChangeWhileBusy := by
  intro s t h
  rcases step_cases h with ⟨o, rest, -, -, rfl⟩ | ⟨o, v, rest, -, ha, rfl⟩ | ⟨rest, hin, rfl⟩ | ⟨-, hturn⟩
  · exact ⟨rfl, fun _ _ => ⟨rfl, rfl, rfl⟩⟩
  · obtain ⟨-, -, hpar⟩ := hostWriteDefined_frame v { s with inputs := rest } ha
    refine ⟨hpar, fun hb _ => ?_⟩
    rw [hostWriteDefined_of_busy (s := { s with inputs := rest }) hb]
    exact ⟨rfl, rfl, rfl⟩
  · exact ⟨rfl, fun _ hreset => absurd hin (hreset rest)⟩
  · obtain ⟨hcmd, harg0, harg1, hpar, -⟩ := sequencerTurn_effects hturn
    exact ⟨hpar, fun _ _ => ⟨hcmd, harg0, harg1⟩⟩

/-- Settles O1: the step takes the input and runs `blockReset`, which leaves the line inactive. -/
theorem blockResetClearsTheBlock : Obligations.BlockResetClearsTheBlock := by
  refine ⟨fun s rest hin => ⟨?_, rfl⟩, rfl⟩
  simp only [step, advance, hin]
  rfl

/-- Settles O4: a write while BUSY is dropped, and a read does not look at BUSY. -/
theorem busyBlockDropsHostWrites : Obligations.BusyBlockDropsHostWrites := by
  intro s o v rest hb ha
  constructor <;> intro hin
  · simp [step, advance, hin, hostWrite, ha, hostWriteDefined_of_busy (s := { s with inputs := rest }) hb]
  · simp only [step, advance, hin, hostRead, ha, if_true]
    rfl

/-- Settles O8: the fields stand where the word puts them, and no result has a code above 7 and no record the
code 3. -/
theorem statusWordShowsItsFields : Obligations.StatusWordShowsItsFields := by
  intro s
  have hcode : (resultCode s.result).toNat < 8 := by cases s.result <;> decide
  have hline : csCode s.cs ≠ 3#2 := by cases s.cs <;> decide
  obtain ⟨h2, h12⟩ := statusWord_reserved s
  rw [statusWord_result, statusWord_cs]
  refine ⟨statusWord_getLsbD s 0, statusWord_getLsbD s 1, h2, ?_, statusWord_getLsbD s 8, statusWord_getLsbD s 9, ?_,
    h12, hcode, hline⟩
  · cases s.result <;> rfl
  · cases s.cs <;> rfl

end Sys2Proof.Machine
end

section
/-! PROOFS. 10_state.md: the wire rows and the commands (R33, R35, R38 to R41; 40_bus_transactions.md R148, R149). The
step of each is inverted once, to the frame primitive, subroutine call or block it makes. -/

namespace Sys2Proof.Machine

/-! Wire rows. -/

/-- A wire row's meaning is a step of the open transaction, whatever the position. -/
theorem exec_eq_wireStep {i : Instr} (hi : i.isCommand = false) (s : State) :
    exec i s = wireStep (rowDuplex i) (rowBytes s.par.chip i) (rowMore i) s := by
  cases i <;> first
    | contradiction
    | rfl

/-- A wire row that goes on issues the next primitive of the open transaction. -/
theorem exec_wire_next {i : Instr} {s t : State} (hi : i.isCommand = false) (h : exec i s = .next t) :
    ∃ pos x, s.phase = .running pos ∧ pos.txn = some x ∧
      t = framePrimitive (rowDuplex i) (rowBytes s.par.chip i x) (rowMore i x) pos x s := by
  simp only [exec_eq_wireStep hi, wireStep] at h
  split at h
  · cases h
  · rename_i pos hp
    split at h
    · cases h
    · rename_i x hx
      cases h
      exact ⟨pos, x, hp, hx, rfl⟩

/-- The primitive a row issues, as the claims name it. -/
theorem stagePrim_row (m : ChipAddresses) (i : Instr) (t : Txn) :
    stagePrim (rowDuplex i) (rowBytes m i t) (rowMore i t) t = wirePrim m i t := by
  cases hst : t.stage with
  | select => simp [stagePrim, wirePrim, hst]
  | deselect => simp [stagePrim, wirePrim, hst]
  | more => simp [stagePrim, wirePrim, hst, rowMore, dummyByte]
  | send =>
    simp only [stagePrim, wirePrim, hst, rowDuplex, rowBytes]
    by_cases hs : i.isStrobe = true
    · simp [hs]
    · by_cases hw : i.isWireWrite = true
      · simp [hs, hw]
      · by_cases hf : i = .fifoBurstRead
        · subst hf
          rfl
        · simp [hs, hw, hf, dummyByte]

/-- A row's primitive is one of the chip-select line where its transaction opens or closes, else a transfer. -/
theorem wirePrim_fault (m : ChipAddresses) (i : Instr) (t : Txn) (c : Cs) :
    primFault (wirePrim m i t) =
      (if t.stage = .select ∨ t.stage = .deselect then .lineFault else .transportFault) ∧
    csAfterFailure (wirePrim m i t) c = if t.stage = .select ∨ t.stage = .deselect then .unknown else c := by
  cases hst : t.stage with
  | select => simp [wirePrim, hst, primFault, csAfterFailure]
  | deselect => simp [wirePrim, hst, primFault, csAfterFailure]
  | more => simp [wirePrim, hst, primFault, csAfterFailure]
  | send =>
    simp only [wirePrim, hst, reduceCtorEq, or_self, if_false]
    split_ifs <;> exact ⟨rfl, rfl⟩

/-- The state after a primitive is issued, by the reply the environment gives. -/
theorem issued_eq_answered {p : Prim} {s : State} {r : Reply} (h : replyTo p s = r) : issued p s = answered p r s := by
  simp [issued, answered, h]

/-- A failed primitive ends the command with its fault and payload, all in one step (60_exceptions.md R334 to R336). -/
theorem failPrim_issued {p : Prim} {s : State} {e : Nat} (h : (answerAt s 0).failure = some e) :
    failPrim p e (issued p s) = { answered p (.fail e) s with
      errinfo := BitVec.ofNat 32 e, faultSeen := true, done := true, phase := .ready, result := primFault p,
      cs := csAfterFailure p s.cs } := by
  rw [issued_eq_answered (replyTo_fail h)]
  cases p <;> rfl

/-- Settles O35: a wire row is the frame primitive of its transaction, and CsSelect and CsDeselect set the record. -/
theorem wireRowsSelectAndDeselect : Obligations.WireRowsSelectAndDeselect := by
  rintro i t pos s hi ⟨hp, ht⟩ hbus
  have hok : (answerAt s 0).failure = none := hbus 0 Nat.one_pos
  constructor
  · intro hst
    rw [exec_wire hi hp ht, framePrimitive, hst]
    simp only [primitive_ok _ hok, issued_eq_answered (replyTo_csSelect hok)]
    rfl
  · intro hst
    rw [exec_wire hi hp ht, framePrimitive, hst]
    simp only [primitive_ok _ hok, issued_eq_answered (replyTo_csDeselect hok)]
    rfl

/-- Settles O40: both outcomes of a frame's primitive leave the host's registers and the memories alone, and only the
failed one sets flags. -/
theorem wireRowsFrame : Obligations.WireRowsFrame := by
  intro i s t hi h
  obtain ⟨pos, x, -, -, rfl⟩ := exec_wire_next hi h
  rcases framePrimitive_cases (rowDuplex i) (rowBytes s.par.chip i x) (rowMore i x) pos x s with
    ⟨e, hfail, h'⟩ | ⟨-, h'⟩ <;> rw [h']
  · simp [hfail]
  · simp

/-- Settles O39: the invariant gives the record of the line, and a failure of a row's primitive or of a line read is
`failPrim`. -/
theorem failedPrimitiveEndsCommand : Obligations.FailedPrimitiveEndsCommand := by
  refine ⟨⟨rfl, rfl⟩, ?_, ?_, ?_, ?_⟩
  · rintro t pos s ⟨hp, ht⟩ hinv hst
    obtain ⟨-, hpos⟩ := (invariant_iff_of_running hp).mp hinv
    obtain ⟨-, htxn⟩ := (positionInv_within s ht).mp hpos
    exact htxn.selected_of_sending hst
  · rintro level rest pos s ⟨hp, ht, -⟩ hinv hrx
    obtain ⟨-, hpos⟩ := (invariant_iff_of_running hp).mp hinv
    obtain ⟨-, hdes⟩ := (positionInv_between s ht).mp hpos
    exact hdes.resolve_left hrx
  · rintro i t pos s e hi ⟨hp, ht⟩ hfail
    obtain ⟨hfault, hcs⟩ := wirePrim_fault s.par.chip i t s.cs
    rw [exec_wire hi hp ht]
    rcases framePrimitive_cases (rowDuplex i) (rowBytes s.par.chip i t) (rowMore i t) pos t s with
      ⟨e', hfail', h'⟩ | ⟨hok, -⟩
    · cases hfail.symm.trans hfail'
      rw [h', failPrim_issued hfail, stagePrim_row, hfault, hcs]
    · cases hfail.symm.trans hok
  · rintro i level rest pos s e hi ⟨hp, ht, hc⟩ hfail
    rw [exec_call hi hp ht hc, callStep, primitive_fail _ hfail, failPrim_issued hfail]
    rfl

/-! Commands. -/

/-- A command that goes on stands between transactions, and makes its next call or runs its next block. -/
theorem exec_command_next {i : Instr} {s t : State} (hi : i.isCommand = true) (h : exec i s = .next t) :
    ∃ pos, s.phase = .running pos ∧ pos.txn = none ∧
      ((∃ c rest, pos.calls = c :: rest ∧ t = callStep c { pos with calls := rest } s) ∨
        t = commandBody i pos s) := by
  simp only [exec_command hi, sequencer] at h
  split at h
  · cases h
  · rename_i pos hp
    split at h
    · cases h
    · rename_i ht
      split at h
      · rename_i c rest hc
        cases h
        exact ⟨pos, hp, ht, .inl ⟨c, rest, hc, rfl⟩⟩
      · cases h
        exact ⟨pos, hp, ht, .inr rfl⟩

/-- A block writes BUF only in the commands that read packets, and only the first n bytes (10_state.md R38). -/
theorem BlockWrites.memRead_buf {i : Instr} {s u : State} (hw : BlockWrites i s u) (a : Nat)
    (ha : i ∉ [Instr.rdfifo, .receive] ∨ (s.arg0.extractLsb' 0 7).toNat ≤ a) : memRead u.buf a = memRead s.buf a := by
  rcases hw.buf with h | ⟨hi, bs, h, hlen⟩ <;> rw [h]
  have hle : argReadLen s ≤ a := ha.resolve_left (by simp [hi])
  exact memRead_memWriteList_outside _ _ _ _ (.inr (by omega))

/-- A block writes FRAME only in TRANSMIT, and only the length and the payload (10_state.md R39). -/
theorem BlockWrites.memRead_frame {i : Instr} {s u : State} (hw : BlockWrites i s u) (a : Nat)
    (ha : i ≠ .transmit ∨ (s.arg0.extractLsb' 0 8).toNat < a) : memRead u.frame a = memRead s.frame a := by
  rcases hw.frame with h | ⟨hi, bs, h, hlen⟩ <;> rw [h]
  have hlt : argTxLen s < a := ha.resolve_left (by simp [hi])
  exact memRead_memWriteList_outside _ _ _ _ (.inr (by omega))

/-- Settles O47: a subroutine call writes no register and no memory, a block writes what `BlockWrites` says, and only a
line wait issues a primitive. -/
theorem commandsFrame : Obligations.CommandsFrame := by
  intro i s t hi h
  obtain ⟨pos, hp, ht, ⟨c, rest, hc, rfl⟩ | rfl⟩ := exec_command_next hi h
  · rcases callStep_cases c { pos with calls := rest } s with
      ⟨pos', n, h', -⟩ | ⟨-, h'⟩ | ⟨level, rfl, ⟨e, -, h'⟩ | ⟨-, pos', h', -⟩⟩ <;> rw [h']
    · simp
    · simp [resultIsFault]
    · exact ⟨rfl, rfl, rfl, rfl, rfl, rfl, rfl, rfl, fun _ => rfl, fun _ => rfl, fun _ => rfl, fun _ _ => rfl,
        fun _ _ => rfl, fun hno => absurd ⟨hp, ht, hc⟩ (hno pos level rest)⟩
    · exact ⟨rfl, rfl, rfl, rfl, rfl, rfl, rfl, rfl, fun _ => rfl, fun _ => rfl, fun _ => rfl, fun _ _ => rfl,
        fun _ _ => rfl, fun hno => absurd ⟨hp, ht, hc⟩ (hno pos level rest)⟩
  · obtain ⟨u, hbody, hw⟩ := commandBody_cases i hi pos s
    have hbuf := hw.memRead_buf
    have hframe := hw.memRead_frame
    obtain ⟨r0, r1, r2, b, f, d, rfl⟩ := hw.same
    rcases hbody with ⟨pos', h', -⟩ | ⟨r, h', hr⟩
    · rw [h']
      exact ⟨rfl, rfl, rfl, rfl, rfl, rfl, rfl, rfl, hw.res0, hw.res1, hw.res2, hbuf, hframe,
        fun _ => ⟨rfl, rfl, rfl, rfl, rfl⟩⟩
    · rw [h', raise_eq_ended hr]
      exact ⟨rfl, rfl, rfl, rfl, rfl, rfl, rfl, rfl, hw.res0, hw.res1, hw.res2, hbuf, hframe,
        fun _ => ⟨rfl, rfl, rfl, rfl, rfl⟩⟩

end Sys2Proof.Machine
end

section
/-! PROOFS. 20_memory.md: the host port (R70 to R72). A step at a host access is reduced once to the word it reads or to
the write it makes; the words and writes are then taken offset by offset, and the words of BUF byte by byte. -/

namespace Sys2Proof.Machine

/-! A step at a host access. -/

theorem step_hostRead {s : State} {o : Nat} {rest : List Input} (ha : hostAccessOk o 32 = true)
    (hin : s.inputs = .hostRead o 32 :: rest) :
    step s = .next { s with inputs := rest, hostReads := s.hostReads ++ [hostWord s o], memDraws := s.memDraws + 1 } := by
  simp only [step, advance, hin, hostRead, ha, if_true]
  rfl

theorem step_hostWrite_of_ready {s : State} {o : Nat} {v : Word} {rest : List Input} (hb : busy s = false)
    (ha : hostAccessOk o 32 = true) (hin : s.inputs = .hostWrite o 32 v :: rest) :
    step s = .next (hostWriteReady o v { s with inputs := rest }) := by
  have hb' : busy { s with inputs := rest } = false := hb
  simp [step, advance, hin, hostWrite, ha, hostWriteDefined, hb']

theorem step_hostRead_refused {s : State} {o width : Nat} {rest : List Input} (ha : hostAccessOk o width = false)
    (hin : s.inputs = .hostRead o width :: rest) : step s = .refused (.undefinedHostAccess o width) := by
  simp [step, advance, hin, hostRead, ha]

theorem step_hostWrite_refused {s : State} {o width : Nat} {v : Word} {rest : List Input}
    (ha : hostAccessOk o width = false) (hin : s.inputs = .hostWrite o width v :: rest) :
    step s = .refused (.undefinedHostAccess o width) := by
  simp [step, advance, hin, hostWrite, ha]

/-- The accesses the block does not define (R71). -/
theorem hostAccessOk_eq_false {o width : Nat} :
    hostAccessOk o width = false ↔ 0x7F < o ∨ o % 4 ≠ 0 ∨ width ≠ 32 := by
  rw [← Bool.not_eq_true]
  simp only [hostAccessOk, Bool.and_eq_true, beq_iff_eq, decide_eq_true_eq]
  omega

theorem hostAccessOk_bufOffset {k : Nat} (hk : k < 16) : hostAccessOk (0x40 + 4 * k) 32 = true := by
  rw [← Bool.not_eq_false, hostAccessOk_eq_false]
  omega

/-- A defined offset from 0x40 on is that of a BUF word. -/
theorem exists_bufOffset {o : Nat} (ha : hostAccessOk o 32 = true) (ho : 0x40 ≤ o) : ∃ k, o = 0x40 + 4 * k := by
  rw [← Bool.not_eq_false, hostAccessOk_eq_false] at ha
  exact ⟨(o - 0x40) / 4, by omega⟩

/-! Offset by offset. -/

theorem hostWord_reserved (s : State) {o : Nat} (hlo : 0x20 ≤ o) (hhi : o ≤ 0x3C) : hostWord s o = 0#32 := by
  obtain ⟨k, hk⟩ : ∃ k, o / 4 = k + 8 := ⟨o / 4 - 8, by omega⟩
  simp only [hostWord, hk]
  exact if_neg (by omega)

theorem bufOffset_div (k : Nat) : (0x40 + 4 * k) / 4 = k + 16 := by omega

@[simp] theorem hostWord_buf (s : State) (k : Nat) : hostWord s (0x40 + 4 * k) = bufWord s k := by
  simp [hostWord, bufOffset_div]

@[simp] theorem hostWriteReady_buf (k : Nat) (v : Word) (s : State) :
    hostWriteReady (0x40 + 4 * k) v s = { s with buf := bufWithWord s.buf k v } := by
  simp [hostWriteReady, bufOffset_div]

/-- ERRINFO and the reserved offsets ignore what is written to them (R71; 10_state.md R35). -/
theorem hostWriteReady_of_errinfo_or_reserved {o : Nat} (v : Word) (s : State) (hlo : 0x1C ≤ o) (hhi : o ≤ 0x3C) :
    hostWriteReady o v s = s := by
  obtain ⟨k, hk⟩ : ∃ k, o / 4 = k + 7 := ⟨o / 4 - 7, by omega⟩
  simp only [hostWriteReady, hk]
  cases k with
  | zero => rfl
  | succ k => exact if_neg (by omega)

/-! The words of BUF, byte by byte. -/

theorem memGet_of_memRead {m : Memory} {a : Nat} {b : Byte} (draw : Nat) (h : memRead m a = some b) :
    memGet m draw a = b := by
  simp [memGet, h]

/-- Byte `j` of host word `k` is what index 4k + j reads as (R72). -/
theorem bufWord_byte (s : State) (k : Nat) {j : Nat} (hj : j < 4) :
    (bufWord s k).extractLsb' (8 * j) 8 = memGet s.buf s.memDraws (4 * k + j) := by
  obtain ⟨h0, h1, h2, h3⟩ := word_bytes (memGet s.buf s.memDraws (4 * k + 3)) (memGet s.buf s.memDraws (4 * k + 2))
    (memGet s.buf s.memDraws (4 * k + 1)) (memGet s.buf s.memDraws (4 * k))
  interval_cases j
  · exact h0
  · exact h1
  · exact h2
  · exact h3

theorem hostWord_buf_byte {s : State} {k j : Nat} {b : Byte} (hj : j < 4) (h : memRead s.buf (4 * k + j) = some b) :
    (hostWord s (0x40 + 4 * k)).extractLsb' (8 * j) 8 = b := by
  rw [hostWord_buf, bufWord_byte s k hj, memGet_of_memRead _ h]

/-- Two words with the same four bytes are the same. -/
theorem word_ext {v w : Word} (h : ∀ j < 4, v.extractLsb' (8 * j) 8 = w.extractLsb' (8 * j) 8) : v = w := by
  rw [← word_of_bytes v, ← word_of_bytes w, h 3 (by omega), h 2 (by omega), h 1 (by omega), h 0 (by omega)]

/-- The four bytes of a written word are in BUF in little-endian order (R72). -/
theorem memRead_bufWithWord (m : Memory) (v : Word) {k j : Nat} (hk : k < 16) (hj : j < 4) :
    memRead (bufWithWord m k v) (4 * k + j) = some (v.extractLsb' (8 * j) 8) := by
  rw [bufWithWord, memRead_memWriteList, Nat.add_sub_cancel_left]
  · interval_cases j <;> simp
  · change 4 * k + 4 ≤ 64
    omega

theorem memRead_bufWithWord_outside (m : Memory) (v : Word) {k a : Nat} (ha : a < 4 * k ∨ 4 * k + 4 ≤ a) :
    memRead (bufWithWord m k v) a = memRead m a :=
  memRead_memWriteList_outside m (4 * k) a _ ha

/-- A word written to BUF reads back as the value written. -/
theorem hostWord_of_bufWithWord {t : State} {m : Memory} {k : Nat} {v : Word} (hk : k < 16)
    (ht : t.buf = bufWithWord m k v) : hostWord t (0x40 + 4 * k) = v :=
  word_ext fun _ hj => hostWord_buf_byte hj (ht ▸ memRead_bufWithWord m v hk hj)

/-! The obligations. -/

/-- Settles O9: the write puts four bytes at 4k, a read takes the same four, and a word is determined by its bytes. -/
theorem bufWordsAreLittleEndian : Obligations.BufWordsAreLittleEndian := by
  intro s k v rest hk hb hin
  refine ⟨bufWithWord s.buf k v, ?_, fun j hj => memRead_bufWithWord s.buf v hk hj,
    fun a ha => memRead_bufWithWord_outside s.buf v ha, fun t ht => hostWord_of_bufWithWord hk ht,
    fun t j b hj h => hostWord_buf_byte hj h⟩
  rw [step_hostWrite_of_ready hb (hostAccessOk_bufOffset hk) hin, hostWriteReady_buf]

/-- Settles O5: the word read is `hostWord`, which is taken offset by offset. -/
theorem hostReadsReturnRegisters : Obligations.HostReadsReturnRegisters := by
  intro s o rest ha hin
  refine ⟨hostWord s o, step_hostRead ha hin, ?_, (· ▸ rfl), (· ▸ rfl), (· ▸ rfl), (· ▸ rfl), (· ▸ rfl), (· ▸ rfl),
    (· ▸ rfl), fun ⟨hlo, hhi⟩ => hostWord_reserved s hlo hhi, ?_⟩
  · rintro rfl
    exact BitVec.setWidth_eq_append (by omega)
  · intro j b ho hj h
    obtain ⟨k, rfl⟩ := exists_bufOffset ha ho
    rw [Nat.add_sub_cancel_left] at h
    exact hostWord_buf_byte hj h

/-- Settles O6: the write is `hostWriteReady`, which is taken offset by offset. -/
theorem hostWritesReachRegisters : Obligations.HostWritesReachRegisters := by
  intro s o v rest hb ha hin
  rw [step_hostWrite_of_ready hb ha hin]
  refine ⟨(· ▸ rfl), (· ▸ rfl), (· ▸ rfl), ?_⟩
  rintro (rfl | rfl | rfl | ⟨hlo, hhi⟩)
  · rfl
  · rfl
  · rfl
  · rw [hostWriteReady_of_errinfo_or_reserved v _ hlo hhi]

/-- Settles O7: `hostAccessOk` is false of such an access, and the step refuses it. -/
theorem undefinedHostAccessIsRefused : Obligations.UndefinedHostAccessIsRefused := by
  intro s o width v rest h
  have ha : hostAccessOk o width = false := hostAccessOk_eq_false.mpr h
  exact ⟨step_hostRead_refused ha, step_hostWrite_refused ha⟩

end Sys2Proof.Machine
end

section
/-! PROOFS. 30_encoding.md: the encodings (R102, R104, R110 to R115). What keeps the headers of one port apart is said
once: a header's read bit, burst bit and base give a well-formed row exactly where no row fixes the whole byte. -/

namespace Sys2Proof.Machine

/-! Opcodes. -/

/-- An opcode is the word of its command, for every chip: no parameter touches it. -/
theorem encodeIn_of_mem_commandTable (m : ChipAddresses) {w : Byte} {i : Instr} (h : (w, i) ∈ commandTable) :
    encodeIn m i = w := by
  revert h
  simp only [commandTable, List.mem_cons, Prod.mk.injEq, List.mem_nil_iff, or_false]
  rintro (h | h | h | h | h | h | h | h | h | h | h | h | h | h | h | h | h | h | h | h | h | h | h) <;>
    obtain ⟨rfl, rfl⟩ := h <;> rfl

/-- CMD decodes to an instruction exactly by a row of the opcode map. -/
theorem decodeCommand_eq_ok {w : Byte} {i : Instr} : decodeCommand w = .ok i ↔ commandTable.lookup w = some i := by
  unfold decodeCommand
  cases commandTable.lookup w <;> simp

theorem decodeCommand_eq_error {w : Byte} : (∃ e, decodeCommand w = .error e) ↔ commandTable.lookup w = none := by
  unfold decodeCommand
  cases commandTable.lookup w <;> simp

theorem encodeIn_decodeCommand (m : ChipAddresses) {w : Byte} {i : Instr} (h : decodeCommand w = .ok i) :
    encodeIn m i = w :=
  encodeIn_of_mem_commandTable m (mem_of_lookup (decodeCommand_eq_ok.mp h))

/-- The opcodes that are not in the map (R104). -/
theorem lookup_commandTable_eq_none : ∀ w : Byte, commandTable.lookup w = none ↔
    w = 0x00#8 ∨ 0x07#8 ≤ w ∧ w ≤ 0x0F#8 ∨ 0x19#8 ≤ w ∧ w ≤ 0x1F#8 ∨ 0x23#8 ≤ w ∧ w ≤ 0x2F#8 ∨
      0x32#8 ≤ w ∧ w ≤ 0x3F#8 ∨ 0x43#8 ≤ w := by
  decide

/-! Headers by their bits alone. -/

/-- Two headers of one base differ in the flags in which they differ (R110, R114). -/
theorem headerByte_xor (l : HeaderBits) (r b r' b' : Bool) (a : Base) :
    headerByte l r b a ^^^ headerByte l r' b' a = headerByte l (r ^^ r') (b ^^ b') 0#6 := by
  revert r b r' b' a
  cases l <;> decide

theorem hdrReadOf_configId_eq_headerByte (l : HeaderBits) (a : Base) :
    hdrReadOf l (configId a) = headerByte l true false a := by
  simp [hdrReadOf_configId, headerByte]

theorem hdrReadOf_statusId_eq_headerByte (l : HeaderBits) (a : Base) :
    hdrReadOf l (statusId a) = headerByte l true true a := by
  simp [hdrReadOf_statusId, headerByte]

/-- The three header properties (R114): read and write, burst and single write, status and configuration read. -/
theorem headers_xor (l : HeaderBits) (b : Base) :
    hdrReadOf l (configId b) ^^^ hdrWriteOf l b = hdrReadBit l ∧
    hdrBurstWriteOf l b ^^^ hdrWriteOf l b = hdrBurstBit l ∧
    hdrReadOf l (statusId b) ^^^ hdrReadOf l (configId b) = hdrBurstBit l := by
  simp only [hdrReadOf_configId_eq_headerByte, hdrReadOf_statusId_eq_headerByte, hdrWriteOf, hdrBurstWriteOf,
    headerByte_xor]
  simp [headerByte]

/-- The bits of a header say which of the four rows with a free base it is, for every chip. -/
theorem decodeForm_encodeIn (m : ChipAddresses) (a : Base) :
    ∀ i ∈ [Instr.hdrRead a, .hdrReadBurst a, .hdrWrite a, .hdrBurstWrite a], decodeForm m (encodeIn m i) = i := by
  simp [encodeIn, decodeForm, isRead_headerByte, isBurst_headerByte, base_headerByte]

/-! Well-formed rows. -/

/-- Only a row with a free base can fail to be well-formed: a command, a strobe and a status read are. -/
theorem wf_of_kind {i : Instr} (h : i.isCommand = true ∨ i.isStrobe = true ∨ i.isStatusRead = true) :
    i.wf = true := by
  cases i with
  | hdrRead a | hdrReadBurst a | hdrWrite a | hdrBurstWrite a =>
    simp [Instr.isCommand, Instr.isStrobe, Instr.isStatusRead] at h
  | _ => rfl

theorem wf_of_mem_fifoTable {m : ChipAddresses} {h : Byte} {i : Instr} (hm : (h, i) ∈ fifoTable m) : i.wf = true := by
  revert hm
  simp only [fifoTable, List.mem_cons, Prod.mk.injEq, List.mem_nil_iff, or_false]
  rintro (h | h | h | h) <;> obtain ⟨-, rfl⟩ := h <;> rfl

/-- For the chip of the spec's tables, the row that a header's bits name is well-formed exactly where no row fixes the
whole byte: the two kinds of row neither overlap nor leave a byte out (R112, 20_memory.md R78). -/
theorem wf_decodeForm_iff : ∀ h : Byte, (decodeForm defaultChip h).wf = true ↔
    (fifoTable defaultChip ++ statusTable defaultChip).lookup h = none := by
  decide

/-- A row that fixes the whole byte is well-formed. -/
theorem wf_of_lookup_fixed {m : ChipAddresses} {h : Byte} {i : Instr}
    (hl : (fifoTable m ++ statusTable m).lookup h = some i) : i.wf = true := by
  rcases List.mem_append.mp (mem_of_lookup hl) with hf | hs
  · exact wf_of_mem_fifoTable hf
  · obtain ⟨-, hstatus⟩ := mem_statusTable hs
    exact wf_of_kind (.inr (.inr hstatus))

/-- What a header decodes to is well-formed, for the chip of the spec's tables. -/
theorem wf_decodeHeader (lone : Bool) (h : Byte) : (decodeHeader defaultChip lone h).wf = true := by
  unfold decodeHeader
  split
  · rename_i i hi
    cases lone with
    | false => cases hi
    | true =>
      obtain ⟨-, hstrobe⟩ := mem_strobeTable (mem_of_lookup hi)
      exact wf_of_kind (.inr (.inl hstrobe))
  · split
    · rename_i hl
      exact wf_of_lookup_fixed hl
    · rename_i hl
      exact (wf_decodeForm_iff h).mpr hl

/-- The word of a well-formed row with a free base, sent before data, decodes to that row. -/
theorem decodeHeader_encode_of_freeBase {a : Base} {i : Instr} (hwf : i.wf = true)
    (hi : i ∈ [Instr.hdrRead a, .hdrReadBurst a, .hdrWrite a, .hdrBurstWrite a]) :
    decodeHeader defaultChip false (encode i) = i := by
  have hform : decodeForm defaultChip (encode i) = i := by
    rw [← encodeIn_defaultChip]
    exact decodeForm_encodeIn defaultChip a i hi
  have hfree : (fifoTable defaultChip ++ statusTable defaultChip).lookup (encode i) = none :=
    (wf_decodeForm_iff _).mp (hform.symm ▸ hwf)
  simp [decodeHeader, hfree, hform]

/-! Decoding and encoding. -/

/-- A well-formed instruction's word decodes to it at its port: a row that fixes its word is read off its table, the
others by `decodeHeader_encode_of_freeBase`. -/
theorem decode_encode (i : Instr) (hwf : i.wf = true) : decode i.port (encode i) = .ok i := by
  cases i with
  | hdrRead a | hdrReadBurst a | hdrWrite a | hdrBurstWrite a =>
    exact congrArg Except.ok (decodeHeader_encode_of_freeBase (a := a) hwf (by simp))
  | _ => rfl

/-- At a wire row's own port a word is a header, sent alone where the row is a strobe (R113). -/
theorem decode_port_of_wire {i : Instr} (hi : i.isCommand = false) (w : Byte) :
    decode i.port w = .ok (decodeHeader defaultChip i.isStrobe w) := by
  cases hs : i.isStrobe <;> simp [Instr.port, hi, hs, decode, decodeIn]

/-- What a word decodes to at a port: its row for the chip, of that port's encoding (log entry 1). -/
theorem decodeIn_cases {m : ChipAddresses} {p : Port} {w : Byte} {i : Instr} (h : decodeIn m p w = .ok i) :
    (p = .command ∧ decodeCommand w = .ok i) ∨ (p = .lone ∧ i = decodeHeader m true w) ∨
      (p = .frame ∧ i = decodeHeader m false w) := by
  cases p with
  | command => exact .inl ⟨rfl, h⟩
  | lone => cases h; exact .inr (.inl ⟨rfl, rfl⟩)
  | frame => cases h; exact .inr (.inr ⟨rfl, rfl⟩)

/-! The obligations. -/

/-- Settles O21: the word alone is `decode_encode`; a frame is decoded by its header, which is sent alone exactly where
the row is a strobe, and so at the row's own port. -/
theorem decodeOfEncode : Obligations.DecodeOfEncode := by
  refine ⟨decode_encode, fun i data hwf hi hdata => ?_⟩
  have hlone : data.isEmpty = i.isStrobe := by
    rw [Bool.eq_iff_iff, List.isEmpty_iff, hdata]
  rw [decodeFrame_cons, hlone, ← decode_port_of_wire hi, decode_encode i hwf]

/-- Settles O22: a command is a row of the opcode map, a header is the word of the row it decodes to, and for the chip
of the spec's tables no row takes a byte that another fixes. -/
theorem encodeOfDecode : Obligations.EncodeOfDecode := by
  refine ⟨fun m p w i h => ?_, fun p w i h => ?_⟩
  · rcases decodeIn_cases h with ⟨rfl, hcmd⟩ | ⟨rfl, rfl⟩ | ⟨rfl, rfl⟩
    · have hi := decodeCommand_isCommand hcmd
      refine ⟨encodeIn_decodeCommand m hcmd, by simp [hi], fun hs => ?_⟩
      cases hi.symm.trans (not_command_of_strobe hs)
    · obtain ⟨hw, hi, -⟩ := decodeHeader_cases m true w
      exact ⟨hw, by simp [hi], fun _ => rfl⟩
    · obtain ⟨hw, hi, hs⟩ := decodeHeader_cases m false w
      exact ⟨hw, by simp [hi], fun h => nomatch hs h⟩
  · rw [← encodeIn_defaultChip]
    rcases decodeIn_cases h with ⟨-, hcmd⟩ | ⟨-, rfl⟩ | ⟨-, rfl⟩
    · exact ⟨encodeIn_decodeCommand _ hcmd, wf_of_kind (.inl (decodeCommand_isCommand hcmd))⟩
    · exact ⟨encode_decodeHeader _ _ _, wf_decodeHeader _ _⟩
    · exact ⟨encode_decodeHeader _ _ _, wf_decodeHeader _ _⟩

/-- Settles O24: each pair of headers differs in one flag, and the header of that flag and base 0 is the flag's bit. -/
theorem headersDifferInOneBit : Obligations.HeadersDifferInOneBit := by
  constructor
  · intro l b
    refine ⟨?_, headers_xor l b⟩
    cases l with
    | read7Burst6 => exact .inl ⟨rfl, rfl⟩
    | read6Burst7 => exact .inr ⟨rfl, rfl⟩
  · rintro l b rfl
    exact headers_xor .read7Burst6 b

end Sys2Proof.Machine
end

section
/-! PROOFS. 30_encoding.md: what a step does with what it decodes (R101, R104, R105, R107) and the transfers of the wire
rows (R111 to R113). A step is reduced once to the instruction it fetches, and a row's transfer once to Wr or Xfer. -/

namespace Sys2Proof.Machine

/-! The sequencer's turn. -/

/-- The sequencer's turn runs the instruction it stands at. -/
theorem sequencerTurn_of_fetch {s : State} {pos : Position} {i : Instr} (hp : s.phase = .running pos)
    (hf : fetch pos s = .ok i) : sequencerTurn s = exec i s := by
  simp [sequencerTurn, hp, hf]

/-- Where it stands at no instruction, it raises IllegalCommand (R104). -/
theorem sequencerTurn_of_fetch_error {s : State} {pos : Position} {e : DecodeError} (hp : s.phase = .running pos)
    (hf : fetch pos s = .error e) : sequencerTurn s = .next (ended .illegalCommand s) := by
  simp [sequencerTurn, hp, hf, raise_eq_ended (r := .illegalCommand) rfl]

/-- Between transactions the sequencer stands at the command CMD names (R107). -/
theorem fetch_between {pos : Position} (s : State) (ht : pos.txn = none) :
    fetch pos s = decodeIn s.par.chip .command s.cmd := by
  simp [fetch, ht, decodeIn]

/-- In a transaction it stands at the row of the transaction's header, alone or before its data (R115; log entry 1). -/
theorem fetch_within {pos : Position} {t : Txn} (s : State) (ht : pos.txn = some t) :
    fetch pos s = decodeIn s.par.chip (if t.data = [] then .lone else .frame) t.hdr := by
  cases hd : t.data <;> simp [fetch, ht, hd, decodeFrame, decodeIn]

theorem step_of_no_input {s : State} (hin : s.inputs = []) : step s = sequencerTurn s := by
  simp [step, advance, hin]

theorem step_of_turn {s : State} {rest : List Input} (hin : s.inputs = .turn :: rest) :
    step s = sequencerTurn { s with inputs := rest } := by
  simp [step, advance, hin]

/-! Transfers of the wire rows. -/

/-- A row that writes sends its bytes by one Wr, and CsDeselect is next (40_bus_transactions.md R143, R144, R146). -/
theorem exec_send_wr {i : Instr} {t : Txn} {pos : Position} {s : State} (hi : i.isCommand = false)
    (hw : rowDuplex i = false) (h : InTxn t pos s) (hst : t.stage = .send) (hok : (answerAt s 0).failure = none) :
    exec i s = .next { answered (.wr (rowBytes s.par.chip i t)) .done s with
      phase := .running { pos with txn := some { t with stage := .deselect } } } := by
  obtain ⟨hp, ht⟩ := h
  rw [exec_wire hi hp ht, framePrimitive, hst, hw]
  simp only [Bool.false_eq_true, if_false, primitive_ok _ hok, issued_eq_answered (replyTo_wr hok)]
  rfl

/-- A row that reads sends its bytes by one Xfer and keeps what is clocked back; a second Xfer is next where the row has
one, else CsDeselect (40_bus_transactions.md R142, R145). -/
theorem exec_send_xfer {i : Instr} {t : Txn} {pos : Position} {s : State} (hi : i.isCommand = false)
    (hr : rowDuplex i = true) (h : InTxn t pos s) (hst : t.stage = .send) (hok : (answerAt s 0).failure = none) :
    exec i s = .next
      { answered (.xfer (rowBytes s.par.chip i t))
          (.bytes (clockedBytes s 0 (rowBytes s.par.chip i t).length)) s with
        phase := .running { pos with
          rx := clockedBytes s 0 (rowBytes s.par.chip i t).length,
          txn := some { t with stage := if rowMore i t = 0 then .deselect else .more } } } := by
  obtain ⟨hp, ht⟩ := h
  rw [exec_wire hi hp ht, framePrimitive, hst, hr]
  simp only [if_true, primitive_ok _ hok, issued_eq_answered (replyTo_xfer hok), replyTo_xfer hok]
  rfl

/-- The second Xfer of a row sends its dummy bytes and keeps what is clocked back (40_bus_transactions.md R145). -/
theorem exec_more_xfer {i : Instr} {t : Txn} {pos : Position} {s : State} (hi : i.isCommand = false)
    (h : InTxn t pos s) (hst : t.stage = .more) (hok : (answerAt s 0).failure = none) :
    exec i s = .next
      { answered (.xfer (List.replicate (rowMore i t) dummyByte)) (.bytes (clockedBytes s 0 (rowMore i t))) s with
        phase := .running { pos with
          payload := clockedBytes s 0 (rowMore i t), txn := some { t with stage := .deselect } } } := by
  obtain ⟨hp, ht⟩ := h
  rw [exec_wire hi hp ht, framePrimitive, hst]
  simp only [primitive_ok _ hok, issued_eq_answered (replyTo_xfer hok), replyTo_xfer hok, List.length_replicate]
  rfl

theorem not_command_of_wireWrite {i : Instr} (h : i.isWireWrite = true) :
    i.isCommand = false ∧ i.isStrobe = false := by
  cases i <;> first
    | exact ⟨rfl, rfl⟩
    | contradiction

/-- The rows that read one byte: wire rows that neither send alone nor write, and not the FIFO's burst read. -/
theorem kind_of_readRow {i : Instr}
    (h : (∃ a, i = .hdrRead a ∨ i = .hdrReadBurst a) ∨ i = .fifoSingleRead ∨ i.isStatusRead = true) :
    i.isCommand = false ∧ i.isStrobe = false ∧ i.isWireWrite = false ∧ i ≠ .fifoBurstRead := by
  rcases h with ⟨a, rfl | rfl⟩ | rfl | h
  · exact ⟨rfl, rfl, rfl, nofun⟩
  · exact ⟨rfl, rfl, rfl, nofun⟩
  · exact ⟨rfl, rfl, rfl, nofun⟩
  · cases i <;> first
      | contradiction
      | exact ⟨rfl, rfl, rfl, nofun⟩

/-! Operand checks. -/

/-- The selectors SETMOD refuses (R105; 41_field_codecs.md R186). -/
theorem modFormatCode_eq_none : ∀ sel : BitVec 3, 5#3 ≤ sel → modFormatCode sel = none := by decide

/-! The obligations. -/

/-- Settles O3: the write to CMD is `accept`, and a write while BUSY is dropped whatever its offset. -/
theorem cmdWriteIsAccepted : Obligations.CmdWriteIsAccepted := by
  intro s v rest hin
  constructor
  · intro hb
    rw [step_hostWrite_of_ready hb rfl hin]
    rfl
  · intro hb
    obtain ⟨hwrite, -⟩ := busyBlockDropsHostWrites s 0x00 v rest hb rfl
    exact hwrite hin

/-- Settles O12: a step without an input of the host's is the sequencer's turn, which runs what it fetches. -/
theorem stepRunsDecodedInstruction : Obligations.StepRunsDecodedInstruction := by
  intro s pos i hp hdec
  have hfetch : fetch pos s = .ok i := by
    rcases hdec with ⟨ht, hd⟩ | ⟨t, ht, hd⟩
    · rw [fetch_between s ht, hd]
    · rw [fetch_within s ht, hd]
  constructor
  · intro hin
    rw [step_of_no_input hin, sequencerTurn_of_fetch hp hfetch]
  · intro rest hin
    rw [step_of_turn hin]
    exact sequencerTurn_of_fetch (s := { s with inputs := rest }) hp hfetch

/-- Settles O13: outside the map the lookup finds no row, and the turn of a command just accepted fetches CMD. -/
theorem illegalOpcodesRaise : Obligations.IllegalOpcodesRaise := by
  refine ⟨fun w => decodeCommand_eq_error.trans (lookup_commandTable_eq_none w), ?_⟩
  rintro w s ⟨e, he⟩ ⟨hin, rfl, hp⟩
  rw [step_of_no_input hin]
  exact sequencerTurn_of_fetch_error hp ((fetch_between s rfl).trans he)

/-- Settles O36: both kinds of row send by Wr, a strobe its code alone and a write row its data too. -/
theorem strobeAndWriteRowsSend : Obligations.StrobeAndWriteRowsSend := by
  intro i t pos s htxn hst hbus
  have hok : (answerAt s 0).failure = none := hbus 0 Nat.one_pos
  constructor
  · intro hs
    rw [exec_send_wr (not_command_of_strobe hs) (by simp [rowDuplex, hs]) htxn hst hok]
    simp [rowBytes, hs]
  · intro hw
    obtain ⟨hi, hs⟩ := not_command_of_wireWrite hw
    rw [exec_send_wr hi (by simp [rowDuplex, hw]) htxn hst hok]
    simp [rowBytes, hs, hw]

/-- Settles O37: such a row sends two bytes by Xfer and has no second transfer. -/
theorem readRowsSend : Obligations.ReadRowsSend := by
  intro i t pos s hrow htxn hst hbus
  obtain ⟨hi, hs, hw, hf⟩ := kind_of_readRow hrow
  have hbytes : rowBytes s.par.chip i t = [encodeIn s.par.chip i, 0x00#8] := by simp [rowBytes, hs, hw, hf, dummyByte]
  have hmore : rowMore i t = 0 := by simp [rowMore, hf]
  rw [exec_send_xfer hi (by simp [rowDuplex, hs, hw]) htxn hst (hbus 0 Nat.one_pos), hbytes, hmore]
  rfl

/-- Settles O38: the two stages of the row's transfers, its header written out by its bits. -/
theorem fifoBurstReadSends : Obligations.FifoBurstReadSends := by
  intro t pos s htxn hbus
  have hok : (answerAt s 0).failure = none := hbus 0 Nat.one_pos
  have hbytes : rowBytes s.par.chip .fifoBurstRead t = burstReadHeader s.par.chip.fifo s :: t.data :=
    congrArg (· :: t.data) (fifoReadHeader_eq s.par.chip)
  constructor
  · intro hst
    rw [exec_send_xfer rfl rfl htxn hst hok, hbytes]
    rfl
  · intro hst
    exact exec_more_xfer rfl htxn hst hok

/-- Settles O45: the first block of each command's pseudocode tests its operand before it makes a call. -/
theorem operandChecksRaise : Obligations.OperandChecksRaise := by
  rintro pos s ⟨hp, ht, hc, hk⟩
  have hraise : raise .badOperand s = ended .badOperand s := raise_eq_ended rfl s
  refine ⟨fun hn => ?_, fun hn => ?_, fun hsel => ?_, fun hsel => ?_, ?_⟩
  · have hlen : Config.bufSize < argReadLen s := hn
    rw [exec_block rfl hp ht hc, exec_block rfl hp ht hc]
    simp only [commandBody, bodyRdfifo, bodyReceive, hk, if_pos hlen, hraise, and_self]
  · have hlen : Config.bufSize < argBurstLen s := hn
    rw [exec_block rfl hp ht hc]
    simp only [commandBody, bodyWrburst, hk, if_pos hlen, hraise]
  · have hcode : modFormatCode (argSel3 s) = none := modFormatCode_eq_none _ hsel
    rw [exec_block rfl hp ht hc]
    simp only [commandBody, bodySetmod, hk, hcode, hraise]
  · have hcode : lengthConfigCode (argSel2 s) = none := congrArg lengthConfigCode hsel
    rw [exec_block rfl hp ht hc]
    simp only [commandBody, bodySetpktlen, hk, hcode, hraise]
  · intro i hi
    simp only [List.mem_cons, List.not_mem_nil, or_false] at hi
    rcases hi with rfl | rfl <;> rw [exec_block rfl hp ht hc]
    · rw [commandBody, bodySetsync, hk]
      exact ⟨_, rfl⟩
    · rw [commandBody, bodySetaddrfilt, hk]
      exact ⟨_, rfl⟩

end Sys2Proof.Machine
end

section
/-! PROOFS. 40_bus_transactions.md: one step of a raw access command and of a subroutine call (R142 to R147, R150 to
R155). The two blocks of each command are said once, and the step of a call is the model's `callStep`. -/

namespace Sys2Proof.Machine

/-! Blocks of the raw access commands. -/

/-- A command that stands before a block runs it: what block `k` of its body gives is its step. -/
theorem exec_atBlock {i : Instr} {k : Nat} {pos : Position} {s t : State} (hi : i.isCommand = true)
    (h : AtBlock k pos s) (hbody : pos.k = k → commandBody i pos s = t) : exec i s = .next t := by
  obtain ⟨hp, ht, hc, hk⟩ := h
  rw [exec_block hi hp ht hc, hbody hk]

/-- A block that ends the command with Ok. -/
theorem raise_ok (s : State) : raise .ok s = ended .ok s := raise_eq_ended rfl s

theorem exec_rdreg_first {pos : Position} {s : State} (h : AtBlock 0 pos s) :
    exec .rdreg s = .next (callThen 1 [.readReg (argId s)] pos s) :=
  exec_atBlock rfl h fun hk => by simp only [commandBody, bodyRdreg, hk]

theorem exec_rdreg_last {pos : Position} {s : State} (h : AtBlock 1 pos s) :
    exec .rdreg s = .next (ended .ok { s with res0 := (readValue pos).setWidth 32 }) :=
  exec_atBlock rfl h fun hk => by simp only [commandBody, bodyRdreg, hk, raise_ok]

theorem exec_wrreg_first {pos : Position} {s : State} (h : AtBlock 0 pos s) :
    exec .wrreg s = .next (callThen 1 [.writeReg (argBase s) (argLow s)] pos s) :=
  exec_atBlock rfl h fun hk => by simp only [commandBody, bodyWrreg, hk]

theorem exec_wrreg_last {pos : Position} {s : State} (h : AtBlock 1 pos s) :
    exec .wrreg s = .next (ended .ok s) :=
  exec_atBlock rfl h fun hk => by simp only [commandBody, bodyWrreg, hk, raise_ok]

theorem exec_strobe_first {pos : Position} {s : State} (h : AtBlock 0 pos s) :
    exec .strobe s = .next (callThen 1 [.strobe (argBase s)] pos s) :=
  exec_atBlock rfl h fun hk => by simp only [commandBody, bodyStrobe, hk]

theorem exec_strobe_last {pos : Position} {s : State} (h : AtBlock 1 pos s) :
    exec .strobe s = .next (ended .ok s) :=
  exec_atBlock rfl h fun hk => by simp only [commandBody, bodyStrobe, hk, raise_ok]

/-- Of up to 64 bytes; more are refused (R153). -/
theorem exec_rdfifo_first {pos : Position} {s : State} (h : AtBlock 0 pos s) (hn : argReadLen s ≤ Config.bufSize) :
    exec .rdfifo s = .next (callThen 1 [.readFifo (argReadLen s)] pos s) :=
  exec_atBlock rfl h fun hk => by simp only [commandBody, bodyRdfifo, hk, if_neg (Nat.not_lt.mpr hn)]

/-- The payload that the second Xfer clocked back fits the length, so all of it is stored. -/
theorem exec_rdfifo_last {pos : Position} {s : State} (h : AtBlock 1 pos s) (hlen : pos.payload.length = argReadLen s) :
    exec .rdfifo s = .next (ended .ok
      { s with buf := memWriteList s.buf 0 pos.payload,
               res0 := (fifoLen pos).setWidth 32, res1 := (fifoAddr pos).setWidth 32 }) :=
  exec_atBlock rfl h fun hk => by simp only [commandBody, bodyRdfifo, hk, raise_ok, ← hlen, List.take_length]

/-- Of up to 64 bytes; more are refused (R154). -/
theorem exec_wrburst_first {pos : Position} {s : State} (h : AtBlock 0 pos s) (hn : argBurstLen s ≤ Config.bufSize) :
    exec .wrburst s = .next (callThen 1
      [.writeBurst (argBase s) (memBytes s.buf s.memDraws 0 (argBurstLen s))] pos
      { s with memDraws := s.memDraws + 1 }) :=
  exec_atBlock rfl h fun hk => by simp only [commandBody, bodyWrburst, hk, if_neg (Nat.not_lt.mpr hn)]

theorem exec_wrburst_last {pos : Position} {s : State} (h : AtBlock 1 pos s) :
    exec .wrburst s = .next (ended .ok s) :=
  exec_atBlock rfl h fun hk => by simp only [commandBody, bodyWrburst, hk, raise_ok]

theorem exec_modreg_first {pos : Position} {s : State} (h : AtBlock 0 pos s) :
    exec .modreg s = .next (callThen 1 [.modifyReg (argBase s) (argLow s) (argHigh s)] pos s) :=
  exec_atBlock rfl h fun hk => by simp only [commandBody, bodyModreg, hk]

theorem exec_modreg_last {pos : Position} {s : State} (h : AtBlock 1 pos s) :
    exec .modreg s = .next (ended .ok { s with res0 := pos.old.setWidth 32, res1 := pos.new.setWidth 32 }) :=
  exec_atBlock rfl h fun hk => by simp only [commandBody, bodyModreg, hk, raise_ok]

/-- Settles O41: the twelve blocks, the bytes read taken out of `rx`. -/
theorem rawCommandBlocks : Obligations.RawCommandBlocks := by
  intro pos s
  refine ⟨fun h => ?first, fun h => ?last⟩
  case first =>
    exact ⟨exec_rdreg_first h, exec_wrreg_first h, exec_strobe_first h, exec_rdfifo_first h, exec_wrburst_first h,
      exec_modreg_first h⟩
  case last =>
    refine ⟨fun x v hrx => ?_, exec_wrreg_last h, exec_strobe_last h, fun x len addr hrx hlen => ?_,
      exec_wrburst_last h, exec_modreg_last h⟩
    · rw [exec_rdreg_last h, readValue, hrx]
      rfl
    · rw [exec_rdfifo_last h hlen, fifoLen, fifoAddr, hrx]
      rfl

/-! Subroutine calls. -/

/-- READ_REG returns the second of the two bytes clocked back (R142). -/
theorem readValue_of_rx {pos : Position} {x v : Byte} (h : pos.rx = [x, v]) : readValue pos = v := by
  rw [readValue, h]
  rfl

/-- AWAIT_STATE returns on the code, else it polls again (44_radio_state_machine.md R271). -/
theorem callStep_awaitTest (code : BitVec 5) (pos : Position) (s : State) :
    callStep (.awaitTest code) pos s = setPos { pos with
      calls := if readValue pos &&& s.par.marcMask = code.setWidth 8 then pos.calls
        else .awaitState code :: pos.calls } s := by
  rw [callStep]
  split <;> rfl

/-- WAIT_RX_BYTES ends in the overflow, returns on a stable count, or reads again (45_packet_protocol.md R292), by the
bits of the byte read. -/
theorem callStep_rxTest (pos : Position) (s : State) :
    callStep .rxTest pos s =
      if (readValue pos).getLsbD 7 = true then
        setPos { pos with calls := .strobe s.par.chip.strobes.sfrx :: .rxOverflow :: pos.calls } s
      else if (readValue pos).extractLsb' 0 7 ≠ 0#7 ∧ (readValue pos).extractLsb' 0 7 = s.lastCount then setPos pos s
      else
        setPos { pos with calls := .readReg (statusId s.par.chip.status.rxbytes) :: .rxTest :: pos.calls }
          { s with lastCount := (readValue pos).extractLsb' 0 7 } := by
  rw [callStep, rx_overflow_bit, rx_count_bits]
  rfl

/-- A line wait returns on the level, else it reads again (45_packet_protocol.md R301). -/
theorem callStep_lineWait {level : Bool} {pos : Position} {s : State} (hok : (answerAt s 0).failure = none) :
    callStep (.lineWait level) pos s =
      setPos { pos with
          calls := if (answerAt s 0).level = level then pos.calls else .lineWait level :: pos.calls }
        (answered .lineRead (.level (answerAt s 0).level) s) := by
  simp only [callStep, primitive_ok _ hok, issued_eq_answered (replyTo_lineRead hok), replyTo_lineRead hok,
    Reply.level.injEq]
  split <;> rfl

/-- Settles O44: the step of a command that stands before a call is `callStep`, one case for each call. -/
theorem subroutineCalls : Obligations.SubroutineCalls := by
  rintro i c rest pos s hi ⟨hp, ht, hc⟩
  have hexec : exec i s = .next (callStep c { pos with calls := rest } s) := exec_call hi hp ht hc
  refine ⟨?readReg, ?writeReg, ?strobe, ?readFifo, ?writeBurst, ?modifyReg, ?modifyWrite, ?awaitState, ?awaitTest,
    ?goIdle, ?goRx, ?goTx, ?waitRxBytes, ?rxTest, ?rxOverflow, ?lineWait⟩
  case readReg =>
    rintro id rfl
    rw [hexec, callStep, hdrReadOf_eq]
    rfl
  case writeReg =>
    rintro a v rfl
    rw [hexec, callStep, hdrWriteOf_eq]
    rfl
  case strobe =>
    rintro a rfl
    rw [hexec, callStep, hdrWriteOf_eq]
    rfl
  case readFifo =>
    rintro n rfl
    rw [hexec, callStep, fifoReadHeader_eq]
    rfl
  case writeBurst =>
    rintro a bytes rfl
    rw [hexec, callStep, hdrBurstWriteOf_eq]
    rfl
  case modifyReg =>
    rintro a mask value rfl
    exact hexec
  case modifyWrite =>
    rintro a mask value x v rfl hrx
    rw [hexec, callStep, readValue_of_rx (pos := { pos with calls := rest }) hrx]
    rfl
  case awaitState =>
    rintro code rfl
    exact hexec
  case awaitTest =>
    rintro code x v rfl hrx
    rw [hexec, callStep_awaitTest, readValue_of_rx (pos := { pos with calls := rest }) hrx]
  case goIdle =>
    rintro rfl
    exact hexec
  case goRx =>
    rintro rfl
    exact hexec
  case goTx =>
    rintro rfl
    exact hexec
  case waitRxBytes =>
    rintro rfl
    exact hexec
  case rxTest =>
    rintro x v rfl hrx
    rw [hexec, callStep_rxTest, readValue_of_rx (pos := { pos with calls := rest }) hrx]
    refine ⟨fun hov => ?_, fun hov hne hlast => ?_, fun hov hcount => ?_⟩
    · rw [if_pos hov]
    · rw [if_neg (ne_true_of_eq_false hov), if_pos ⟨hne, hlast⟩]
    · rw [if_neg (ne_true_of_eq_false hov), if_neg fun hstable => hcount.elim hstable.1 (· hstable.2)]
  case rxOverflow =>
    rintro rfl
    rw [hexec, callStep, raise_eq_ended rfl]
  case lineWait =>
    rintro level rfl hbus
    rw [hexec, callStep_lineWait (hbus 0 Nat.one_pos)]

end Sys2Proof.Machine
end

section
/-! PROOFS. 40_bus_transactions.md: the raw access commands from acceptance to completion (R150 to R155). Each is two
blocks with one subroutine call between them, a run put together once. -/

namespace Sys2Proof.Machine

/-- A command just accepted stands before block 0 of its pseudocode. -/
theorem Started.atBlock {w : Byte} {s : State} (h : Started w s) : AtBlock 0 Position.start s := by
  obtain ⟨-, -, hp⟩ := h
  exact ⟨hp, rfl, rfl, rfl⟩

/-- A command just accepted is the one running. -/
theorem Started.inRun {w : Byte} {i : Instr} {s : State} (h : Started w s) (hd : decodeCommand w = .ok i) :
    InRun i s := by
  obtain ⟨hin, rfl, -⟩ := h
  exact ⟨hin, hd⟩

/-- A running command between transactions goes on as its meaning says. -/
theorem Reaches.of_exec {i : Instr} {k : Nat} {pos : Position} {x t u : State} (hx : InRun i x) (h : AtBlock k pos x)
    (he : exec i x = .next t) (hr : Reaches t u) : Reaches x u := by
  obtain ⟨hp, ht, -, -⟩ := h
  exact Reaches.head ((step_command hx.1 hp ht hx.2).trans he) hr

/-- The run of a command of two blocks: the first makes the calls, which lead to block 1, and that one ends the
command. -/
theorem reaches_of_two_blocks {w : Byte} {i : Instr} {s u x t : State} {pos : Position} (h : Started w s)
    (hd : decodeCommand w = .ok i) (hfirst : exec i s = .next u) (hcalls : Reaches u x) (hx : InRun i x)
    (hblock : AtBlock 1 pos x) (hlast : exec i x = .next t) : Reaches s t :=
  Reaches.of_exec (h.inRun hd) h.atBlock hfirst
    (hcalls.trans (Reaches.of_exec hx hblock hlast (Reaches.refl t)))

/-- A position before block 1 with no calls left. -/
theorem atBlock_one {rx pl : List Byte} {o n p q : Byte} (x : State) :
    AtBlock 1 ⟨1, [], none, rx, pl, o, n, p, q⟩ (setPos ⟨1, [], none, rx, pl, o, n, p, q⟩ x) :=
  ⟨rfl, rfl, rfl, rfl⟩

/-- Settles O48: the call between the two blocks is one write frame. -/
theorem rawWriteCommandsRun : Obligations.RawWriteCommandsRun := by
  intro s hbus
  refine ⟨fun h => ?wrreg, fun h => ?strobe, fun h hn => ?wrburst⟩
  case wrreg =>
    have hx : InRun .wrreg s := h.inRun rfl
    exact reaches_of_two_blocks h rfl (exec_wrreg_first h.atBlock) (call_writeReg hx hbus)
      hx (atBlock_one _) (exec_wrreg_last (atBlock_one _))
  case strobe =>
    have hx : InRun .strobe s := h.inRun rfl
    exact reaches_of_two_blocks h rfl (exec_strobe_first h.atBlock) (call_strobe hx hbus)
      hx (atBlock_one _) (exec_strobe_last (atBlock_one _))
  case wrburst =>
    have hx : InRun .wrburst { s with memDraws := s.memDraws + 1 } := h.inRun rfl
    exact reaches_of_two_blocks h rfl (exec_wrburst_first h.atBlock hn) (call_writeBurst hx hbus)
      hx (atBlock_one _) (exec_wrburst_last (atBlock_one _))

/-- The header of READ_REG of RDREG's operand (30_encoding.md R111). -/
theorem hdrReadOf_argId (s : State) : hdrReadOf s.par.chip.bits (argId s) =
    if s.arg0.getLsbD 6 then burstReadHeader (s.arg0.extractLsb' 0 6) s
    else singleReadHeader (s.arg0.extractLsb' 0 6) s := by
  have hbase : (argId s).setWidth 6 = s.arg0.extractLsb' 0 6 :=
    BitVec.setWidth_extractLsb'_of_le (by decide)
  have hbit : (argId s).getLsbD 6 = s.arg0.getLsbD 6 := by simp [argId]
  rw [hdrReadOf_eq, hbase, hbit]

/-- Settles O49: the call between the two blocks is READ_REG, READ_FIFO or MODIFY_REG, and the second block stores what
it read. -/
theorem rawReadCommandsRun : Obligations.RawReadCommandsRun := by
  intro s
  refine ⟨fun h hbus => ?rdreg, fun n h hn hle hbus => ?rdfifo, fun a mask value new h ha hm hv hnew hbus => ?modreg⟩
  case rdreg =>
    have hx : InRun .rdreg s := h.inRun rfl
    rw [← hdrReadOf_argId]
    exact reaches_of_two_blocks h rfl (exec_rdreg_first h.atBlock) (call_readReg hx hbus)
      hx (atBlock_one _) (exec_rdreg_last (atBlock_one _))
  case rdfifo =>
    subst hn
    have hx : InRun .rdfifo s := h.inRun rfl
    exact reaches_of_two_blocks h rfl (exec_rdfifo_first h.atBlock hle) (call_readFifo hx hbus)
      hx (atBlock_one _) (exec_rdfifo_last (atBlock_one _) (clockedBytes_length s 2 _))
  case modreg =>
    subst ha hm hv hnew
    have hx : InRun .modreg s := h.inRun rfl
    exact reaches_of_two_blocks h rfl (exec_modreg_first h.atBlock) (call_modifyReg hx hbus)
      hx (atBlock_one _) (exec_modreg_last (atBlock_one _))

end Sys2Proof.Machine
end

section
/-! PROOFS. 41_field_codecs.md: the laws of the field operations and the read-modify-write of several fields (R170 to
R174). Each operation is said once bit by bit; the laws compare bytes by their bits. -/

namespace Sys2Proof.Machine

/-! Bits of the field operations. -/

/-- Bit j of a byte belongs to the field (R170). -/
abbrev InField (f : Field) (j : Nat) : Prop := f.off ≤ j ∧ j < f.off + f.w

theorem InField.not_of_disjoint {f g : Field} {j : Nat} (h : InField f j) (hd : fieldsDisjoint f g) :
    ¬InField g j := by omega

theorem getElem_ofNat_byte (n : Nat) {j : Nat} (hj : j < 8) : (BitVec.ofNat 8 n)[j] = n.testBit j := by
  rw [← BitVec.getLsbD_eq_getElem hj, BitVec.getLsbD_ofNat, decide_eq_true hj, Bool.true_and]

/-- The bits of `M(f)` (R170). -/
theorem getElem_fieldMask (f : Field) {j : Nat} (hj : j < 8) : (fieldMask f)[j] = decide (InField f j) := by
  have hshift : j - f.off < f.w ∧ f.off ≤ j ↔ InField f j := by omega
  simp [fieldMask, getElem_ofNat_byte, Nat.one_shiftLeft, Nat.testBit_two_pow_sub_one, ← hshift, Bool.and_comm]

/-- The bits of an insert: the value's inside the field, the byte's outside (R171). -/
theorem getElem_fieldInsert (raw : Byte) (f : Field) (v : Nat) {j : Nat} (hj : j < 8) :
    (fieldInsert raw f v)[j] = if InField f j then v.testBit (j - f.off) else raw[j] := by
  by_cases hf : InField f j
  · simp [fieldInsert, getElem_ofNat_byte, getElem_fieldMask f hj, hf]
  · rw [if_neg hf]
    simp [fieldInsert, getElem_fieldMask f hj, decide_eq_false hf]

/-- The bits of an extract: the byte's, from the field's offset up (R170). -/
theorem getElem_fieldExtract (raw : Byte) (f : Field) {j : Nat} (hj : j < 8) :
    (fieldExtract raw f)[j] = (decide (j < f.w) && raw.getLsbD (f.off + j)) := by
  simp [fieldExtract, getElem_ofNat_byte, Nat.one_shiftLeft, Nat.testBit_two_pow_sub_one, Bool.and_comm]

/-! The five laws of R173. -/

theorem fieldExtract_fieldInsert_same (raw : Byte) {f : Field} (v : Nat) (hf : fieldOk f) :
    fieldExtract (fieldInsert raw f v) f = BitVec.ofNat 8 (v % 2 ^ f.w) := by
  ext j hj
  rw [getElem_fieldExtract _ f hj, getElem_ofNat_byte, Nat.testBit_mod_two_pow]
  by_cases hw : j < f.w
  · have hin : InField f (f.off + j) := by omega
    rw [BitVec.getLsbD_eq_getElem (by omega), getElem_fieldInsert, if_pos hin, Nat.add_sub_cancel_left]
  · simp [hw]

theorem fieldInsert_outside (raw : Byte) (f : Field) (v : Nat) :
    fieldInsert raw f v &&& ~~~fieldMask f = raw &&& ~~~fieldMask f := by
  ext j hj
  simp only [BitVec.getElem_and, BitVec.getElem_not, getElem_fieldMask f hj, getElem_fieldInsert raw f v hj]
  by_cases hf : InField f j
  · simp [hf]
  · rw [if_neg hf]

theorem fieldInsert_fieldInsert_same (raw : Byte) (f : Field) (v u : Nat) :
    fieldInsert (fieldInsert raw f v) f u = fieldInsert raw f u := by
  ext j hj
  simp only [getElem_fieldInsert _ _ _ hj]
  by_cases hf : InField f j
  · simp only [if_pos hf]
  · simp only [if_neg hf]

theorem fieldInsert_comm (raw : Byte) {f g : Field} (v u : Nat) (hd : fieldsDisjoint f g) :
    fieldInsert (fieldInsert raw f v) g u = fieldInsert (fieldInsert raw g u) f v := by
  ext j hj
  simp only [getElem_fieldInsert _ _ _ hj]
  by_cases hf : InField f j
  · simp only [if_pos hf, if_neg (hf.not_of_disjoint hd)]
  · simp only [if_neg hf]

theorem fieldExtract_fieldInsert_disjoint (raw : Byte) {f g : Field} (u : Nat) (hf : fieldOk f)
    (hd : fieldsDisjoint f g) : fieldExtract (fieldInsert raw g u) f = fieldExtract raw f := by
  ext j hj
  simp only [getElem_fieldExtract _ f hj]
  by_cases hw : j < f.w
  · have hin : InField f (f.off + j) := by omega
    have hbit : f.off + j < 8 := by omega
    rw [BitVec.getLsbD_eq_getElem hbit, BitVec.getLsbD_eq_getElem hbit, getElem_fieldInsert,
      if_neg (hin.not_of_disjoint hd)]
  · simp [hw]

/-- Settles O25: the five laws, each compared bit by bit. -/
theorem fieldLaws : Obligations.FieldLaws := fun raw f v u hf =>
  ⟨fieldExtract_fieldInsert_same raw v hf, fieldInsert_outside raw f v, fieldInsert_fieldInsert_same raw f v u,
    fun _ _ hd => ⟨fieldInsert_comm raw v u hd, fieldExtract_fieldInsert_disjoint raw u hf hd⟩⟩

/-! Read-modify-write of several fields (R174): what one more field at the end of the list adds. -/

theorem rmwMask_concat (fs : List (Field × Nat)) (fv : Field × Nat) :
    rmwMask (fs ++ [fv]) = rmwMask fs ||| fieldMask fv.1 := List.foldl_concat ..

theorem rmwValue_concat (fs : List (Field × Nat)) (fv : Field × Nat) :
    rmwValue (fs ++ [fv]) = rmwValue fs ||| (BitVec.ofNat 8 (fv.2 <<< fv.1.off) &&& fieldMask fv.1) :=
  List.foldl_concat ..

theorem fieldBuild_concat (d : Byte) (fs : List (Field × Nat)) (fv : Field × Nat) :
    fieldBuild d (fs ++ [fv]) = fieldInsert (fieldBuild d fs) fv.1 fv.2 := List.foldl_concat ..

theorem fieldMask_and_of_disjoint {f g : Field} (hd : fieldsDisjoint f g) : fieldMask f &&& fieldMask g = 0#8 := by
  ext j hj
  rw [BitVec.getElem_and, getElem_fieldMask f hj, getElem_fieldMask g hj]
  by_cases hf : InField f j
  · simp [hf.not_of_disjoint hd]
  · simp [hf]

/-- The mask holds the fields' bits and no other. -/
theorem getLsbD_rmwMask (fs : List (Field × Nat)) {j : Nat} (hj : j < 8) :
    (rmwMask fs).getLsbD j = true ↔ ∃ fv ∈ fs, InField fv.1 j := by
  rw [BitVec.getLsbD_eq_getElem hj]
  induction fs using List.reverseRecOn with
  | nil => simp [rmwMask]
  | append_singleton fs fv ih =>
    rw [rmwMask_concat, BitVec.getElem_or, Bool.or_eq_true, ih, getElem_fieldMask fv.1 hj, decide_eq_true_eq]
    simp only [List.mem_append, List.mem_singleton, or_and_right, exists_or, exists_eq_left]

/-- Each value is cut to its field, so it has no bit in a field that shares none with the list's. -/
theorem rmwValue_and_fieldMask {fs : List (Field × Nat)} {g : Field} (hd : ∀ fv ∈ fs, fieldsDisjoint fv.1 g) :
    rmwValue fs &&& fieldMask g = 0#8 := by
  induction fs using List.reverseRecOn with
  | nil => exact BitVec.zero_and
  | append_singleton fs fv ih =>
    have hlist : rmwValue fs &&& fieldMask g = 0#8 := ih fun x hx => hd x (List.mem_append_left _ hx)
    have hlast : fieldMask fv.1 &&& fieldMask g = 0#8 := fieldMask_and_of_disjoint (hd fv (by simp))
    rw [rmwValue_concat, BitVec.and_or_distrib_right, BitVec.and_assoc, hlist, hlast, BitVec.and_zero, BitVec.or_zero]

/-- An insert after a read-modify-write is one read-modify-write with the field's mask and value added, when the value
had no bit in the field. -/
theorem fieldInsert_modifyByte (old mask value : Byte) (f : Field) (v : Nat) (h : value &&& fieldMask f = 0#8) :
    fieldInsert (modifyByte old mask value) f v = modifyByte old (mask ||| fieldMask f)
      (value ||| (BitVec.ofNat 8 (v <<< f.off) &&& fieldMask f)) := by
  ext j hj
  have hbit : (value[j] && (fieldMask f)[j]) = false := by rw [← BitVec.getElem_and, h, BitVec.getElem_zero]
  simp only [fieldInsert, modifyByte, BitVec.getElem_or, BitVec.getElem_and, BitVec.getElem_not]
  cases hm : (fieldMask f)[j] with
  | false => simp
  | true =>
    have hv : value[j] = false := by simpa [hm] using hbit
    simp [hv]

/-- MODIFY_REG writes the builder's byte over the byte read (R174). -/
theorem modifyByte_rmw (old : Byte) {fs : List (Field × Nat)}
    (hd : fs.Pairwise (fun a b => fieldsDisjoint a.1 b.1)) :
    modifyByte old (rmwMask fs) (rmwValue fs) = fieldBuild old fs := by
  induction fs using List.reverseRecOn with
  | nil =>
    change (old &&& ~~~0#8) ||| (0#8 &&& 0#8) = old
    rw [BitVec.not_zero, BitVec.and_allOnes, BitVec.and_self, BitVec.or_zero]
  | append_singleton fs fv ih =>
    obtain ⟨hfs, -, hlast⟩ := List.pairwise_append.mp hd
    have hcut : rmwValue fs &&& fieldMask fv.1 = 0#8 :=
      rmwValue_and_fieldMask fun x hx => hlast x hx fv (List.mem_singleton_self fv)
    rw [rmwMask_concat, rmwValue_concat, fieldBuild_concat, ← ih hfs, fieldInsert_modifyByte _ _ _ _ _ hcut]

/-- Settles O26, by induction on the list of fields from its end. -/
theorem readModifyWriteIsBuild : Obligations.ReadModifyWriteIsBuild := fun old fs _ hd =>
  ⟨modifyByte_rmw old hd, fun _ hj => getLsbD_rmwMask fs hj⟩

end Sys2Proof.Machine
end

section
/-! PROOFS. 42_numeric_conversion.md: the rounding of R211, the frequency codec (R212, R213), the two codecs of a
mantissa and an exponent (R214 to R217) as one codec of three numbers, the channel bandwidth codec (R218, R219), and
the properties of R220 to R222. -/

namespace Sys2Proof.Machine

/-! Rounding (R211). -/

/-- `n` is at most the rounded quotient when the quotient reaches `n - 1/2`. -/
theorem le_rnd_iff {a b n : Nat} (hb : 0 < b) : n ≤ rnd a b ↔ 2 * n * b ≤ 2 * a + b := by
  rw [rnd, Nat.le_div_iff_mul_le (by omega), Nat.mul_left_comm, Nat.mul_assoc]

theorem rnd_lt_iff {a b n : Nat} (hb : 0 < b) : rnd a b < n ↔ 2 * a + b < 2 * n * b := by
  rw [← Nat.not_le, le_rnd_iff hb, Nat.not_le]

theorem rnd_mono {a a' : Nat} (b : Nat) (h : a ≤ a') : rnd a b ≤ rnd a' b := Nat.div_le_div_right (by omega)

/-- The rounded quotient is within a half of the quotient. -/
theorem rnd_within_half (a : Nat) {b : Nat} (hb : 0 < b) :
    2 * (rnd a b * b) ≤ 2 * a + b ∧ 2 * a < 2 * (rnd a b * b) + b := by
  have hlow := (le_rnd_iff (a := a) hb).mp le_rfl
  have hhigh := (rnd_lt_iff (a := a) hb).mp (Nat.lt_succ_self _)
  constructor <;> linarith

/-- What flooring loses is less than the unit `q` the value is cut to (R213, R215, R217). -/
theorem floor_within_unit (v : Nat) {q : Nat} (hq : 0 < q) : v / q * q ≤ v ∧ v < v / q * q + q :=
  ⟨Nat.div_mul_le_self v q, Nat.lt_div_mul_add hq⟩

/-- Decoding a rounded quotient, floored to the unit `q`, errs by less than half a step and, downward, a unit. -/
theorem floor_rnd_within (a : Nat) {b q : Nat} (hb : 0 < b) (hq : 0 < q) :
    2 * (rnd a b * b / q * q) ≤ 2 * a + b ∧ 2 * a < 2 * (rnd a b * b / q * q) + 2 * q + b := by
  obtain ⟨hlow, hhigh⟩ := rnd_within_half a hb
  obtain ⟨hfloor, hfloor'⟩ := floor_within_unit (rnd a b * b) hq
  omega

/-- Where a step is more than two units, decoding a rounded quotient errs by less than a step. -/
theorem floor_rnd_within_step (a : Nat) {b q : Nat} (hq : 0 < q) (h : 2 * q < b) :
    rnd a b * b / q * q < a + b ∧ a < rnd a b * b / q * q + b := by
  obtain ⟨hlow, hhigh⟩ := floor_rnd_within a (by omega : 0 < b) hq
  constructor <;> omega

/-- Decoding the rounded quotient of a whole number of units errs by at most the larger of a unit and a step. -/
theorem floor_rnd_within_max (x : Nat) {b q : Nat} (hb : 0 < b) (hq : 0 < q) :
    rnd (x * q) b * b / q * q ≤ x * q + max q b ∧ x * q ≤ rnd (x * q) b * b / q * q + max q b := by
  obtain ⟨hlow, hhigh⟩ := floor_rnd_within (x * q) hb hq
  generalize rnd (x * q) b * b / q = d at *
  refine ⟨by omega, ?_⟩
  rcases Nat.lt_or_ge (2 * q) b with hfine | hcoarse
  · omega
  · have hunits : x < d + 2 := Nat.lt_of_mul_lt_mul_right (a := q) (by linarith)
    have hnext : x * q ≤ (d + 1) * q := Nat.mul_le_mul_right q (by omega)
    rw [Nat.add_one_mul] at hnext
    omega

/-- Rounding recovers the word from its floored value where a step `b` is at least two units. -/
theorem rnd_floor (t : Nat) {b q : Nat} (hq : 0 < q) (h : 2 * q ≤ b) : rnd (t * b / q * q) b = t := by
  have hb : 0 < b := by omega
  obtain ⟨hfloor, hfloor'⟩ := floor_within_unit (t * b) hq
  apply Nat.le_antisymm
  · rw [← Nat.lt_succ_iff, rnd_lt_iff hb]; linarith
  · rw [le_rnd_iff hb]; linarith

/-! The frequency codec (R212, R213). -/

theorem encFreq_mono {a b : Nat} (h : a ≤ b) : encFreq a ≤ encFreq b := rnd_mono _ (Nat.mul_le_mul_right _ h)

/-- R221, item 1, for every input. -/
theorem freqWithinStep_all (hz : Nat) : freqWithinStep hz := floor_rnd_within_step _ (by decide) (by decide)

/-- Every frequency word survives decoding and encoding. -/
theorem encFreq_decFreq (r : Nat) : encFreq (decFreq r) = r := rnd_floor r (by decide) (by decide)

/-- Settles O27: an encoding step F is more than two of the units 2^16 the decoder floors to. -/
theorem frequencyRoundTrip : Obligations.FrequencyRoundTrip :=
  ⟨by decide, fun hz h => ⟨encFreq_lt h, freqWithinStep_all hz, encFreq_decFreq _⟩⟩

/-! The codecs of a mantissa and an exponent (R214 to R217). -/

theorem step_pos (e : Nat) : 0 < Config.fxoscHz * 2 ^ e := Nat.mul_pos (by decide) (Nat.two_pow_pos e)

/-- The search is for the first exponent at which the word fits. -/
theorem encSearch_eq_find (x base top : Nat) (l : List Nat) :
    encSearch x base top l = (l.find? fun e => rnd x (Config.fxoscHz * 2 ^ e) ≤ top).map
      fun e => (rnd x (Config.fxoscHz * 2 ^ e) - base, e) := by
  induction l with
  | nil => rfl
  | cons e es ih =>
    by_cases h : rnd x (Config.fxoscHz * 2 ^ e) ≤ top
    · simp [encSearch, h]
    · simp [encSearch, h, ih]

/-- The order of the settings (mantissa, exponent) by exponent, then mantissa. -/
def SettingLe (p q : Nat × Nat) : Prop := p.2 < q.2 ∨ p.2 = q.2 ∧ p.1 ≤ q.1

theorem settingLe_antisymm {p q : Nat × Nat} (h : SettingLe p q) (h' : SettingLe q p) : p = q := by
  unfold SettingLe at h h'
  ext <;> omega

theorem settingLe_zero (p : Nat × Nat) : SettingLe (0, 0) p := by
  unfold SettingLe
  dsimp only
  omega

/-- What the data-rate and the deviation codec differ in. Mantissa m at exponent e stands for
(base + m) * 2^e * F / 2^shift. -/
structure FloatCodec where
  /-- The binary digits the formula divides by. -/
  shift : Nat
  /-- The number of mantissas, and the word mantissa 0 stands for. -/
  base : Nat
  /-- The number of exponents. -/
  count : Nat
  base_pos : 0 < base
  count_pos : 0 < count

namespace FloatCodec

variable (c : FloatCodec)

/-- The nearest encoded value of `x` at exponent `e`: t of R214 and R216. -/
def word (x e : Nat) : Nat := rnd (x * 2 ^ c.shift) (Config.fxoscHz * 2 ^ e)

/-- R214 and R216. -/
def encode (x : Nat) : Nat × Nat :=
  (encSearch (x * 2 ^ c.shift) c.base (2 * c.base - 1) (List.range c.count)).getD (c.base - 1, c.count - 1)

/-- R215 and R217. -/
def decode (m e : Nat) : Nat := (c.base + m) * 2 ^ e * Config.fxoscHz / 2 ^ c.shift

theorem word_mono {a b : Nat} (e : Nat) (h : a ≤ b) : c.word a e ≤ c.word b e :=
  rnd_mono _ (Nat.mul_le_mul_right _ h)

/-- A word too large at one exponent is at least `base` at the next, so `max` of R214 and R216 acts at exponent 0
only. -/
theorem base_le_word_succ {x e : Nat} (h : 2 * c.base ≤ c.word x e) : c.base ≤ c.word x (e + 1) := by
  rw [word, le_rnd_iff (step_pos _)] at h ⊢
  have hstep := step_pos e
  rw [Nat.pow_succ, ← Nat.mul_assoc Config.fxoscHz]
  linarith

/-- The encoder takes the first exponent at which the word fits, and the largest setting where there is none. -/
theorem encode_cases (x : Nat) :
    (∃ e < c.count, (∀ e' < e, 2 * c.base ≤ c.word x e') ∧ c.word x e < 2 * c.base ∧
      c.encode x = (c.word x e - c.base, e)) ∨
    ((∀ e < c.count, 2 * c.base ≤ c.word x e) ∧ c.encode x = (c.base - 1, c.count - 1)) := by
  have hbase := c.base_pos
  have hfit : ∀ e, c.word x e ≤ 2 * c.base - 1 ↔ c.word x e < 2 * c.base := by omega
  have henc : c.encode x = (((List.range c.count).find? fun e => c.word x e < 2 * c.base).map
      fun e => (c.word x e - c.base, e)).getD (c.base - 1, c.count - 1) := by
    simp only [← hfit]
    rw [encode, encSearch_eq_find]
    rfl
  cases hfind : (List.range c.count).find? fun e => c.word x e < 2 * c.base with
  | none =>
    rw [hfind] at henc
    rw [List.find?_range_eq_none] at hfind
    exact .inr ⟨by simpa using hfind, henc⟩
  | some e =>
    rw [hfind] at henc
    rw [List.find?_range_eq_some] at hfind
    obtain ⟨hword, hmem, hbefore⟩ := hfind
    exact .inl ⟨e, List.mem_range.mp hmem, by simpa using hbefore, by simpa using hword, henc⟩

theorem encode_lt (x : Nat) : (c.encode x).1 < c.base ∧ (c.encode x).2 < c.count := by
  have hbase := c.base_pos
  have hcount := c.count_pos
  obtain ⟨e, he, -, hword, henc⟩ | ⟨-, henc⟩ := c.encode_cases x
  · rw [henc]; exact ⟨by dsimp only; omega, he⟩
  · rw [henc]; exact ⟨by dsimp only; omega, by dsimp only; omega⟩

/-- Every setting is at most the largest one. -/
theorem settingLe_largest (x : Nat) : SettingLe (c.encode x) (c.base - 1, c.count - 1) := by
  have h := c.encode_lt x
  unfold SettingLe
  dsimp only
  omega

theorem encode_mono {a b : Nat} (h : a ≤ b) : SettingLe (c.encode a) (c.encode b) := by
  obtain ⟨eb, heb, -, hfitb, hencb⟩ | ⟨-, hencb⟩ := c.encode_cases b
  · have hword : c.word a eb ≤ c.word b eb := c.word_mono eb h
    obtain ⟨ea, -, hbefore, -, henca⟩ | ⟨hnone, -⟩ := c.encode_cases a
    · have hle : ea ≤ eb := by
        by_contra hlt
        have := hbefore eb (by omega)
        omega
      rw [henca, hencb]
      rcases Nat.lt_or_eq_of_le hle with hlt | rfl
      · exact .inl hlt
      · exact .inr ⟨rfl, Nat.sub_le_sub_right hword _⟩
    · have := hnone eb heb
      omega
  · rw [hencb]; exact c.settingLe_largest a

theorem decode_mono {p q : Nat × Nat} (hp : p.1 < c.base) (h : SettingLe p q) :
    c.decode p.1 p.2 ≤ c.decode q.1 q.2 := by
  apply Nat.div_le_div_right
  apply Nat.mul_le_mul_right
  rcases h with hlt | ⟨heq, hle⟩
  · calc (c.base + p.1) * 2 ^ p.2 ≤ (2 * c.base) * 2 ^ p.2 := Nat.mul_le_mul_right _ (by omega)
      _ = c.base * 2 ^ (p.2 + 1) := by ring
      _ ≤ (c.base + q.1) * 2 ^ q.2 :=
        Nat.mul_le_mul (Nat.le_add_right _ _) (Nat.pow_le_pow_right (by decide) hlt)
  · rw [heq]
    exact Nat.mul_le_mul_right _ (by omega)

/-- R222 for the codec. -/
theorem decode_encode_mono {a b : Nat} (h : a ≤ b) :
    c.decode (c.encode a).1 (c.encode a).2 ≤ c.decode (c.encode b).1 (c.encode b).2 :=
  c.decode_mono (c.encode_lt a).1 (c.encode_mono h)

/-- Decoding is flooring the word's value to a whole number of units. -/
theorem decode_eq (m e : Nat) : c.decode m e = (c.base + m) * (Config.fxoscHz * 2 ^ e) / 2 ^ c.shift := by
  rw [decode, Nat.mul_assoc, Nat.mul_comm (2 ^ e)]

/-- R221: within the range the decoded value is within the larger of a unit and a step of the input. -/
theorem decode_encode_within {x : Nat} (hlow : c.base ≤ c.word x 0)
    (hhigh : c.word x (c.count - 1) < 2 * c.base) :
    c.decode (c.encode x).1 (c.encode x).2 * 2 ^ c.shift ≤
      x * 2 ^ c.shift + max (2 ^ c.shift) (Config.fxoscHz * 2 ^ (c.encode x).2) ∧
    x * 2 ^ c.shift ≤ c.decode (c.encode x).1 (c.encode x).2 * 2 ^ c.shift +
      max (2 ^ c.shift) (Config.fxoscHz * 2 ^ (c.encode x).2) := by
  obtain ⟨e, -, hbefore, -, henc⟩ | ⟨hnone, -⟩ := c.encode_cases x
  · have hbase : c.base ≤ c.word x e := by
      cases e with
      | zero => exact hlow
      | succ e => exact c.base_le_word_succ (hbefore e (Nat.lt_succ_self e))
    rw [henc, decode_eq, Nat.add_sub_cancel' hbase]
    exact floor_rnd_within_max x (step_pos e) (Nat.two_pow_pos _)
  · have hcount := c.count_pos
    have := hnone (c.count - 1) (by omega)
    omega

/-- A step of exponent e is at least two units, and the exponent's least setting fits at no smaller exponent. -/
abbrev SettingsApart (e : Nat) : Prop :=
  2 * 2 ^ c.shift ≤ Config.fxoscHz * 2 ^ e ∧ ∀ e' < e, 2 * c.base ≤ c.word (c.decode 0 e) e'

/-- R221: a setting survives decoding and encoding where the settings of its exponent are that far apart. -/
theorem encode_decode {m e : Nat} (hm : m < c.base) (he : e < c.count) (hapart : c.SettingsApart e) :
    c.encode (c.decode m e) = (m, e) := by
  obtain ⟨hstep, hleast⟩ := hapart
  have hword : c.word (c.decode m e) e = c.base + m := by
    rw [word, decode_eq]
    exact rnd_floor _ (Nat.two_pow_pos _) hstep
  have hdec : c.decode 0 e ≤ c.decode m e :=
    c.decode_mono (p := (0, e)) (q := (m, e)) c.base_pos (.inr ⟨rfl, Nat.zero_le m⟩)
  obtain ⟨e₁, -, hbefore, hfit, henc⟩ | ⟨hnone, -⟩ := c.encode_cases (c.decode m e)
  · rcases Nat.lt_trichotomy e₁ e with hlt | rfl | hgt
    · have := hleast e₁ hlt
      have := c.word_mono e₁ hdec
      omega
    · rw [henc, hword, Nat.add_sub_cancel_left]
    · have := hbefore e hgt
      omega
  · have := hnone e he
    omega

/-- R221: encoding, decoding and encoding again gives the setting of the first encoding. -/
theorem encode_decode_encode {x : Nat} (hapart : c.SettingsApart (c.encode x).2) :
    c.encode (c.decode (c.encode x).1 (c.encode x).2) = c.encode x :=
  c.encode_decode (c.encode_lt x).1 (c.encode_lt x).2 hapart

end FloatCodec

/-- The data-rate codec (R214, R215). -/
def drateCodec : FloatCodec := ⟨28, 256, 16, by decide, by decide⟩

theorem encDrate_eq_encode (x : Nat) : encDrate x = drateCodec.encode x := rfl

theorem decDrate_eq_decode (m e : Nat) : decDrate m e = drateCodec.decode m e := rfl

/-- The deviation codec (R216, R217). -/
def devCodec : FloatCodec := ⟨17, 8, 8, by decide, by decide⟩

theorem encDev_eq_encode (x : Nat) : encDev x = devCodec.encode x := rfl

theorem decDev_eq_decode (m e : Nat) : decDev m e = devCodec.decode m e := rfl

/-! The deviation codec (R216, R217). -/

theorem devCodec_settingsApart : ∀ e < 8, devCodec.SettingsApart e := by decide

theorem devWithinStep_of_range {dev : Nat} (hlow : 1587 ≤ dev) (hhigh : dev ≤ 380859) : devWithinStep dev := by
  have h0 : 8 ≤ devCodec.word 1587 0 := by decide
  have h7 : devCodec.word 380859 7 < 16 := by decide
  have hunit : 2 ^ 17 ≤ Config.fxoscHz * 2 ^ (encDev dev).2 := by
    have := Nat.two_pow_pos (encDev dev).2
    rw [show Config.fxoscHz = 26000000 from rfl]
    omega
  have h := devCodec.decode_encode_within (h0.trans (devCodec.word_mono 0 hlow))
    ((devCodec.word_mono 7 hhigh).trans_lt h7)
  rwa [← encDev_eq_encode, ← decDev_eq_decode, show devCodec.shift = 17 from rfl, Nat.max_eq_right hunit] at h

/-- Settles O28. The clamps follow from the encoder's monotonicity and its values at 1586 and 380860. -/
theorem deviationRoundTrip : Obligations.DeviationRoundTrip := by
  refine ⟨fun m hm e he => devCodec.encode_decode hm he (devCodec_settingsApart e he),
    fun dev => devWithinStep_of_range, fun dev h => ?low, fun dev h => ?high⟩
  case low =>
    have hedge : encDev 1586 = (0, 0) := by decide
    have hle : SettingLe (encDev dev) (encDev 1586) := devCodec.encode_mono (by omega)
    exact settingLe_antisymm (hedge ▸ hle) (settingLe_zero _)
  case high =>
    have hedge : encDev 380860 = (7, 7) := by decide
    have hle : SettingLe (encDev 380860) (encDev dev) := devCodec.encode_mono h
    exact settingLe_antisymm (devCodec.settingLe_largest dev) (hedge ▸ hle)

/-! The data-rate codec (R214, R215). -/

/-- Settles O30, by the two ends of the search. -/
theorem dataRateTakesSmallestExponent : Obligations.DataRateTakesSmallestExponent := by
  intro baud m e henc
  obtain ⟨hm, he⟩ := encDrate_lt baud
  rw [henc] at hm he
  rw [encDrate_eq_encode] at henc
  refine ⟨hm, he, ?_⟩
  obtain ⟨e₁, -, hbefore, hfit, hfound⟩ | ⟨hnone, hclamp⟩ := drateCodec.encode_cases baud
  · rw [henc, Prod.mk.injEq] at hfound
    obtain ⟨hmant, rfl⟩ := hfound
    refine ⟨hbefore, fun _ => ⟨hmant, fun hpos => ?_⟩, fun hlarge => absurd hfit (Nat.not_lt.mpr hlarge)⟩
    obtain ⟨e₀, rfl⟩ := Nat.exists_eq_add_one.mpr hpos
    exact drateCodec.base_le_word_succ (hbefore e₀ (Nat.lt_succ_self e₀))
  · rw [henc, Prod.mk.injEq] at hclamp
    obtain ⟨rfl, rfl⟩ := hclamp
    exact ⟨fun e' he' => hnone e' (he'.trans he),
      fun hfit => absurd (hnone _ he) (Nat.not_le.mpr (Nat.lt_succ_of_le hfit)), fun _ => ⟨rfl, rfl⟩⟩

theorem drateCodec_settingsApart : ∀ e < 16, 5 ≤ e → drateCodec.SettingsApart e := by decide

theorem drateWithinStep_of_range {baud : Nat} (hlow : 25 ≤ baud) (hhigh : baud ≤ 1621826) :
    drateWithinStep baud := by
  have h0 : 256 ≤ drateCodec.word 25 0 := by decide
  have h15 : drateCodec.word 1621826 15 < 512 := by decide
  exact drateCodec.decode_encode_within (h0.trans (drateCodec.word_mono 0 hlow))
    ((drateCodec.word_mono 15 hhigh).trans_lt h15)

theorem encDrate_of_le {x : Nat} (h : x ≤ 24) : encDrate x = (0, 0) := by
  have hedge : encDrate 24 = (0, 0) := by decide
  have hle : SettingLe (encDrate x) (encDrate 24) := drateCodec.encode_mono h
  exact settingLe_antisymm (hedge ▸ hle) (settingLe_zero _)

theorem five_le_drate_exponent {x : Nat} (h : 793 ≤ x) : 5 ≤ (encDrate x).2 := by
  have hedge : encDrate 793 = (0, 5) := by decide
  have hle : SettingLe (encDrate 793) (encDrate x) := drateCodec.encode_mono h
  rw [hedge] at hle
  unfold SettingLe at hle
  dsimp only at hle
  omega

theorem drateStable_of_le {x : Nat} (h : x ≤ 24) : drateStable x := by
  unfold drateStable
  rw [encDrate_of_le h]
  decide

theorem drateStable_of_ge {x : Nat} (h : 793 ≤ x) : drateStable x := by
  have hexp := five_le_drate_exponent h
  have hlt := (encDrate_lt x).2
  unfold drateStable
  simp only [encDrate_eq_encode, decDrate_eq_decode] at hexp hlt ⊢
  exact drateCodec.encode_decode_encode (drateCodec_settingsApart _ hlt hexp)

/-- How many of the `n` rates from `a` up do not survive decoding and encoding. -/
def unstableRates (a n : Nat) : Nat := ((List.range' a n).filter fun x => ¬drateStable x).length

theorem unstableRates_add (a n k : Nat) : unstableRates a (n + k) = unstableRates a n + unstableRates (a + n) k := by
  rw [unstableRates, ← List.range'_append_1, List.filter_append, List.length_append, unstableRates, unstableRates]

/-- The count, exponent by exponent. -/
theorem unstableRates_exponents : unstableRates 25 25 = 13 ∧ unstableRates 50 50 = 26 ∧
    unstableRates 100 99 = 50 ∧ unstableRates 199 198 = 99 ∧ unstableRates 397 396 = 59 := by decide

theorem unstableRates_total : unstableRates 25 768 = 247 := by
  obtain ⟨h0, h1, h2, h3, h4⟩ := unstableRates_exponents
  calc unstableRates 25 (25 + 50 + 99 + 198 + 396) = 13 + 26 + 50 + 99 + 59 := by
        simp only [unstableRates_add, h0, h1, h2, h3, h4]

/-- Settles O31. The rates that are not stable are counted exponent by exponent. -/
theorem dataRateRoundTrip : Obligations.DataRateRoundTrip :=
  ⟨fun _ => drateWithinStep_of_range, fun _ h => h.elim drateStable_of_le drateStable_of_ge,
    fun _ => five_le_drate_exponent, unstableRates_total⟩

/-! The channel bandwidth codec (R218, R219). -/

/-- The denominator 8 (4 + m) 2^e of the setting k = 4e + m (R218). -/
def chanbwDenominator (k : Nat) : Nat := 8 * (4 + k % 4) * 2 ^ (k / 4)

/-- Setting k is at least as wide as the request. -/
def Covers (bw k : Nat) : Prop := bw * chanbwDenominator k ≤ Config.fxoscHz

theorem chanbwDenominator_setting {m : Nat} (e : Nat) (hm : m < 4) :
    chanbwDenominator (4 * e + m) = 8 * (4 + m) * 2 ^ e := by
  have hmant : (4 * e + m) % 4 = m := by omega
  have hexp : (4 * e + m) / 4 = e := by omega
  rw [chanbwDenominator, hmant, hexp]

theorem chanbwDenominator_mono {k k' : Nat} (h : k ≤ k') : chanbwDenominator k ≤ chanbwDenominator k' := by
  refine monotone_nat_of_le_succ (fun k => ?_) h
  unfold chanbwDenominator
  by_cases hlast : k % 4 = 3
  · have hmant : (k + 1) % 4 = 0 := by omega
    have hexp : (k + 1) / 4 = k / 4 + 1 := by omega
    rw [hlast, hmant, hexp, Nat.pow_succ]
    omega
  · have hexp : (k + 1) / 4 = k / 4 := by omega
    rw [hexp]
    exact Nat.mul_le_mul_right _ (by omega)

/-- The widest setting covers the requests up to 812 500 Hz (R218). -/
theorem covers_zero_iff (bw : Nat) : Covers bw 0 ↔ bw ≤ 812500 := by
  simp only [Covers, chanbwDenominator, Config.fxoscHz]
  omega

theorem Covers.of_le {a b k k' : Nat} (h : Covers b k') (hab : a ≤ b) (hk : k ≤ k') : Covers a k :=
  (Nat.mul_le_mul hab (chanbwDenominator_mono hk)).trans h

theorem chanbwSearch_succ (bw k : Nat) :
    (Covers bw k → chanbwSearch bw (k + 1) = (k % 4, k / 4)) ∧
    (¬Covers bw k → chanbwSearch bw (k + 1) = chanbwSearch bw k) := by
  have hcond : bw * 8 * (4 + k % 4) * 2 ^ (k / 4) ≤ Config.fxoscHz ↔ Covers bw k := by
    rw [Covers, chanbwDenominator, ← Nat.mul_assoc, ← Nat.mul_assoc]
  exact ⟨fun h => if_pos (hcond.mpr h), fun h => if_neg (mt hcond.mp h)⟩

/-- The search gives the last setting that covers the request, and the first setting where none does. -/
theorem chanbwSearch_spec (bw n : Nat) : ∃ k ≤ n, chanbwSearch bw (n + 1) = (k % 4, k / 4) ∧
    (∀ i, k < i → i ≤ n → ¬Covers bw i) ∧ (Covers bw k ∨ k = 0) := by
  induction n with
  | zero =>
    refine ⟨0, le_rfl, ?_, fun i hpos hzero => absurd hpos (Nat.not_lt.mpr hzero), .inr rfl⟩
    by_cases h : Covers bw 0
    · exact (chanbwSearch_succ bw 0).1 h
    · exact (chanbwSearch_succ bw 0).2 h
  | succ n ih =>
    by_cases h : Covers bw (n + 1)
    · exact ⟨n + 1, le_rfl, (chanbwSearch_succ bw _).1 h,
        fun i hlt hle => absurd hlt (Nat.not_lt.mpr hle), .inl h⟩
    · obtain ⟨k, hk, hsearch, hlater, hcovers⟩ := ih
      refine ⟨k, Nat.le_succ_of_le hk, ((chanbwSearch_succ bw _).2 h).trans hsearch, fun i hlt hle => ?_, hcovers⟩
      rcases Nat.le_succ_iff.mp hle with hle | rfl
      · exact hlater i hlt hle
      · exact h

/-- The encoder's setting by its index (R218). -/
theorem encChanbw_spec (bw : Nat) : ∃ k < 16, encChanbw bw = (k % 4, k / 4) ∧
    (∀ i, k < i → i < 16 → ¬Covers bw i) ∧ (Covers bw k ∨ k = 0) := by
  obtain ⟨k, hk, hsearch, hlater, hcovers⟩ := chanbwSearch_spec bw 15
  exact ⟨k, Nat.lt_succ_of_le hk, hsearch, fun i hlt hi => hlater i hlt (Nat.le_of_lt_succ hi), hcovers⟩

/-- Settles O29: the encoder's index is the last that covers the request, or 0. -/
theorem channelBandwidthCoversRequest : Obligations.ChannelBandwidthCoversRequest := by
  refine ⟨by decide, fun bw m e henc => ?_⟩
  obtain ⟨k, hk, hsetting, hlater, hcovers⟩ := encChanbw_spec bw
  rw [henc, Prod.mk.injEq] at hsetting
  obtain ⟨rfl, rfl⟩ := hsetting
  refine ⟨by omega, by omega, fun hbw => ⟨?covered, fun m' hm' e' he' hlt => ?narrowest⟩, fun hbw => ?clamp⟩
  case covered =>
    rcases hcovers with hcovers | rfl
    · exact hcovers
    · exact (covers_zero_iff bw).mpr hbw
  case narrowest =>
    rw [← chanbwDenominator_setting e' hm']
    exact Nat.not_le.mp (hlater _ (by omega) (by omega))
  case clamp =>
    rcases hcovers with hcovers | rfl
    · have := (covers_zero_iff bw).mp (hcovers.of_le le_rfl (Nat.zero_le k))
      omega
    · exact ⟨rfl, rfl⟩

/-! Monotonicity (R222). -/

theorem decChanbw_encChanbw_mono {a b : Nat} (h : a ≤ b) :
    decChanbw (encChanbw a).1 (encChanbw a).2 ≤ decChanbw (encChanbw b).1 (encChanbw b).2 := by
  obtain ⟨ka, -, hsettinga, hlater, -⟩ := encChanbw_spec a
  obtain ⟨kb, hkb, hsettingb, -, hcovers⟩ := encChanbw_spec b
  have hle : kb ≤ ka := by
    rcases hcovers with hcovers | rfl
    · by_contra hlt
      exact hlater kb (Nat.not_le.mp hlt) hkb (hcovers.of_le h le_rfl)
    · exact Nat.zero_le ka
  rw [hsettinga, hsettingb]
  exact Nat.div_le_div_left (chanbwDenominator_mono hle) (Nat.mul_pos (by omega) (Nat.two_pow_pos _))

theorem le_decChanbw_encChanbw {w : Nat} (h : w ≤ 812500) : w ≤ decChanbw (encChanbw w).1 (encChanbw w).2 := by
  obtain ⟨-, hspec⟩ := channelBandwidthCoversRequest
  obtain ⟨-, -, hcovered, -⟩ := hspec w _ _ rfl
  exact (Nat.le_div_iff_mul_le (Nat.mul_pos (by omega) (Nat.two_pow_pos _))).mpr (hcovered h).1

/-- Settles O32: a larger input takes a setting no earlier in the order of the codec's values. -/
theorem encodersAreMonotone : Obligations.EncodersAreMonotone :=
  ⟨fun _ _ => encFreq_mono, fun _ _ => drateCodec.decode_encode_mono, fun _ _ => devCodec.decode_encode_mono,
    fun _ _ => decChanbw_encChanbw_mono, fun _ => le_decChanbw_encChanbw⟩

/-! The rounding tie (R220). -/

/-- The two roundings differ at an exact half only. -/
theorem rnd_eq_rndHalfDown {a b : Nat} (hb : 0 < b) (h : ¬2 * b ∣ 2 * a + b) : rnd a b = rndHalfDown a b := by
  have hsucc : 2 * a + b - 1 + 1 = 2 * a + b := by omega
  rw [rnd, rndHalfDown, ← hsucc]
  exact Nat.succ_div_of_not_dvd (by rwa [hsucc])

/-- F is an odd multiple of 2^7, so no step F * 2^e is met half-way by a multiple of a power of two above it. -/
theorem no_rounding_tie (x : Nat) {s e : Nat} (h : e + 7 ≤ s) :
    ¬2 * (Config.fxoscHz * 2 ^ e) ∣ 2 * (x * 2 ^ s) + Config.fxoscHz * 2 ^ e := by
  obtain ⟨d, rfl⟩ := Nat.exists_eq_add_of_le h
  have hodd : ¬2 ∣ 2 * (x * 2 ^ d) + 203125 := by omega
  have hstep : Config.fxoscHz * 2 ^ e = 203125 * 2 ^ (e + 7) := by rw [Config.fxoscHz]; ring
  have hsum : 2 * (x * 2 ^ (e + 7 + d)) + 203125 * 2 ^ (e + 7) = (2 * (x * 2 ^ d) + 203125) * 2 ^ (e + 7) := by ring
  rw [hstep, hsum, ← Nat.mul_assoc]
  intro hdvd
  exact hodd ((Nat.dvd_mul_right 2 203125).trans (Nat.dvd_of_mul_dvd_mul_right (Nat.two_pow_pos _) hdvd))

/-- No call of `rnd` at the step F * 2^e meets a half, for inputs scaled by 2^s. -/
theorem rnd_step_eq_rndHalfDown (x : Nat) {s e : Nat} (h : e + 7 ≤ s) :
    rnd (x * 2 ^ s) (Config.fxoscHz * 2 ^ e) = rndHalfDown (x * 2 ^ s) (Config.fxoscHz * 2 ^ e) :=
  rnd_eq_rndHalfDown (step_pos e) (no_rounding_tie x h)

theorem encSearch_eq_halfDown {x base top : Nat} {l : List Nat}
    (h : ∀ e ∈ l, rnd x (Config.fxoscHz * 2 ^ e) = rndHalfDown x (Config.fxoscHz * 2 ^ e)) :
    encSearch x base top l = encSearchHalfDown x base top l := by
  induction l with
  | nil => rfl
  | cons e es ih =>
    obtain ⟨hhead, htail⟩ := List.forall_mem_cons.mp h
    rw [encSearch, encSearchHalfDown, hhead, ih htail]

/-- Settles O33: 2^16, 2^28 and 2^17 are at least 2^7 times the largest exponent factor of their codec. -/
theorem tieBreakNeverFires : Obligations.TieBreakNeverFires := by
  refine ⟨fun x => ?_, by decide⟩
  have hfreq := rnd_step_eq_rndHalfDown x (s := 16) (e := 0) (by decide)
  have hdrate : ∀ e < 16, rnd (x * 2 ^ 28) (Config.fxoscHz * 2 ^ e) =
      rndHalfDown (x * 2 ^ 28) (Config.fxoscHz * 2 ^ e) :=
    fun e he => rnd_step_eq_rndHalfDown x (by omega)
  have hdev : ∀ e < 8, rnd (x * 2 ^ 17) (Config.fxoscHz * 2 ^ e) =
      rndHalfDown (x * 2 ^ 17) (Config.fxoscHz * 2 ^ e) :=
    fun e he => rnd_step_eq_rndHalfDown x (by omega)
  rw [Nat.pow_zero, Nat.mul_one, ← encFreq] at hfreq
  refine ⟨hfreq, hdrate, ?_, hdev, ?_⟩
  · rw [encDrate, encSearch_eq_halfDown fun e he => hdrate e (List.mem_range.mp he)]
  · rw [encDev, encSearch_eq_halfDown fun e he => hdev e (List.mem_range.mp he)]

end Sys2Proof.Machine
end

section
/-! PROOFS. 43_configuration.md: one step of a configuration command (R240 to R248; 41_field_codecs.md R185 to R188).
The two blocks of each command are said once; that of the codec commands for the pair `(m, e)` the codec gives. -/

namespace Sys2Proof.Machine

/-! First blocks. -/

/-- The three bytes of the frequency word, the lowest first (R240). -/
theorem exec_setfreq_first {pos : Position} {s : State} (h : AtBlock 0 pos s) :
    exec .setfreq s = .next (callThen 1
      [.writeReg s.par.chip.config.freq0 (BitVec.ofNat 8 (encFreq (argQuantity s))),
       .writeReg s.par.chip.config.freq1 (BitVec.ofNat 8 (encFreq (argQuantity s) / 2 ^ 8)),
       .writeReg s.par.chip.config.freq2 (BitVec.ofNat 8 (encFreq (argQuantity s) / 2 ^ 16))] pos s) := by
  obtain ⟨hlow, hmid, hhigh⟩ := freqBytes (encFreq (argQuantity s))
  exact exec_atBlock rfl h fun hk => by simp only [commandBody, bodySetfreq, hk, hlow, hmid, hhigh]

/-- DEVIATN built from its default (R241). -/
theorem exec_setdev_first {pos : Position} {s : State} {m e : Nat} (h : AtBlock 0 pos s)
    (hme : encDev (argQuantity s) = (m, e)) :
    exec .setdev s = .next (callThen 1
      [.writeReg s.par.chip.config.deviatn
        (fieldBuild s.par.defDeviatn [(fieldDeviationM, m), (fieldDeviationE, e)])] pos s) :=
  exec_atBlock rfl h fun hk => by simp only [commandBody, bodySetdev, hk, hme]

/-- The exponent into MDMCFG4, the mantissa into MDMCFG3 (R242). -/
theorem exec_setdrate_first {pos : Position} {s : State} {m e : Nat} (h : AtBlock 0 pos s)
    (hme : encDrate (argQuantity s) = (m, e)) :
    exec .setdrate s = .next (callThen 1
      [.modifyReg s.par.chip.config.mdmcfg4 0x0F#8 (BitVec.ofNat 8 e),
       .writeReg s.par.chip.config.mdmcfg3 (BitVec.ofNat 8 m)] pos s) := by
  have he : e < 16 := by
    have hlt := encDrate_lt (argQuantity s)
    rw [hme] at hlt
    exact hlt.2
  exact exec_atBlock rfl h fun hk => by
    simp only [commandBody, bodySetdrate, hk, hme, drateCall _ he, mdmcfg3Byte]

/-- Both bandwidth fields of MDMCFG4 (R243). -/
theorem exec_setchanbw_first {pos : Position} {s : State} {m e : Nat} (h : AtBlock 0 pos s)
    (hme : encChanbw (argQuantity s) = (m, e)) :
    exec .setchanbw s = .next (callThen 1
      [.modifyReg s.par.chip.config.mdmcfg4 0xF0#8 (BitVec.ofNat 8 (64 * e + 16 * m))] pos s) := by
  obtain ⟨hm, he⟩ : m < 4 ∧ e < 4 := by
    have hlt := encChanbw_lt (argQuantity s)
    rwa [hme] at hlt
  exact exec_atBlock rfl h fun hk => by simp only [commandBody, bodySetchanbw, hk, hme, chanbwCall _ hm he]

/-- The sync word's bytes, each chosen by the selector (41_field_codecs.md R185). -/
theorem argSyncWord_eq (s : State) :
    argSyncWord s = (if argSel2 s = 0#2 then s.par.defSync1 else argHigh s,
      if argSel2 s = 0#2 then s.par.defSync0 else argLow s) := by
  rw [argSyncWord]
  split <;> rfl

/-- The mode by the table of R185, then the two bytes of the sync word (R244). -/
theorem exec_setsync_first {pos : Position} {s : State} {mode : Byte} (h : AtBlock 0 pos s)
    (hmode : (argSel2 s, mode) ∈ [(0#2, 0#8), (1#2, 1#8), (2#2, 3#8), (3#2, 2#8)]) :
    exec .setsync s = .next (callThen 1
      [.modifyReg s.par.chip.config.mdmcfg2 0x07#8 mode,
       .writeReg s.par.chip.config.sync1 (if argSel2 s = 0#2 then s.par.defSync1 else argHigh s),
       .writeReg s.par.chip.config.sync0 (if argSel2 s = 0#2 then s.par.defSync0 else argLow s)] pos s) :=
  exec_atBlock rfl h fun hk => by
    simp only [commandBody, bodySetsync, hk, syncCall _ _ _ hmode, argSyncWord_eq]

/-- The modulation by the table of R186, which has no row for the selectors 5 to 7 (R245). -/
theorem exec_setmod_first {pos : Position} {s : State} {code : Byte} (h : AtBlock 0 pos s)
    (hcode : (argSel3 s, code) ∈
      [(0#3, 0x00#8), (1#3, 0x10#8), (2#3, 0x30#8), (3#3, 0x40#8), (4#3, 0x70#8)]) :
    exec .setmod s = .next (callThen 1 [.modifyReg s.par.chip.config.mdmcfg2 0x70#8 code] pos s) := by
  obtain ⟨c, hc, hcall⟩ := modCall s.par.chip.config.mdmcfg2 _ _ hcode
  exact exec_atBlock rfl h fun hk => by simp only [commandBody, bodySetmod, hk, hc, hcall]

/-- The selector is the address check's code (R246; 41_field_codecs.md R187). -/
theorem exec_setaddrfilt_first {pos : Position} {s : State} (h : AtBlock 0 pos s) :
    exec .setaddrfilt s = .next (callThen 1
      [.modifyReg s.par.chip.config.pktctrl1 0x03#8 ((argSel2 s).setWidth 8),
       .writeReg s.par.chip.config.addr (argFiltAddr s)] pos s) :=
  exec_atBlock rfl h fun hk => by simp only [commandBody, bodySetaddrfilt, hk, addrCall]

/-- The selector is the length mode's code; 3 is refused (R247; 41_field_codecs.md R188). -/
theorem exec_setpktlen_first {pos : Position} {s : State} (h : AtBlock 0 pos s) (hsel : argSel2 s ≠ 3#2) :
    exec .setpktlen s = .next (callThen 1
      [.modifyReg s.par.chip.config.pktctrl0 0x03#8 ((argSel2 s).setWidth 8),
       .writeReg s.par.chip.config.pktlen (argPktLen s)] pos s) := by
  obtain ⟨c, hc, hcall⟩ := pktlenCall s.par.chip.config.pktctrl0 _ hsel
  exact exec_atBlock rfl h fun hk => by simp only [commandBody, bodySetpktlen, hk, hc, hcall]

theorem exec_setdefaults_first {pos : Position} {s : State} (h : AtBlock 0 pos s) :
    exec .setdefaults s = .next (callThen 1 (s.par.baseline.map fun bv => .writeReg bv.1 bv.2) pos s) :=
  exec_atBlock rfl h fun hk => by simp only [commandBody, bodySetdefaults, hk]

/-! Last blocks. -/

theorem exec_setfreq_last {pos : Position} {s : State} (h : AtBlock 1 pos s) :
    exec .setfreq s = .next (ended .ok { s with res0 := BitVec.ofNat 32 (encFreq (argQuantity s)) }) :=
  exec_atBlock rfl h fun hk => by
    simp only [commandBody, bodySetfreq, hk, raise_ok, freqWord (encFreq_lt (hz := argQuantity s) s.arg0.isLt)]

theorem exec_setdev_last {pos : Position} {s : State} {m e : Nat} (h : AtBlock 1 pos s)
    (hme : encDev (argQuantity s) = (m, e)) :
    exec .setdev s = .next (ended .ok { s with res0 := BitVec.ofNat 32 m, res1 := BitVec.ofNat 32 e }) :=
  exec_atBlock rfl h fun hk => by simp only [commandBody, bodySetdev, hk, raise_ok, hme]

theorem exec_setdrate_last {pos : Position} {s : State} {m e : Nat} (h : AtBlock 1 pos s)
    (hme : encDrate (argQuantity s) = (m, e)) :
    exec .setdrate s = .next (ended .ok { s with res0 := BitVec.ofNat 32 m, res1 := BitVec.ofNat 32 e }) :=
  exec_atBlock rfl h fun hk => by simp only [commandBody, bodySetdrate, hk, raise_ok, hme]

theorem exec_setchanbw_last {pos : Position} {s : State} {m e : Nat} (h : AtBlock 1 pos s)
    (hme : encChanbw (argQuantity s) = (m, e)) :
    exec .setchanbw s = .next (ended .ok { s with res0 := BitVec.ofNat 32 m, res1 := BitVec.ofNat 32 e }) :=
  exec_atBlock rfl h fun hk => by simp only [commandBody, bodySetchanbw, hk, raise_ok, hme]

/-- The commands of R244 to R248 write no result register. -/
theorem exec_last_without_result {i : Instr}
    (hi : i ∈ [Instr.setsync, .setmod, .setaddrfilt, .setpktlen, .setdefaults])
    {pos : Position} {s : State} (h : AtBlock 1 pos s) : exec i s = .next (ended .ok s) := by
  obtain ⟨hcmd, hbody⟩ : i.isCommand = true ∧ (pos.k = 1 → commandBody i pos s = raise .ok s) := by
    simp only [List.mem_cons, List.not_mem_nil, or_false] at hi
    rcases hi with rfl | rfl | rfl | rfl | rfl <;> refine ⟨rfl, fun hk => ?_⟩
    · simp only [commandBody, bodySetsync, hk]
    · simp only [commandBody, bodySetmod, hk]
    · simp only [commandBody, bodySetaddrfilt, hk]
    · simp only [commandBody, bodySetpktlen, hk]
    · simp only [commandBody, bodySetdefaults, hk]
  exact exec_atBlock hcmd h fun hk => (hbody hk).trans (raise_ok s)

/-- Settles O42: the blocks of the nine commands, a codec's pair being its two components. -/
theorem configurationCommandBlocks : Obligations.ConfigurationCommandBlocks := by
  intro pos s
  refine ⟨fun h => ?first, fun h => ?last⟩
  case first =>
    refine ⟨exec_setfreq_first h, exec_setdev_first h Prod.mk.eta.symm, exec_setdrate_first h Prod.mk.eta.symm,
      ?setchanbw, fun mode hmode => exec_setsync_first h hmode, fun code hcode => exec_setmod_first h hcode,
      exec_setaddrfilt_first h, exec_setpktlen_first h, exec_setdefaults_first h⟩
    case setchanbw =>
      rw [Nat.mul_comm _ 64, Nat.mul_comm _ 16]
      exact exec_setchanbw_first h Prod.mk.eta.symm
  case last =>
    exact ⟨exec_setfreq_last h, exec_setdev_last h Prod.mk.eta.symm, exec_setdrate_last h Prod.mk.eta.symm,
      exec_setchanbw_last h Prod.mk.eta.symm, fun i hi => exec_last_without_result hi h⟩

end Sys2Proof.Machine
end

section
/-! PROOFS. 43_configuration.md: the configuration commands from acceptance to completion (R240 to R248). Each is two
blocks with a list of register writes between them, or one read-modify-write and such a list. -/

namespace Sys2Proof.Machine

theorem inRun_sentWrites {i : Instr} (pairs : List (Base × Byte)) {x : State} (hx : InRun i x) :
    InRun i (sentWrites pairs x) := by
  induction pairs generalizing x with
  | nil => exact hx
  | cons bv pairs ih => exact ih (inRun_sentWrite hx _)

/-- The register writes of a list, and the last block after them. -/
theorem reaches_writes_last {i : Instr} {x t : State} {rx pl : List Byte} {o n p q : Byte}
    (pairs : List (Base × Byte)) (hx : InRun i x) (hbus : BusOk (3 * pairs.length) x)
    (hlast : ∀ pos, AtBlock 1 pos (setPos pos (sentWrites pairs x)) →
      exec i (setPos pos (sentWrites pairs x)) = .next t) :
    Reaches (setPos ⟨1, pairs.map (fun bv => .writeReg bv.1 bv.2), none, rx, pl, o, n, p, q⟩ x) t := by
  rw [← List.append_nil (pairs.map _)]
  exact (call_writeRegs pairs hx hbus).trans
    (Reaches.of_exec (inRun_sentWrites pairs hx) (atBlock_one _) (hlast _ (atBlock_one _)) (Reaches.refl t))

/-- The run of a command whose first block writes the registers of a list. -/
theorem reaches_of_writes {w : Byte} {i : Instr} {s t : State} (h : Started w s) (hd : decodeCommand w = .ok i)
    (pairs : List (Base × Byte)) (hbus : BusOk (3 * pairs.length) s)
    (hfirst : exec i s = .next (callThen 1 (pairs.map fun bv => .writeReg bv.1 bv.2) Position.start s))
    (hlast : ∀ pos, AtBlock 1 pos (setPos pos (sentWrites pairs s)) →
      exec i (setPos pos (sentWrites pairs s)) = .next t) : Reaches s t :=
  have hx : InRun i s := h.inRun hd
  Reaches.of_exec hx h.atBlock hfirst (reaches_writes_last pairs hx hbus hlast)

/-- The run of a command whose first block rewrites fields of one register and then writes the registers of a list. -/
theorem reaches_of_modify_writes {w : Byte} {i : Instr} {s t : State} {a : Base} {mask value : Byte}
    (h : Started w s) (hd : decodeCommand w = .ok i) (pairs : List (Base × Byte))
    (hbus : BusOk (6 + 3 * pairs.length) s)
    (hfirst : exec i s = .next
      (callThen 1 (.modifyReg a mask value :: pairs.map fun bv => .writeReg bv.1 bv.2) Position.start s))
    (hlast : ∀ pos, AtBlock 1 pos (setPos pos (sentWrites pairs (sentModify a mask value s))) →
      exec i (setPos pos (sentWrites pairs (sentModify a mask value s))) = .next t) : Reaches s t := by
  have hx : InRun i s := h.inRun hd
  have hbus' : BusOk (3 * pairs.length) (sentModify a mask value s) :=
    BusOk.afterWrite (BusOk.afterRead (hbus.le (by omega)))
  exact Reaches.of_exec hx h.atBlock hfirst
    ((call_modifyReg hx (hbus.le (by omega))).trans (reaches_writes_last pairs hx hbus' hlast))

/-- Settles O50: three register writes of the frequency word, one of the deviation byte. -/
theorem frequencyAndDeviationRun : Obligations.FrequencyAndDeviationRun := by
  intro s
  refine ⟨fun r h hr hbus => ?setfreq, fun m e h hme hbus => ?setdev⟩
  case setfreq =>
    subst hr
    exact reaches_of_writes h rfl [(_, _), (_, _), (_, _)] hbus (exec_setfreq_first h.atBlock)
      fun _ => exec_setfreq_last
  case setdev =>
    obtain ⟨hm, he⟩ : m < 8 ∧ e < 8 := by
      have hlt := encDev_lt s.arg0.toNat
      rwa [hme] at hlt
    rw [← deviatnByte s.par.defDeviatn hm he]
    exact reaches_of_writes h rfl [(_, _)] hbus (exec_setdev_first h.atBlock hme)
      fun _ hlast => exec_setdev_last hlast hme

/-- Settles O51: the read-modify-write of MDMCFG4, for SETDRATE with the write of MDMCFG3 after it. -/
theorem dataRateAndBandwidthRun : Obligations.DataRateAndBandwidthRun := by
  intro s m e
  refine ⟨fun h hme hbus => ?setdrate, fun h hme hbus => ?setchanbw⟩
  case setdrate =>
    exact reaches_of_modify_writes h rfl [(_, _)] hbus (exec_setdrate_first h.atBlock hme)
      fun _ hlast => exec_setdrate_last hlast hme
  case setchanbw =>
    exact reaches_of_modify_writes h rfl [] hbus (exec_setchanbw_first h.atBlock hme)
      fun _ hlast => exec_setchanbw_last hlast hme

/-- Settles O52: the read-modify-write of the selector's field, with two, no or one register write after it. -/
theorem selectorCommandsRun : Obligations.SelectorCommandsRun := by
  intro s
  refine ⟨fun sel mode hi lo h hsel hmode hhi hlo hbus => ?setsync, fun sel code h hsel hcode hbus => ?setmod,
    fun sel a h hsel ha hbus => ?setaddrfilt, fun sel n h hsel hne hn hbus => ?setpktlen⟩
  case setsync =>
    subst hsel hhi hlo
    exact reaches_of_modify_writes h rfl [(_, _), (_, _)] hbus (exec_setsync_first h.atBlock hmode)
      fun _ => exec_last_without_result (by decide)
  case setmod =>
    subst hsel
    exact reaches_of_modify_writes h rfl [] hbus (exec_setmod_first h.atBlock hcode)
      fun _ => exec_last_without_result (by decide)
  case setaddrfilt =>
    subst hsel ha
    exact reaches_of_modify_writes h rfl [(_, _)] hbus (exec_setaddrfilt_first h.atBlock)
      fun _ => exec_last_without_result (by decide)
  case setpktlen =>
    subst hsel hn
    exact reaches_of_modify_writes h rfl [(_, _)] hbus (exec_setpktlen_first h.atBlock hne)
      fun _ => exec_last_without_result (by decide)

/-- Settles O53: the register writes of BASELINE, a list of any length. -/
theorem setdefaultsRun : Obligations.SetdefaultsRun := by
  intro s h hbus
  exact reaches_of_writes h rfl s.par.baseline hbus (exec_setdefaults_first h.atBlock)
    fun _ => exec_last_without_result (by decide)

end Sys2Proof.Machine
end

section
/-! PROOFS. 44_radio_state_machine.md: the radio state commands (R274 to R276), block by block and from acceptance to
completion, and the blocks of the packet and readout commands (45_packet_protocol.md R290, R298; 46_readout.md R320 to
R322). The three radio commands are one family, by the radio state they go to. -/

namespace Sys2Proof.Machine

/-! Blocks of the radio state commands. -/

/-- The command that goes to a radio state (R274 to R276). -/
def radioCommand : Radio → Instr
  | .idle => .goidle
  | .rx => .gorx
  | .tx => .gotx

theorem exec_radioCommand_first (target : Radio) {pos : Position} {s : State} (h : AtBlock 0 pos s) :
    exec (radioCommand target) s = .next (callThen 1 [.goTo target] pos s) := by
  cases target with
  | idle => exact exec_atBlock rfl h fun hk => by simp only [commandBody, radioCommand, bodyGoidle, hk]
  | rx => exact exec_atBlock rfl h fun hk => by simp only [commandBody, radioCommand, bodyGorx, hk]
  | tx => exact exec_atBlock rfl h fun hk => by simp only [commandBody, radioCommand, bodyGotx, hk]

theorem exec_radioCommand_last (target : Radio) {pos : Position} {s : State} (h : AtBlock 1 pos s) :
    exec (radioCommand target) s = .next (ended .ok s) := by
  cases target with
  | idle => exact exec_atBlock rfl h fun hk => by simp only [commandBody, radioCommand, bodyGoidle, hk, raise_ok]
  | rx => exact exec_atBlock rfl h fun hk => by simp only [commandBody, radioCommand, bodyGorx, hk, raise_ok]
  | tx => exact exec_atBlock rfl h fun hk => by simp only [commandBody, radioCommand, bodyGotx, hk, raise_ok]

/-! Blocks of RECEIVE and TRANSMIT. -/

/-- Of up to 64 bytes; more are refused (45_packet_protocol.md R290). -/
theorem exec_receive_first {pos : Position} {s : State} (h : AtBlock 0 pos s) (hn : argReadLen s ≤ Config.bufSize) :
    exec .receive s = .next (callThen 1 [.waitRxBytes, .readFifo (argReadLen s)] pos s) :=
  exec_atBlock rfl h fun hk => by simp only [commandBody, bodyReceive, hk, if_neg (Nat.not_lt.mpr hn)]

/-- The payload that the second Xfer clocked back fits the length, so all of it is stored. -/
theorem exec_receive_second {pos : Position} {s : State} (h : AtBlock 1 pos s)
    (hlen : pos.payload.length = argReadLen s) :
    exec .receive s = .next (callThen 2 [.readReg (statusId s.par.chip.status.lqi)] pos
      { s with buf := memWriteList s.buf 0 pos.payload,
               res0 := (fifoLen pos).setWidth 32, res1 := (fifoAddr pos).setWidth 32 }) :=
  exec_atBlock rfl h fun hk => by simp only [commandBody, bodyReceive, hk, ← hlen, List.take_length]

theorem exec_receive_third {pos : Position} {s : State} (h : AtBlock 2 pos s) :
    exec .receive s = .next (callThen 3 [.goTo .idle, .strobe s.par.chip.strobes.sfrx]
      { pos with q := readValue pos } { s with res2 := (readValue pos).setWidth 32 }) :=
  exec_atBlock rfl h fun hk => by simp only [commandBody, bodyReceive, hk]

/-- Bit 7 of the LQI byte read says whether the CRC matched (45_packet_protocol.md R294). -/
theorem exec_receive_last {pos : Position} {s : State} (h : AtBlock 3 pos s) :
    exec .receive s = .next (ended (if pos.q.getLsbD 7 then .ok else .crcMismatch) s) :=
  exec_atBlock rfl h fun hk => by
    simp only [commandBody, bodyReceive, hk, crc_ok_bit, raise_eq_ended (r := .ok) rfl,
      raise_eq_ended (r := .crcMismatch) rfl]
    split <;> rfl

/-- The burst write of the length and the payload, and the calls after it (45_packet_protocol.md R298). -/
theorem exec_transmit_second {pos : Position} {s : State} (h : AtBlock 1 pos s) :
    exec .transmit s = .next (callThen 2
      [.writeBurst s.par.chip.fifo (memBytes s.frame s.memDraws 0 (argTxLen s + 1)),
       .writeReg s.par.gdoIocfg (s.par.gdoCfgEop.setWidth 8), .goTo .tx, .lineWait true, .lineWait false,
       .goTo .idle] pos
      { s with memDraws := s.memDraws + 1 }) :=
  exec_atBlock rfl h fun hk => by simp only [commandBody, bodyTransmit, hk]

theorem exec_transmit_last {pos : Position} {s : State} (h : AtBlock 2 pos s) :
    exec .transmit s = .next (ended .ok s) :=
  exec_atBlock rfl h fun hk => by simp only [commandBody, bodyTransmit, hk, raise_ok]

/-! Blocks of the readout commands. -/

theorem exec_hwinfo_first {pos : Position} {s : State} (h : AtBlock 0 pos s) :
    exec .hwinfo s = .next (callThen 1 [.readReg (statusId s.par.chip.status.partnum)] pos s) :=
  exec_atBlock rfl h fun hk => by simp only [commandBody, bodyHwinfo, hk]

theorem exec_hwinfo_second {pos : Position} {s : State} (h : AtBlock 1 pos s) :
    exec .hwinfo s = .next (callThen 2 [.readReg (statusId s.par.chip.status.version)]
      { pos with p := readValue pos } s) :=
  exec_atBlock rfl h fun hk => by simp only [commandBody, bodyHwinfo, hk]

theorem exec_hwinfo_last {pos : Position} {s : State} (h : AtBlock 2 pos s) :
    exec .hwinfo s = .next (ended .ok
      { s with res0 := pos.p.setWidth 32, res1 := (readValue pos).setWidth 32 }) :=
  exec_atBlock rfl h fun hk => by simp only [commandBody, bodyHwinfo, hk, raise_ok]

theorem exec_rssi_first {pos : Position} {s : State} (h : AtBlock 0 pos s) :
    exec .rssi s = .next (callThen 1 [.readReg (statusId s.par.chip.status.rssi)] pos s) :=
  exec_atBlock rfl h fun hk => by simp only [commandBody, bodyRssi, hk]

theorem exec_rssi_last {pos : Position} {s : State} (h : AtBlock 1 pos s) :
    exec .rssi s = .next (ended .ok
      { s with res0 := BitVec.ofInt 32 (rssiToDbm s.par.rssiOffset (readValue pos)),
               res1 := (readValue pos).setWidth 32 }) :=
  exec_atBlock rfl h fun hk => by simp only [commandBody, bodyRssi, hk, raise_ok]

theorem exec_lqi_first {pos : Position} {s : State} (h : AtBlock 0 pos s) :
    exec .lqi s = .next (callThen 1 [.readReg (statusId s.par.chip.status.lqi)] pos s) :=
  exec_atBlock rfl h fun hk => by simp only [commandBody, bodyLqi, hk]

/-- The quality score is the seven low bits (41_field_codecs.md R190). -/
theorem lqi_est_bits : ∀ q : Byte, fieldExtract q fieldLqiEst = q &&& 0x7F#8 := by decide

theorem exec_lqi_last {pos : Position} {s : State} (h : AtBlock 1 pos s) :
    exec .lqi s = .next (ended .ok
      { s with res0 := (readValue pos &&& 0x7F#8).setWidth 32, res1 := (readValue pos).setWidth 32 }) :=
  exec_atBlock rfl h fun hk => by simp only [commandBody, bodyLqi, hk, raise_ok, lqi_est_bits]

/-- Settles O43: the blocks of the eight commands, the bytes read taken out of `rx`. -/
theorem radioPacketReadoutBlocks : Obligations.RadioPacketReadoutBlocks := by
  intro pos s
  refine ⟨fun h => ?first, fun h => ?second, fun h => ?third, exec_receive_last⟩
  case first =>
    exact ⟨exec_radioCommand_first .idle h, exec_radioCommand_first .rx h, exec_radioCommand_first .tx h,
      exec_receive_first h, exec_hwinfo_first h, exec_rssi_first h, exec_lqi_first h⟩
  case second =>
    refine ⟨?radio, fun x len addr hrx hlen => ?receive, exec_transmit_second h, fun x v hrx => ?readout⟩
    case radio =>
      simp only [List.forall_mem_cons]
      exact ⟨exec_radioCommand_last .idle h, exec_radioCommand_last .rx h, exec_radioCommand_last .tx h, nofun⟩
    case receive =>
      rw [exec_receive_second h hlen, fifoLen, fifoAddr, hrx]
      rfl
    case readout =>
      rw [exec_hwinfo_second h, exec_rssi_last h, exec_lqi_last h, readValue_of_rx hrx]
      exact ⟨rfl, rfl, rfl⟩
  case third =>
    refine ⟨exec_transmit_last h, fun x v hrx => ?_⟩
    rw [exec_hwinfo_last h, exec_receive_third h, readValue_of_rx hrx]
    exact ⟨rfl, rfl⟩

/-! Runs of the radio state commands. -/

/-- The run of a radio state command whose GOTO leads to the state `x`. -/
theorem reaches_of_goTo {target : Radio} {w : Byte} {s x : State} (h : Started w s)
    (hd : decodeCommand w = .ok (radioCommand target)) (hx : InRun (radioCommand target) x)
    (hgoto : ∃ rx, Reaches (setPos ⟨1, [.goTo target], none, [], [], 0#8, 0#8, 0#8, 0#8⟩ s)
      (setPos ⟨1, [], none, rx, [], 0#8, 0#8, 0#8, 0#8⟩ x)) : Reaches s (ended .ok x) := by
  obtain ⟨rx, hcalls⟩ := hgoto
  exact reaches_of_two_blocks h hd (exec_radioCommand_first target h.atBlock) hcalls hx (atBlock_one x)
    (exec_radioCommand_last target (atBlock_one x))

/-- Settles O55: the call between the two blocks is GOTO, with the polls of one state or of two. -/
theorem radioCommandsRun : Obligations.RadioCommandsRun := by
  intro s n m
  refine ⟨fun h hends => ?goidle, fun h hends => ?gorx, fun h hends => ?gotx⟩
  case goidle =>
    have hx : InRun (radioCommand .idle) s := h.inRun rfl
    exact reaches_of_goTo h rfl (inRun_wentIdle n hx) (call_goIdle n hx hends)
  case gorx =>
    have hx : InRun (radioCommand .rx) s := h.inRun rfl
    exact reaches_of_goTo h rfl (inRun_wentTo _ n m hx) (call_goTo n m hx rfl hends)
  case gotx =>
    have hx : InRun (radioCommand .tx) s := h.inRun rfl
    exact reaches_of_goTo h rfl (inRun_wentTo _ n m hx) (call_goTo n m hx rfl hends)

end Sys2Proof.Machine
end

section
/-! PROOFS. 44_radio_state_machine.md: AWAIT_STATE has no bound (R271, R273). Runs are counted in steps and kept BUSY;
one poll is such a run of six steps, and the polls follow by induction on their number. -/

namespace Sys2Proof.Machine

/-! Runs of a known number of steps. -/

/-- In `n` steps the block goes from `s` to `t`, BUSY all the way. -/
structure BusyRun (n : Nat) (s t : State) : Prop where
  run : runSteps n s = some t
  stays : BusyFor n s

theorem busy_of_running {s : State} {pos : Position} (hp : s.phase = .running pos) : busy s = true := by
  simp [busy, hp]

theorem setPos_eq_self {s : State} {pos : Position} (hp : s.phase = .running pos) : setPos pos s = s := by
  rw [setPos, ← hp]

theorem BusyRun.refl {s : State} (hs : busy s = true) : BusyRun 0 s s where
  run := rfl
  stays k hk := by
    obtain rfl := Nat.le_zero.mp hk
    exact ⟨s, rfl, hs⟩

theorem runSteps_succ {s t : State} (n : Nat) (h : step s = .next t) : runSteps (n + 1) s = runSteps n t := by
  simp [runSteps, h]

theorem BusyRun.head {n : Nat} {s t u : State} (hs : busy s = true) (h : step s = .next t)
    (hr : BusyRun n t u) : BusyRun (n + 1) s u where
  run := by rw [runSteps_succ n h, hr.run]
  stays k hk := by
    cases k with
    | zero => exact ⟨s, rfl, hs⟩
    | succ k =>
      rw [runSteps_succ k h]
      exact hr.stays k (Nat.le_of_succ_le_succ hk)

theorem BusyRun.trans {m n : Nat} {s t u : State} (h : BusyRun m s t) (h' : BusyRun n t u) :
    BusyRun (m + n) s u where
  run := by rw [runSteps_add h.run, h'.run]
  stays k hk := by
    rcases Nat.le_total k m with hkm | hmk
    · exact h.stays k hkm
    · obtain ⟨j, rfl⟩ := Nat.exists_eq_add_of_le hmk
      rw [runSteps_add h.run]
      exact h'.stays j (by omega)

/-! One read, in four steps: the call, and the three primitives of its frame. -/

/-- A read frame of one byte, step by step (30_encoding.md R115). -/
theorem busyRun_read {s : State} {pos : Position} {h : Byte} (hin : s.inputs = []) (hp : s.phase = .running pos)
    (ht : pos.txn = some ⟨h, [dummyByte], 0, .select⟩) (hread : isRead s.par.chip.bits h = true) (hok : BusOk 3 s) :
    BusyRun 3 s (setPos { pos with txn := none, rx := clockedBytes s 1 2 } (sentRead h s)) := by
  refine BusyRun.head (busy_of_running hp) (step_read hin hp ht hread (.inr ⟨rfl, rfl⟩)) ?_
  rw [step_select rfl (hok 0 (by omega))]
  refine BusyRun.head rfl (step_read hin rfl rfl hread (.inr ⟨rfl, rfl⟩)) ?_
  simp only [framePrimitive, if_true]
  have hsend : (answerAt (midFrame [(Prim.csSelect, Reply.done)] .selected
      { pos with txn := some ⟨h, [dummyByte], 0, .send⟩ } s) 0).failure = none := by
    rw [answerAt_midFrame]
    exact hok 1 (by omega)
  rw [primitive_ok _ hsend, issued_midFrame', replyTo_xfer hsend, clockedBytes_midFrame]
  refine BusyRun.head rfl (step_read hin rfl rfl hread (.inr ⟨rfl, rfl⟩)) ?_
  rw [step_deselect rfl (hok 2 (by omega))]
  exact BusyRun.refl rfl

/-- READ_REG of a status register (40_bus_transactions.md R142). -/
theorem busyRun_readStatus {i : Instr} {x : State} (hx : InRun i x) {k : Nat} {a : Base} {rest : List Call}
    {rx pl : List Byte} {o n p q : Byte} (hok : BusOk 3 x) :
    BusyRun 4 (setPos ⟨k, .readReg (statusId a) :: rest, none, rx, pl, o, n, p, q⟩ x)
      (setPos ⟨k, rest, none, clockedBytes x 1 2, pl, o, n, p, q⟩ (sentStatusRead a x)) := by
  rw [sentStatusRead, burstReadHeader, ← hdrReadOf_statusId]
  exact BusyRun.head rfl (step_call hx)
    (busyRun_read (s := openTxn _ _ _ _ (setPos _ x)) hx.1 rfl rfl (isRead_headerByte _ _ _ _) hok)

/-! Polls. -/

/-- One poll of AWAIT_STATE that does not confirm: the call, the read, the comparison (R271). -/
theorem busyRun_poll {i : Instr} {code : BitVec 5} {x : State} (hx : InRun i x) {k : Nat} {rest : List Call}
    {rx pl : List Byte} {o n p q : Byte} (hok : BusOk 3 x) (hno : ¬Confirms code x) :
    BusyRun 6 (setPos ⟨k, .awaitState code :: rest, none, rx, pl, o, n, p, q⟩ x)
      (setPos ⟨k, .awaitState code :: rest, none, clockedBytes x 1 2, pl, o, n, p, q⟩ (polledMarc x)) := by
  refine BusyRun.head rfl (step_call hx) (BusyRun.trans (m := 4) (n := 1) (busyRun_readStatus hx hok) ?_)
  exact BusyRun.head rfl ((step_call (inRun_sentStatusRead hx _)).trans (congrArg _ (if_neg hno))) (BusyRun.refl rfl)

/-- Any number of polls that do not confirm (R273). -/
theorem busyRun_polls {i : Instr} {code : BitVec 5} (m : Nat) {x : State} (hx : InRun i x) {k : Nat}
    {rest : List Call} {rx pl : List Byte} {o n p q : Byte} (hfails : AwaitFails code m x) :
    ∃ rx', BusyRun (6 * m) (setPos ⟨k, .awaitState code :: rest, none, rx, pl, o, n, p, q⟩ x)
      (setPos ⟨k, .awaitState code :: rest, none, rx', pl, o, n, p, q⟩
        (sentPolls x.par.chip.status.marcstate m x)) := by
  induction m generalizing x rx with
  | zero => exact ⟨rx, BusyRun.refl rfl⟩
  | succ m ih =>
    obtain ⟨hok, hno, hfails⟩ := hfails
    obtain ⟨rx', hrest⟩ := ih (rx := clockedBytes x 1 2) (inRun_sentStatusRead hx _) hfails
    rw [Nat.mul_succ, Nat.add_comm]
    exact ⟨rx', (busyRun_poll hx hok hno).trans hrest⟩

/-- Settles O59: the polls from the state as it stands, its position written out. -/
theorem awaitStateHasNoBound : Obligations.AwaitStateHasNoBound := by
  rintro i code rest ⟨k, cs, t, rx, pl, o, nw, p, q⟩ s n hin hdec ⟨hp, rfl, rfl⟩ hfails
  obtain ⟨rx', hrun⟩ := busyRun_polls (k := k) (rest := rest) (rx := rx) (pl := pl) (o := o) (n := nw) (p := p)
    (q := q) n ⟨hin, hdec⟩ hfails
  rw [setPos_eq_self hp] at hrun
  exact ⟨⟨rx', hrun.run⟩, hrun.stays⟩

end Sys2Proof.Machine
end

section
/-! PROOFS. 45_packet_protocol.md: the length gate of TRANSMIT and what FRAME holds after it (R298 to R300, R304). -/

namespace Sys2Proof.Machine

/-- A payload of 0 or of 62 bytes and more is not sent (R299). -/
theorem txLenRejected_iff (n : Nat) : txLenRejected n = true ↔ n = 0 ∨ 62 ≤ n := by
  rw [txLenRejected, Bool.or_eq_true, beq_iff_eq, decide_eq_true_iff, Config.txLenLimit]

theorem not_txLenRejected {n : Nat} (hpos : 0 < n) (hlt : n < 62) : ¬txLenRejected n = true := by
  rw [txLenRejected_iff]
  omega

theorem exec_transmit_rejected {pos : Position} {s : State} (h : AtBlock 0 pos s)
    (hrej : txLenRejected (argTxLen s) = true) :
    exec .transmit s = .next (ended (if s.par.reportLengthError then .lengthOutOfRange else .ok) s) :=
  exec_atBlock rfl h fun hk => by
    simp only [commandBody, bodyTransmit, hk, if_pos hrej, raise_eq_ended (r := .lengthOutOfRange) rfl, raise_ok]
    split <;> rfl

/-- The length and the payload into FRAME, and the calls before the burst write (R298, R300). -/
theorem exec_transmit_first {pos : Position} {s : State} (h : AtBlock 0 pos s)
    (hsend : ¬txLenRejected (argTxLen s) = true) :
    exec .transmit s = .next (callThen 1
      [.writeReg s.par.gdoIocfg (s.par.gdoCfgSync.setWidth 8), .goTo .idle, .strobe s.par.chip.strobes.sftx,
       .goTo .rx] pos
      { s with frame := frameWith s, memDraws := s.memDraws + 1 }) :=
  exec_atBlock rfl h fun hk => by simp only [commandBody, bodyTransmit, hk, if_neg hsend]

/-- The length and the payload TRANSMIT sends (R300). -/
def txBytes (s : State) : List Byte := BitVec.ofNat 8 (argTxLen s) :: memBytes s.buf s.memDraws 0 (argTxLen s)

@[simp] theorem txBytes_length (s : State) : (txBytes s).length = argTxLen s + 1 := by
  simp [txBytes]

/-- A payload the gate lets through fits FRAME with its length byte. -/
theorem txBytes_fits {s : State} (hlen : argTxLen s < Config.txLenLimit) : (txBytes s).length ≤ Config.bufSize := by
  rw [txBytes_length]
  exact hlen.trans (by decide)

/-- FRAME is written with them in one piece, length byte first. -/
theorem frameWith_eq (s : State) : frameWith s = memWriteList s.frame 0 (txBytes s) := rfl

/-- What FRAME holds after the write (R300). -/
theorem memRead_frameWith {s : State} (hlen : argTxLen s < Config.txLenLimit) (a : Nat) :
    memRead (frameWith s) a = if a < argTxLen s + 1 then (txBytes s)[a]? else memRead s.frame a := by
  rw [frameWith_eq, memRead_memWriteList _ _ _ _ ((Nat.zero_add _).trans_le (txBytes_fits hlen))]
  simp

/-- The burst write sends what the first block put into FRAME (R300). -/
theorem memBytes_frameWith {s : State} (hlen : argTxLen s < Config.txLenLimit) (draw : Nat) :
    memBytes (frameWith s) draw 0 (argTxLen s + 1) = txBytes s := by
  rw [frameWith_eq, ← txBytes_length, memBytes_memWriteList _ _ _ (txBytes_fits hlen)]

/-- Settles O46: the gate's two outcomes, and FRAME read back at the length byte, in the payload and past it. -/
theorem transmitLengthGate : Obligations.TransmitLengthGate := by
  refine ⟨rfl, fun pos s n h hn => ?_⟩
  obtain rfl : n = argTxLen s := hn
  refine ⟨fun hrej => exec_transmit_rejected h ((txLenRejected_iff _).mpr hrej), fun hpos hlt => ?sent⟩
  case sent =>
    refine ⟨frameWith s, exec_transmit_first h (not_txLenRejected hpos hlt), ?length,
      fun j hj => ⟨memGet s.buf s.memDraws j, ?payload, fun c hc => memGet_of_memRead _ hc⟩, fun a ha => ?rest⟩
    case length =>
      rw [memRead_frameWith hlt, if_pos (by omega)]
      rfl
    case payload =>
      rw [memRead_frameWith hlt, if_pos (by omega), Nat.add_comm]
      simp [txBytes, memBytes, hj]
    case rest => rw [memRead_frameWith hlt, if_neg (by omega)]

end Sys2Proof.Machine
end

section
/-! PROOFS. 45_packet_protocol.md: RECEIVE from acceptance to completion, on a clean path and to the overflow (R290 to
R297). Each part of its run leads from the calls of one block to those of the next. -/

namespace Sys2Proof.Machine

/-- A position with no calls left stands before its block. -/
theorem atBlock_setPos {k : Nat} {rx pl : List Byte} {o n p q : Byte} (x : State) :
    AtBlock k ⟨k, [], none, rx, pl, o, n, p, q⟩ (setPos ⟨k, [], none, rx, pl, o, n, p, q⟩ x) :=
  ⟨rfl, rfl, rfl, rfl⟩

/-- The FIFO read and what is stored of it (R290). -/
theorem reaches_receive_fifo {x y : State} (hx : InRun .receive x) {rx pl : List Byte} {o n p q : Byte} {m : Nat}
    (hm : argReadLen x = m) (hok : BusOk (if m = 0 then 3 else 4) x)
    (hy : y = { sentFifoRead m x with buf := memWriteList x.buf 0 (clockedBytes x 2 m),
                                      res0 := (chipByte x 1 1).setWidth 32, res1 := (chipByte x 1 2).setWidth 32 }) :
    Reaches (setPos ⟨1, [.readFifo m], none, rx, pl, o, n, p, q⟩ x)
      (setPos ⟨2, [.readReg (statusId y.par.chip.status.lqi)], none, clockedBytes x 1 3, clockedBytes x 2 m, o, n, p, q⟩
        y) := by
  have hlen : (clockedBytes x 2 m).length = argReadLen x := by rw [clockedBytes_length, hm]
  subst hy
  exact (call_readFifo hx hok).trans (Reaches.of_exec hx (atBlock_setPos _)
    (exec_receive_second (atBlock_setPos _) hlen) (Reaches.refl _))

/-- The LQI read, kept as `q` and in RES2 (R290). -/
theorem reaches_receive_lqi {x y : State} (hx : InRun .receive x) {rx pl : List Byte} {o n p q : Byte}
    (hok : BusOk 3 x)
    (hy : y = { sentStatusRead x.par.chip.status.lqi x with res2 := (readByte x).setWidth 32 }) :
    Reaches (setPos ⟨2, [.readReg (statusId x.par.chip.status.lqi)], none, rx, pl, o, n, p, q⟩ x)
      (setPos ⟨3, [.goTo .idle, .strobe y.par.chip.strobes.sfrx], none, clockedBytes x 1 2, pl, o, n, p, readByte x⟩
        y) := by
  subst hy
  exact (call_readStatus hx hok).trans (Reaches.of_exec hx (atBlock_setPos _)
    (exec_receive_third (atBlock_setPos _)) (Reaches.refl _))

/-- GOTO(IDLE), SFRX and the CRC's verdict on the LQI byte (R294, R295). -/
theorem reaches_receive_end {x : State} (hx : InRun .receive x) {rx pl : List Byte} {o n p q : Byte} {w : Nat}
    (hidle : IdleEnds w x) (hok : BusOk 3 (wentIdle w x)) :
    Reaches (setPos ⟨3, [.goTo .idle, .strobe x.par.chip.strobes.sfrx], none, rx, pl, o, n, p, q⟩ x)
      (ended (if q.getLsbD 7 then .ok else .crcMismatch) (sentStrobe x.par.chip.strobes.sfrx (wentIdle w x))) := by
  obtain ⟨rx', hgoto⟩ := call_goIdle (rest := [.strobe x.par.chip.strobes.sfrx]) (k := 3) (rx := rx) (pl := pl)
    (o := o) (n := n) (p := p) (q := q) w hx hidle
  have hx' : InRun .receive (wentIdle w x) := inRun_wentIdle w hx
  exact (hgoto.trans (call_strobe hx' hok)).trans (Reaches.of_exec hx' (atBlock_setPos _)
    (exec_receive_last (atBlock_setPos _)) (Reaches.refl _))

/-- Settles O56: WAIT_RX_BYTES, the FIFO read, the LQI read and the end, one after the other. -/
theorem receiveRun : Obligations.ReceiveRun := by
  intro s k n w s1 s2 s3 s4 s5 h hn hle hwait h1 hok1 h2 hok2 h3 hidle h4 hok4 h5
  subst hn h4 h5
  have hx : InRun .receive s := h.inRun rfl
  obtain ⟨hbuf, harg, hpar⟩ : s1.buf = s.buf ∧ s1.arg0 = s.arg0 ∧ s1.par = s.par := by
    rw [h1]
    exact polls_same _ _ _
  have hlen : argReadLen s1 = argReadLen s := by rw [argReadLen, harg, argReadLen]
  have hx1 : InRun .receive s1 := by
    rw [h1]
    exact inRun_polls _ _ hx
  obtain ⟨hx2, hpar2⟩ : InRun .receive s2 ∧ s2.par = s.par := by
    rw [h2]
    exact ⟨hx1, hpar⟩
  obtain ⟨hx3, hpar3⟩ : InRun .receive s3 ∧ s3.par = s.par := by
    rw [h3]
    exact ⟨hx2, hpar2⟩
  obtain ⟨rx, hpolls⟩ := call_waitRxBytes (rest := [.readFifo (argReadLen s)]) (k := 1) (rx := []) (pl := [])
    (o := 0#8) (n := 0#8) (p := 0#8) (q := 0#8) k hx hwait
  rw [← h1] at hpolls
  rw [← hbuf] at h2
  rw [← hpar2] at h3
  rw [← hpar3]
  exact Reaches.of_exec hx h.atBlock (exec_receive_first h.atBlock hle)
    (hpolls.trans ((reaches_receive_fifo hx1 hlen hok1 h2).trans
      ((reaches_receive_lqi hx2 hok2 h3).trans (reaches_receive_end hx3 hidle hok4))))

/-- Settles O57: WAIT_RX_BYTES that ends in the overflow. -/
theorem receiveOverflowRun : Obligations.ReceiveOverflowRun := by
  intro s k h hle hwait hok
  have hx : InRun .receive s := h.inRun rfl
  exact Reaches.of_exec hx h.atBlock (exec_receive_first h.atBlock hle)
    (Reaches.head (step_call hx) (call_rxOverflow k hx hwait hok))

end Sys2Proof.Machine
end

section
/-! PROOFS. 45_packet_protocol.md: TRANSMIT from acceptance to completion (R298, R300 to R302). FRAME is written before
the first primitive, so each call is said of a state with FRAME and the count of memory reads replaced. -/

namespace Sys2Proof.Machine

/-- The calls `cs` of the running command `i` lead from `x` to `y`, whatever calls follow them; of the position only the
bytes last read change. -/
def CallsLead (i : Instr) (cs : List Call) (x y : State) : Prop :=
  InRun i y ∧ ∀ (k : Nat) (rest : List Call) (rx pl : List Byte) (o n p q : Byte), ∃ rx',
    Reaches (setPos ⟨k, cs ++ rest, none, rx, pl, o, n, p, q⟩ x) (setPos ⟨k, rest, none, rx', pl, o, n, p, q⟩ y)

/-- One call, and those after it from where it leads. -/
theorem CallsLead.cons {i : Instr} {c : Call} {cs : List Call} {x y z : State} (h : CallsLead i [c] x y)
    (hs : InRun i y → CallsLead i cs y z) : CallsLead i (c :: cs) x z := by
  obtain ⟨hy, hc⟩ := h
  obtain ⟨hz, hcs⟩ := hs hy
  refine ⟨hz, fun k rest rx pl o n p q => ?_⟩
  obtain ⟨rx1, hfirst⟩ := hc k (cs ++ rest) rx pl o n p q
  obtain ⟨rx2, hrest⟩ := hcs k rest rx1 pl o n p q
  exact ⟨rx2, hfirst.trans hrest⟩

section
variable {i : Instr} {f : Memory} {d : Nat} {x y : State} (hx : InRun i (withFrame f d x))
include hx

theorem callsLead_writeReg {a : Base} {v : Byte} (hok : BusOk 3 x) (hy : y = sentWriteReg a v x) :
    CallsLead i [.writeReg a v] (withFrame f d x) (withFrame f d y) := by
  subst hy
  exact ⟨hx, fun _ _ rx _ _ _ _ _ => ⟨rx, call_writeReg hx hok⟩⟩

theorem callsLead_strobe {c : Base} (hok : BusOk 3 x) (hy : y = sentStrobe c x) :
    CallsLead i [.strobe c] (withFrame f d x) (withFrame f d y) := by
  subst hy
  exact ⟨hx, fun _ _ rx _ _ _ _ _ => ⟨rx, call_strobe hx hok⟩⟩

theorem callsLead_writeBurst {a : Base} {bytes : List Byte} (hok : BusOk 3 x)
    (hy : y = sentWrite (burstWriteHeader a x :: bytes) x) :
    CallsLead i [.writeBurst a bytes] (withFrame f d x) (withFrame f d y) := by
  subst hy
  exact ⟨hx, fun _ _ rx _ _ _ _ _ => ⟨rx, call_writeBurst hx hok⟩⟩

theorem callsLead_goIdle {m : Nat} (h : IdleEnds m x) (hy : y = wentIdle m x) :
    CallsLead i [.goTo .idle] (withFrame f d x) (withFrame f d y) := by
  rw [hy, ← wentIdle_withFrame]
  exact ⟨inRun_wentIdle m hx, fun _ _ _ _ _ _ _ _ => call_goIdle m hx (h.withFrame f d)⟩

/-- GOTO(RX) and GOTO(TX), by their strobe and code. -/
theorem callsLead_goTo {target : Radio} {strobe : Base} {code : BitVec 5} {n m : Nat}
    (ht : goToCalls x.par target = [.goTo .idle, .strobe strobe, .awaitState code])
    (h : GotoEnds strobe code n m x) (hy : y = wentTo strobe n m x) :
    CallsLead i [.goTo target] (withFrame f d x) (withFrame f d y) := by
  rw [hy, ← wentTo_withFrame]
  exact ⟨inRun_wentTo _ n m hx, fun _ _ _ _ _ _ _ _ => call_goTo n m hx ht (h.withFrame f d)⟩

theorem callsLead_lineWait {level : Bool} {m : Nat} (h : LineEnds level m x) (hy : y = lineReads (m + 1) x) :
    CallsLead i [.lineWait level] (withFrame f d x) (withFrame f d y) := by
  rw [hy, ← lineReads_withFrame]
  exact ⟨inRun_lineReads _ hx, fun _ _ rx _ _ _ _ _ => ⟨rx, call_lineWait m hx (h.withFrame f d)⟩⟩

end

/-- GOTO(RX) and GOTO(TX) leave the operands and the parameters alone. -/
theorem wentTo_same (c : Base) (n m : Nat) (x : State) :
    (wentTo c n m x).arg0 = x.arg0 ∧ (wentTo c n m x).par = x.par := by
  obtain ⟨-, harg, hpar⟩ := polls_same x.par.chip.status.marcstate (n + 1) (sentStrobe x.par.chip.strobes.sidle x)
  obtain ⟨-, harg', hpar'⟩ := polls_same (wentIdle n x).par.chip.status.marcstate (m + 1) (sentStrobe c (wentIdle n x))
  exact ⟨harg'.trans harg, hpar'.trans hpar⟩

/-- The run of a command whose first block makes the calls `cs` and whose second makes the calls `cs'`. -/
theorem reaches_of_three_blocks {w : Byte} {i : Instr} {s x y x' y' t : State} {cs cs' : List Call} (h : Started w s)
    (hd : decodeCommand w = .ok i) (hfirst : exec i s = .next (callThen 1 cs Position.start x))
    (hcs : CallsLead i cs x y)
    (hsecond : ∀ pos, AtBlock 1 pos (setPos pos y) → exec i (setPos pos y) = .next (callThen 2 cs' pos x'))
    (hcs' : CallsLead i cs' x' y')
    (hlast : ∀ pos, AtBlock 2 pos (setPos pos y') → exec i (setPos pos y') = .next t) : Reaches s t := by
  obtain ⟨hy, hrun⟩ := hcs
  obtain ⟨hy', hrun'⟩ := hcs'
  obtain ⟨rx, hcalls⟩ := hrun 1 [] [] [] 0#8 0#8 0#8 0#8
  obtain ⟨rx', hcalls'⟩ := hrun' 2 [] rx [] 0#8 0#8 0#8 0#8
  rw [List.append_nil] at hcalls hcalls'
  exact Reaches.of_exec (h.inRun hd) h.atBlock hfirst (hcalls.trans
    (Reaches.of_exec hy (atBlock_setPos _) (hsecond _ (atBlock_setPos _)) (hcalls'.trans
      (Reaches.of_exec hy' (atBlock_setPos _) (hlast _ (atBlock_setPos _)) (Reaches.refl t)))))

/-- The second block, for the bytes FRAME reads as. -/
theorem exec_transmit_second_sends {pos : Position} {s : State} {bytes : List Byte} (h : AtBlock 1 pos s)
    (hbytes : memBytes s.frame s.memDraws 0 (argTxLen s + 1) = bytes) :
    exec .transmit s = .next (callThen 2
      [.writeBurst s.par.chip.fifo bytes, .writeReg s.par.gdoIocfg (s.par.gdoCfgEop.setWidth 8), .goTo .tx,
       .lineWait true, .lineWait false, .goTo .idle] pos { s with memDraws := s.memDraws + 1 }) := by
  rw [exec_transmit_second h, hbytes]

/-- Settles O58: the calls of the first two blocks one after the other, FRAME giving back what was written to it. -/
theorem transmitRun : Obligations.TransmitRun := by
  intro s len n1 n2 m2 n3 m3 k1 k2 n4 s1 s2 s3 s4 s5 s6 s7 s8 h hlen hpos hlt hok h1 hidle1 h2 hok2 h3 hrx h4 hok4 h5
    htx h6 hline1 h7 hline2 h8 hidle4
  obtain rfl : len = argTxLen s := hlen
  obtain ⟨harg2, hpar2⟩ : s2.arg0 = s.arg0 ∧ s2.par = s.par := by
    subst h2 h1
    exact (polls_same _ _ _).2
  obtain ⟨harg4, hpar4⟩ : s4.arg0 = s.arg0 ∧ s4.par = s.par := by
    obtain ⟨harg, hpar⟩ := wentTo_same s.par.chip.strobes.srx n2 m2 s3
    subst h4 h3
    exact ⟨harg.trans harg2, hpar.trans hpar2⟩
  have hpar3 : s3.par = s.par := by
    subst h3
    exact hpar2
  have hpar5 : s5.par = s.par := by
    subst h5
    exact hpar4
  have hlen4 : argTxLen s4 = argTxLen s := by rw [argTxLen, harg4, argTxLen]
  have hx : InRun .transmit (withFrame (frameWith s) (s.memDraws + 1) s) := h.inRun rfl
  have hprepare := (callsLead_writeReg hx hok h1).cons fun hx => (callsLead_goIdle hx hidle1 h2).cons fun hx =>
    (callsLead_strobe hx hok2 h3).cons fun hx => callsLead_goTo (target := .rx) hx (by rw [hpar3]; rfl) hrx h4
  have hx4 : InRun .transmit (withFrame (frameWith s) (s.memDraws + 2) s4) := hprepare.1
  rw [burstWriteHeader, ← hpar4] at h5
  have hsend := (callsLead_writeBurst hx4 (hok4.le (by omega)) rfl).cons fun hx =>
    (callsLead_writeReg hx hok4.afterWrite h5).cons fun hx =>
    (callsLead_goTo (target := .tx) hx (by rw [hpar5]; rfl) htx h6).cons fun hx =>
    (callsLead_lineWait hx hline1 h7).cons fun hx => (callsLead_lineWait hx hline2 h8).cons fun hx =>
    callsLead_goIdle hx hidle4 rfl
  have hbytes : memBytes (frameWith s) (s.memDraws + 1) 0 (argTxLen s4 + 1) = txBytes s := by
    rw [hlen4, memBytes_frameWith hlt]
  exact reaches_of_three_blocks h rfl (exec_transmit_first h.atBlock (not_txLenRejected hpos hlt)) hprepare
    (fun _ hblock => exec_transmit_second_sends hblock hbytes) hsend fun _ => exec_transmit_last

end Sys2Proof.Machine
end

section
/-! PROOFS. 45_packet_protocol.md: WAIT_RX_BYTES and the line waits have no bound (R292, R301; 70_reset_and_hazards.md
R365). One read that does not end the wait is a run of five steps or of one, and the reads follow by induction on their
number. -/

namespace Sys2Proof.Machine

/-- WAIT_RX_BYTES reads again where the byte read shows no overflow and no stable count (R292). -/
theorem callStep_rxTest_again {pos : Position} {s : State} (hflag : (readValue pos).getLsbD 7 = false)
    (hcount : ¬((readValue pos).extractLsb' 0 7 ≠ 0#7 ∧ (readValue pos).extractLsb' 0 7 = s.lastCount)) :
    callStep .rxTest pos s =
      setPos { pos with calls := .readReg (statusId s.par.chip.status.rxbytes) :: .rxTest :: pos.calls }
        { s with lastCount := (readValue pos).extractLsb' 0 7 } := by
  rw [callStep_rxTest, if_neg (ne_true_of_eq_false hflag), if_neg hcount]

/-- A line wait reads again where the line does not show its level (R301). -/
theorem callStep_lineWait_again {level : Bool} {pos : Position} {s : State} (hok : (answerAt s 0).failure = none)
    (hlevel : (answerAt s 0).level = !level) :
    callStep (.lineWait level) pos s =
      setPos { pos with calls := .lineWait level :: pos.calls } (issued .lineRead s) := by
  have hne : (answerAt s 0).level ≠ level := by simp [hlevel]
  rw [callStep_lineWait hok, if_neg hne, issued_eq_answered (replyTo_lineRead hok)]

/-- One read of WAIT_RX_BYTES that shows no overflow and no stable count: the read, the tests, and the call again
(R292). -/
theorem busyRun_rxPoll {i : Instr} {last : BitVec 7} {x : State} (hx : InRun i x) {k : Nat} {rest : List Call}
    {rx pl : List Byte} {o n p q : Byte} (hok : BusOk 3 x) (hflag : (readByte x).getLsbD 7 = false)
    (hcount : ¬StableCount last x) :
    BusyRun 5
      (setPos ⟨k, .readReg (statusId x.par.chip.status.rxbytes) :: .rxTest :: rest, none, rx, pl, o, n, p, q⟩
        { x with lastCount := last })
      (setPos ⟨k, .readReg (statusId x.par.chip.status.rxbytes) :: .rxTest :: rest, none, clockedBytes x 1 2, pl, o, n,
          p, q⟩
        { polledRx x with lastCount := (readByte x).extractLsb' 0 7 }) := by
  refine BusyRun.trans (m := 4) (n := 1) (busyRun_readStatus (x := { x with lastCount := last }) hx hok) ?_
  have hx' : InRun i (sentStatusRead x.par.chip.status.rxbytes { x with lastCount := last }) := hx
  exact BusyRun.head rfl ((step_call hx').trans (congrArg _ (callStep_rxTest_again hflag hcount))) (BusyRun.refl rfl)

/-- Any number of such reads (R365). -/
theorem busyRun_rxPolls {i : Instr} (m : Nat) {last : BitVec 7} {x : State} (hx : InRun i x) {k : Nat}
    {rest : List Call} {rx pl : List Byte} {o n p q : Byte} (hfails : RxWaitFails m last x) :
    ∃ rx', BusyRun (5 * m)
      (setPos ⟨k, .readReg (statusId x.par.chip.status.rxbytes) :: .rxTest :: rest, none, rx, pl, o, n, p, q⟩
        { x with lastCount := last })
      (setPos ⟨k, .readReg (statusId x.par.chip.status.rxbytes) :: .rxTest :: rest, none, rx', pl, o, n, p, q⟩
        { sentPolls x.par.chip.status.rxbytes m x with lastCount := countAfter m last x }) := by
  induction m generalizing x rx last with
  | zero => exact ⟨rx, BusyRun.refl rfl⟩
  | succ m ih =>
    obtain ⟨hok, hflag, hcount, hfails⟩ := hfails
    obtain ⟨rx', hrest⟩ := ih (rx := clockedBytes x 1 2) (inRun_sentStatusRead hx _) hfails
    rw [Nat.mul_succ, Nat.add_comm]
    exact ⟨rx', (busyRun_rxPoll hx hok hflag hcount).trans hrest⟩

/-- WAIT_RX_BYTES from its call (R292, R365). -/
theorem busyRun_waitRxBytes {i : Instr} (m : Nat) {x : State} (hx : InRun i x) {k : Nat} {rest : List Call}
    {rx pl : List Byte} {o n p q : Byte} (hfails : RxWaitFails m 0#7 x) :
    ∃ rx', BusyRun (1 + 5 * m) (setPos ⟨k, .waitRxBytes :: rest, none, rx, pl, o, n, p, q⟩ x)
      (setPos ⟨k, .readReg (statusId x.par.chip.status.rxbytes) :: .rxTest :: rest, none, rx', pl, o, n, p, q⟩
        { sentPolls x.par.chip.status.rxbytes m x with lastCount := countAfter m 0#7 x }) := by
  obtain ⟨rx', hpolls⟩ := busyRun_rxPolls (rest := rest) (k := k) (rx := rx) (pl := pl) (o := o) (n := n) (p := p)
    (q := q) m hx hfails
  rw [Nat.add_comm]
  exact ⟨rx', BusyRun.head rfl (step_call hx) hpolls⟩

/-- A line read that does not show the level: the wait stands before the next (R301). -/
theorem step_lineWait {i : Instr} {level : Bool} {x : State} (hx : InRun i x) {k : Nat} {rest : List Call}
    {rx pl : List Byte} {o n p q : Byte} (hok : (answerAt x 0).failure = none)
    (hlevel : (answerAt x 0).level = !level) :
    step (setPos ⟨k, .lineWait level :: rest, none, rx, pl, o, n, p, q⟩ x) =
      .next (setPos ⟨k, .lineWait level :: rest, none, rx, pl, o, n, p, q⟩ (issued .lineRead x)) :=
  (step_call hx).trans (congrArg _ (callStep_lineWait_again hok hlevel))

/-- Any number of such reads (R365). -/
theorem busyRun_lineReads {i : Instr} {level : Bool} (m : Nat) {x : State} (hx : InRun i x) {k : Nat}
    {rest : List Call} {rx pl : List Byte} {o n p q : Byte} (hfails : LineFails level m x) :
    BusyRun m (setPos ⟨k, .lineWait level :: rest, none, rx, pl, o, n, p, q⟩ x)
      (setPos ⟨k, .lineWait level :: rest, none, rx, pl, o, n, p, q⟩ (lineReads m x)) := by
  induction m generalizing x with
  | zero => exact BusyRun.refl rfl
  | succ m ih =>
    obtain ⟨hok, hlevel, hfails⟩ := hfails
    exact BusyRun.head rfl (step_lineWait hx hok hlevel) (ih (x := issued .lineRead x) hx hfails)

/-- Settles O60: the reads from the state as it stands, its position written out. -/
theorem rxAndLineWaitsHaveNoBound : Obligations.RxAndLineWaitsHaveNoBound := by
  rintro i rest ⟨k, cs, t, rx, pl, o, nw, p, q⟩ s n hin hdec
  refine ⟨?rxBytes, ?line⟩
  case rxBytes =>
    rintro ⟨hp, rfl, rfl⟩ hfails
    obtain ⟨rx', hrun⟩ := busyRun_waitRxBytes (k := k) (rest := rest) (rx := rx) (pl := pl) (o := o) (n := nw) (p := p)
      (q := q) n ⟨hin, hdec⟩ hfails
    rw [setPos_eq_self hp] at hrun
    exact ⟨⟨rx', hrun.run⟩, hrun.stays⟩
  case line =>
    rintro level ⟨hp, rfl, rfl⟩ hfails
    have hrun := busyRun_lineReads (k := k) (rest := rest) (rx := rx) (pl := pl) (o := o) (n := nw) (p := p) (q := q) n
      ⟨hin, hdec⟩ hfails
    rw [setPos_eq_self hp] at hrun
    exact ⟨hrun.run, hrun.stays⟩

end Sys2Proof.Machine
end

section
/-! PROOFS. 46_readout.md: the RSSI conversion (R323), and HWINFO, RSSI and LQI from acceptance to completion (R320 to
R322). A run is one status read and the block after it, for HWINFO twice. -/

namespace Sys2Proof.Machine

/-! The RSSI conversion. -/

/-- The conversion in one form for both segments: the byte is taken as signed. -/
theorem rssiToDbm_eq (offset : Int) (r : Byte) : rssiToDbm offset r = r.toInt.tdiv 2 - offset := by
  rw [rssiToDbm, BitVec.toInt_eq_toNat_cond]
  split
  case isTrue hneg => rw [if_neg (by omega)]; rfl
  case isFalse hpos => rw [if_pos (by omega)]

/-- The conversion does not fall as the signed byte rises. -/
theorem rssiToDbm_mono {r r' : Byte} (offset : Int) (h : r.toInt ≤ r'.toInt) :
    rssiToDbm offset r ≤ rssiToDbm offset r' := by
  rw [rssiToDbm_eq, rssiToDbm_eq]
  exact Int.sub_le_sub_right (Int.tdiv_le_tdiv (by decide) h) offset

/-- Within either segment the order of bytes is that of the signed bytes. -/
theorem toInt_le_toInt_of_segment {r r' : Byte} (hle : r.toNat ≤ r'.toNat)
    (hseg : r'.toNat < 128 ∨ 128 ≤ r.toNat) : r.toInt ≤ r'.toInt := by
  rw [BitVec.toInt_eq_toNat_cond, BitVec.toInt_eq_toNat_cond]
  split <;> split <;> omega

/-- Settles O34: the conversion is monotone in the signed byte, so its range is what it gives at -128 and at 127. -/
theorem rssiConversion : Obligations.RssiConversion := by
  intro offset r
  refine ⟨rssiToDbm_eq offset r,
    fun r' hle hseg => rssiToDbm_mono offset (toInt_le_toInt_of_segment hle hseg), ?least, ?greatest⟩
  case least => exact rssiToDbm_mono (r := 0x80#8) 74 (BitVec.le_toInt r)
  case greatest => exact rssiToDbm_mono (r' := 0x7F#8) 74 (Int.le_of_lt_add_one (BitVec.toInt_lt (x := r)))

/-! Runs. -/

/-- A status read, and the block after it with the byte read (40_bus_transactions.md R142). -/
theorem reaches_status_read {i : Instr} {x u t : State} {k : Nat} {a : Base} {rx pl : List Byte} {o n p q : Byte}
    (hx : InRun i x) (hbus : BusOk 3 x)
    (hblock : exec i (setPos ⟨k, [], none, clockedBytes x 1 2, pl, o, n, p, q⟩ (sentStatusRead a x)) = .next u)
    (hrest : Reaches u t) : Reaches (setPos ⟨k, [.readReg (statusId a)], none, rx, pl, o, n, p, q⟩ x) t :=
  (call_readStatus hx hbus).trans (Reaches.of_exec hx (atBlock_setPos _) hblock hrest)

/-- Settles O54: the status reads of each command, the bytes read stored by its last block. -/
theorem readoutCommandsRun : Obligations.ReadoutCommandsRun := by
  intro s
  refine ⟨fun s1 h hbus hs1 => ?hwinfo, fun h hbus => ?rssi, fun h hbus => ?lqi⟩
  case hwinfo =>
    subst hs1
    have hx : InRun .hwinfo s := h.inRun rfl
    have hx1 : InRun .hwinfo (sentStatusRead s.par.chip.status.partnum s) := inRun_sentStatusRead hx _
    have hbus1 : BusOk 3 (sentStatusRead s.par.chip.status.partnum s) := BusOk.afterRead hbus
    exact Reaches.of_exec hx h.atBlock (exec_hwinfo_first h.atBlock)
      (reaches_status_read hx (hbus.le (by decide)) (exec_hwinfo_second (atBlock_setPos _))
        (reaches_status_read hx1 hbus1 (exec_hwinfo_last (atBlock_setPos _)) (Reaches.refl _)))
  case rssi =>
    have hx : InRun .rssi s := h.inRun rfl
    rw [← rssiToDbm_eq]
    exact Reaches.of_exec hx h.atBlock (exec_rssi_first h.atBlock)
      (reaches_status_read hx hbus (exec_rssi_last (atBlock_setPos _)) (Reaches.refl _))
  case lqi =>
    have hx : InRun .lqi s := h.inRun rfl
    exact Reaches.of_exec hx h.atBlock (exec_lqi_first h.atBlock)
      (reaches_status_read hx hbus (exec_lqi_last (atBlock_setPos _)) (Reaches.refl _))

end Sys2Proof.Machine
end

section
/-! PROOFS. 60_exceptions.md: every step has a next state but at an undefined host access (R353). -/

namespace Sys2Proof.Machine

/-- The sequencer's turn always has a next state (00_scope.md R7). -/
theorem sequencerTurn_total (s : State) : ∃ t, sequencerTurn s = .next t := by
  rcases sequencerTurn_cases s with
    ⟨-, h⟩ | ⟨_, -, ⟨-, -, h⟩ | ⟨_, _, -, -, h⟩ | ⟨_, _, _, -, -, -, -, h⟩ | ⟨_, -, -, -, -, h⟩⟩ <;> exact ⟨_, h⟩

/-- A host access the block defines is 32 bits wide (20_memory.md R71). -/
theorem width_of_hostAccessOk {o width : Nat} (ha : hostAccessOk o width = true) : width = 32 := by
  rw [← Bool.not_eq_false, hostAccessOk_eq_false] at ha
  omega

theorem step_hostWrite {s : State} {o : Nat} {v : Word} {rest : List Input} (ha : hostAccessOk o 32 = true)
    (hin : s.inputs = .hostWrite o 32 v :: rest) : step s = .next (hostWriteDefined o v { s with inputs := rest }) := by
  simp [step, advance, hin, hostWrite, ha]

/-- Settles O11: the sequencer's turn, block reset and a defined host access go on, and an undefined access is
refused. -/
theorem everyStepHasASuccessor : Obligations.EveryStepHasASuccessor := by
  intro s
  cases hin : s.inputs with
  | nil =>
    rw [step_of_no_input hin]
    exact .inl (sequencerTurn_total s)
  | cons i rest =>
    cases i with
    | turn =>
      rw [step_of_turn hin]
      exact .inl (sequencerTurn_total _)
    | hostRead o width =>
      cases ha : hostAccessOk o width with
      | true =>
        obtain rfl := width_of_hostAccessOk ha
        exact .inl ⟨_, step_hostRead ha hin⟩
      | false => exact .inr ⟨o, width, ha, step_hostRead_refused ha hin, .inl ⟨rest, rfl⟩⟩
    | hostWrite o width v =>
      cases ha : hostAccessOk o width with
      | true =>
        obtain rfl := width_of_hostAccessOk ha
        exact .inl ⟨_, step_hostWrite ha hin⟩
      | false => exact .inr ⟨o, width, ha, step_hostWrite_refused ha hin, .inr ⟨v, rest, rfl⟩⟩
    | blockReset =>
      obtain ⟨hreset, -⟩ := blockResetClearsTheBlock
      obtain ⟨h, -⟩ := hreset s rest hin
      exact .inl ⟨_, h⟩

end Sys2Proof.Machine
end

section
/-! PROOFS. 70_reset_and_hazards.md: nothing happens after block reset until a host write to CMD (R361). An idle block
is one that is Ready and deselected with no such write to come; every step keeps it idle and off the bus, and runs
follow by induction on their length. -/

namespace Sys2Proof.Machine

theorem not_busy_iff {s : State} : busy s = false ↔ s.phase = .ready := by simp [busy]

/-- Every step takes the input it acts on, and no other. -/
theorem step_inputs {s t : State} (h : step s = .next t) : t.inputs = s.inputs.tail := by
  rcases step_cases h with ⟨o, rest, hin, -, rfl⟩ | ⟨o, v, rest, hin, ha, rfl⟩ | ⟨rest, hin, rfl⟩ |
      ⟨-, hturn⟩
  · exact (congrArg List.tail hin).symm
  · rw [hin]
    rcases hostWriteDefined_cases o v { s with inputs := rest } ha with
      ⟨-, h'⟩ | ⟨-, -, h'⟩ | ⟨-, -, h'⟩ | ⟨-, -, -, a0, a1, b, h', -⟩ <;> rw [h'] <;> rfl
  · exact (congrArg List.tail hin).symm
  · obtain ⟨-, -, -, -, -, hin, -⟩ := sequencerTurn_effects hturn
    exact hin

/-- While the block is not BUSY a step leaves the line deselected (10_state.md R40). -/
theorem step_keeps_deselected {s t : State} (h : step s = .next t) (hb : busy s = false)
    (hcs : s.cs = .deselected) : t.cs = .deselected := by
  rcases step_cases h with ⟨o, rest, -, -, rfl⟩ | ⟨o, v, rest, -, ha, rfl⟩ | ⟨rest, -, rfl⟩ | ⟨-, hturn⟩
  · exact hcs
  · rcases hostWriteDefined_cases o v { s with inputs := rest } ha with
      ⟨-, h'⟩ | ⟨-, -, h'⟩ | ⟨-, -, h'⟩ | ⟨-, -, -, a0, a1, b, h', -⟩ <;> rw [h'] <;> exact hcs
  · rfl
  · rw [sequencerTurn_of_not_busy (s := afterInput s) hb hturn]
    exact hcs

/-- Ready and deselected, with no host write to CMD to come. -/
structure Idle (s : State) : Prop where
  ready : s.phase = .ready
  deselected : s.cs = .deselected
  noCommand : ∀ i ∈ s.inputs, ¬CmdWrite i

/-- Nothing was sent from `s` to `t`: no primitive, and no answer of the environment taken. -/
structure SameBus (s t : State) : Prop where
  trace : t.trace = s.trace
  answers : t.answers = s.answers
  draws : t.draws = s.draws

/-- Only a host write to CMD ends Idle. -/
theorem Idle.afterStep {s t : State} (hs : Idle s) (h : step s = .next t) : Idle t where
  ready := by
    rw [← not_busy_iff, ← Bool.not_eq_true]
    intro hbusy
    obtain ⟨v, rest, hin, -⟩ := onlyTheHostStartsCommands s t h (not_busy_iff.mpr hs.ready) hbusy
    exact hs.noCommand (.hostWrite 0x00 32 v) (by simp [hin]) ⟨v, rfl⟩
  deselected := step_keeps_deselected h (not_busy_iff.mpr hs.ready) hs.deselected
  noCommand i hi := hs.noCommand i (List.mem_of_mem_tail (step_inputs h ▸ hi))

/-- Only a running command sends. -/
theorem Idle.sameBus_afterStep {s t : State} (hs : Idle s) (h : step s = .next t) : SameBus s t := by
  rcases oneStepIssuesAtMostOnePrimitive s t h with ⟨htrace, hanswers, hdraws⟩ | ⟨-, -, -, -, hbusy⟩
  · exact ⟨htrace, hanswers, hdraws⟩
  · exact absurd (not_busy_iff.mpr hs.ready) (by simp [hbusy])

theorem SameBus.trans {s t u : State} (h : SameBus s t) (h' : SameBus t u) : SameBus s u :=
  ⟨h'.trace.trans h.trace, h'.answers.trans h.answers, h'.draws.trans h.draws⟩

/-- A run of a positive length is a step and a run from there. -/
theorem exists_step_of_runSteps_succ {n : Nat} {s u : State} (h : runSteps (n + 1) s = some u) :
    ∃ t, step s = .next t ∧ runSteps n t = some u := by
  simp only [runSteps] at h
  split at h
  · next t ht => exact ⟨t, ht, h⟩
  · cases h
  · cases h

/-- An idle block stays idle and sends nothing, however long it runs (R361). -/
theorem Idle.afterRun (n : Nat) {s t : State} (hs : Idle s) (h : runSteps n s = some t) : Idle t ∧ SameBus s t := by
  induction n generalizing s with
  | zero =>
    cases h
    exact ⟨hs, rfl, rfl, rfl⟩
  | succ n ih =>
    obtain ⟨u, hstep, hrest⟩ := exists_step_of_runSteps_succ h
    obtain ⟨ht, hbus⟩ := ih (hs.afterStep hstep) hrest
    exact ⟨ht, (hs.sameBus_afterStep hstep).trans hbus⟩

/-- After block reset STATUS is 0: not BUSY, every flag clear, RESULT Ok and the line deselected. -/
theorem statusWord_blockReset (s : State) : statusWord (blockReset s) = 0#32 := by
  simp [statusWord, busy, blockReset, csCode, resultCode]

/-- After block reset every host register reads 0. -/
theorem hostWord_blockReset (s : State) {o : Nat} (ha : hostAccessOk o 32 = true) (ho : o < 0x40) :
    hostWord (blockReset s) o = 0#32 := by
  rw [← Bool.not_eq_false, hostAccessOk_eq_false] at ha
  obtain ⟨k, rfl⟩ : ∃ k, o = 4 * k := ⟨o / 4, by omega⟩
  have hk : k < 16 := by omega
  interval_cases k
  pick_goal 7
  · exact statusWord_blockReset s
  all_goals rfl

/-- Settles O2: the registers and memories are read off `blockReset`, and the run is that of an idle block. -/
theorem nothingHappensAfterReset : Obligations.NothingHappensAfterReset := by
  refine ⟨fun s _ ha ho => hostWord_blockReset s ha ho, fun _ _ => ⟨rfl, rfl⟩, fun _ => ⟨rfl, rfl⟩, ?_⟩
  intro n s t hready hcs hno h
  have hs : Idle s := ⟨hready, hcs, hno⟩
  obtain ⟨ht, hbus⟩ := hs.afterRun n h
  exact ⟨ht.ready, ht.deselected, hbus.trace, hbus.answers, hbus.draws⟩

end Sys2Proof.Machine
end
